-- ==== Sys2Proof/Word.lean ====
section
/-! DEFINITION. The byte and word types, and the little-endian value of a list of bytes (spec rules R107, R141). -/

namespace Sys2Proof

/-- One byte: memory is byte addressed (R141). -/
abbrev Byte := BitVec 8

/-- A 16-bit value: a segment selector, a 16-bit register, a selector error code. -/
abbrev Word16 := BitVec 16

/-- A 32-bit value: a segment limit, a 32-bit register. -/
abbrev Word32 := BitVec 32

/-- A 64-bit value: an offset, a linear or physical address, a descriptor. -/
abbrev Word64 := BitVec 64

/-- The number a list of bytes stands for, the first byte the least significant (R141). -/
def leValue : List Byte → Nat
  | [] => 0
  | b :: bs => b.toNat + 256 * leValue bs

end Sys2Proof
end

