-- ==== Sys2Proof/Syntax.lean ====
section
/-! DEFINITION. The syntax of the thirteen Load Far Pointer forms: modes, segment registers, prefixes, addressing
forms and the one inductive `Instr`, a constructor per row of spec/opcode_table.json. -/

namespace Sys2Proof

/-- The five operating modes (R103, R128). -/
inductive Mode where
  | real
  | v86
  | prot
  | compat
  | long64
  deriving DecidableEq, Repr

/-- The six segment registers (R124). -/
inductive Seg where
  | es
  | cs
  | ss
  | ds
  | fs
  | gs
  deriving DecidableEq, Repr

/-- The five mnemonics (R102). -/
inductive Mnem where
  | lds
  | lss
  | les
  | lfs
  | lgs
  deriving DecidableEq, Repr

/-- The segment register a mnemonic loads, `SEG` of R171. -/
def Mnem.seg : Mnem → Seg
  | .lds => .ds
  | .lss => .ss
  | .les => .es
  | .lfs => .fs
  | .lgs => .gs

/-- The operand size `OSZ` (R113, R176). -/
inductive OpSize where
  | w16
  | w32
  | w64
  deriving DecidableEq, Repr

/-- The operand size in bytes: the width of the offset (R142). -/
def OpSize.bytes : OpSize → Nat
  | .w16 => 2
  | .w32 => 4
  | .w64 => 8

/-- The address size `ASZ` (R113, R177). -/
inductive AddrSize where
  | a16
  | a32
  | a64
  deriving DecidableEq, Repr

/-- The legacy prefixes the group admits (R182); `F2` and `F3` are refused by the decoder (R184). -/
inductive LegacyPfx where
  | opSize
  | addrSize
  | lock
  | seg (s : Seg)
  deriving DecidableEq, Repr

/-- The REX prefix `0100WRXB` (R175). -/
structure Rex where
  w : Bool
  r : Bool
  x : Bool
  b : Bool
  deriving DecidableEq, Repr

/-- The prefixes of one instruction: the legacy prefixes in the order they stand, then REX if there is one (R170). -/
structure Pfx where
  legacy : List LegacyPfx
  rex    : Option Rex
  deriving DecidableEq, Repr

/-- The register sums of 16-bit addressing, one per value of `r/m` (R178). -/
inductive Base16 where
  | bxSi
  | bxDi
  | bpSi
  | bpDi
  | si
  | di
  | bp
  | bx
  deriving DecidableEq, Repr

/-- The displacement of a 16-bit form: none (`mod` 00), `disp8` (01), `disp16` (10). -/
inductive Disp16 where
  | none
  | d8 (d : BitVec 8)
  | d16 (d : BitVec 16)
  deriving DecidableEq, Repr

/-- The displacement of a 32- or 64-bit form: none (`mod` 00), `disp8` (01), `disp32` (10). -/
inductive Disp32 where
  | none
  | d8 (d : BitVec 8)
  | d32 (d : BitVec 32)
  deriving DecidableEq, Repr

/-- The addressing forms of `ASZ` = 16 (R178). -/
inductive Mem16 where
  /-- `mod` 00, `r/m` 110: `disp16` alone. -/
  | abs (d : BitVec 16)
  | based (b : Base16) (d : Disp16)
  deriving DecidableEq, Repr

/-- The addressing forms of `ASZ` = 32 and 64 (R179, R180). Register fields are the three bits of ModRM and SIB;
REX.B and REX.X extend them where the instruction has a REX prefix. -/
inductive Mem32 where
  /-- A base register named by `r/m`, no SIB byte. -/
  | base (rm : BitVec 3) (d : Disp32)
  /-- `mod` 00, `r/m` 101: `disp32` alone outside `Long64`, RIP-relative in `Long64`. -/
  | disp32 (d : BitVec 32)
  /-- A SIB byte with a base register. -/
  | sib (scale : BitVec 2) (index base : BitVec 3) (d : Disp32)
  /-- A SIB byte with `base` 101 and `mod` 00: no base register, a `disp32`. -/
  | sibNoBase (scale : BitVec 2) (index : BitVec 3) (d : BitVec 32)
  deriving DecidableEq, Repr

/-- What the `mod` and `r/m` fields name: a register (`mod` 11, which raises `#UD`, R173) or a memory operand. -/
inductive Operand where
  | register (rm : BitVec 3)
  | mem16 (m : Mem16)
  | mem32 (m : Mem32)
  deriving DecidableEq, Repr

/-- What every form carries beside its opcode: prefixes, the ModRM `reg` field, the operand (R170, R172). -/
structure Enc where
  pfx : Pfx
  reg : BitVec 3
  rm  : Operand
  deriving DecidableEq, Repr

/-- The thirteen forms, one constructor per row of spec/opcode_table.json, in its order (R102, R236 to R248). -/
inductive Instr where
  | lds16 (e : Enc)
  | lds32 (e : Enc)
  | lss16 (e : Enc)
  | lss32 (e : Enc)
  | lss64 (e : Enc)
  | les16 (e : Enc)
  | les32 (e : Enc)
  | lfs16 (e : Enc)
  | lfs32 (e : Enc)
  | lfs64 (e : Enc)
  | lgs16 (e : Enc)
  | lgs32 (e : Enc)
  | lgs64 (e : Enc)
  deriving DecidableEq, Repr

/-- The mnemonic of a form. -/
def Instr.mnem : Instr → Mnem
  | .lds16 _ | .lds32 _ => .lds
  | .lss16 _ | .lss32 _ | .lss64 _ => .lss
  | .les16 _ | .les32 _ => .les
  | .lfs16 _ | .lfs32 _ | .lfs64 _ => .lfs
  | .lgs16 _ | .lgs32 _ | .lgs64 _ => .lgs

/-- The operand size of a form. -/
def Instr.osz : Instr → OpSize
  | .lds16 _ | .lss16 _ | .les16 _ | .lfs16 _ | .lgs16 _ => .w16
  | .lds32 _ | .lss32 _ | .les32 _ | .lfs32 _ | .lgs32 _ => .w32
  | .lss64 _ | .lfs64 _ | .lgs64 _ => .w64

/-- The prefixes and operands of a form. -/
def Instr.enc : Instr → Enc
  | .lds16 e | .lds32 e | .lss16 e | .lss32 e | .lss64 e | .les16 e | .les32 e
  | .lfs16 e | .lfs32 e | .lfs64 e | .lgs16 e | .lgs32 e | .lgs64 e => e

end Sys2Proof
end

