-- ==== Sys2Proof/Config.lean ====
section
/-! DEFINITION. The implementation parameters of spec rule R106, as one record of plain data (`Config`, held in
State.cfg, written by no step), and the free values: constants with no body, which no proof can evaluate. -/

namespace Sys2Proof

/-- The hidden part of a segment register (R124): base, byte-granular limit, the access-rights byte (bits 47 to 40 of
the descriptor: P, DPL, S, type) and the flag nibble (bits 55 to 52: G, D/B, L, AVL). The base is held 64 bits wide
for FS and GS in 64-bit mode; outside it only its low 32 bits enter an address (R145). -/
structure Hidden where
  base   : BitVec 64
  limit  : BitVec 32
  access : BitVec 8
  flags  : BitVec 4
  deriving DecidableEq, Repr, Inhabited

/-- The access kinds of `Translate` (R152): `read` for both reads, `rmw` for the accessed-bit update. -/
inductive AccessKind where
  | read
  | rmw
  deriving DecidableEq, Repr

/-- The privilege of an access (R152): the level `CPL` for the source operand, supervisor for the descriptor table. -/
inductive Privilege where
  | level (cpl : BitVec 2)
  | supervisor
  deriving DecidableEq, Repr

/-- What `Translate` answers for an address: the physical address that the first address of the range maps to, or a
page fault with its fault code (R152, R259). No rule gives the fault code a width: 32 bits is the model's choice, DESIGN
CHOICE (log entry 35). -/
inductive TransResult where
  | frame (phys : BitVec 64)
  | fault (code : BitVec 32)
  deriving DecidableEq, Repr

/-- One entry of the `Translate` parameter: the linear addresses `first` to `last`, for one access kind and one
privilege. -/
structure TransRule where
  first  : Nat
  last   : Nat
  kind   : AccessKind
  priv   : Privilege
  result : TransResult
  deriving DecidableEq, Repr

/-- A range of physical addresses. -/
structure Region where
  base : Nat
  size : Nat
  deriving DecidableEq, Repr

/-- The parameters of R106 and R155. `translate` is the function `Translate` as plain data: the first entry that fits
an access decides it, and an access that no entry fits is the identity. `sideEffect` lists the physical ranges whose
reads have side effects. -/
structure Config where
  hasIntel64   : Bool
  linearBits   : Nat
  vexCapable   : Bool
  setAccessed  : Bool
  acBoundary64 : Nat
  translate    : List TransRule
  sideEffect   : List Region
  deriving DecidableEq, Repr

/-- FREE VALUE `NULL_HIDDEN`: the hidden part after a NULL selector is loaded into DS, ES, FS or GS (R226, D10). -/
opaque Config.nullHidden : Nat → Hidden

/-- FREE VALUE `NULL_SS_HIDDEN`: the hidden part after a permitted NULL load of SS (R228, D11). -/
opaque Config.nullSsHidden : Nat → Hidden

/-- FREE VALUE: bits 63 to 32 of a general register after a 32-bit write outside 64-bit mode (R122, D6). -/
opaque Config.upperHalf : Nat → BitVec 32

/-- FREE CHOICE: whether `#AC` is reported before `#PF` when both apply to the operand (R146, D20). -/
opaque Config.acBeforePf : Nat → Bool

/-- FREE CHOICE: whether the page fault of the descriptor read is reported before the `#GP(selector)` of the
`RPL ≠ CPL` test of an SS load when both apply (R158, D16). -/
opaque Config.pfBeforeRpl : Nat → Bool

/-- FREE CHOICE: whether a non-canonical operand reached with an explicit SS override on a DS-default form raises
`#SS(0)` and not `#GP(0)` (R150, D31). -/
opaque Config.ssForOverride : Nat → Bool

end Sys2Proof
end

