-- ==== Sys2Proof/Decode.lean ====
section
/-! DEFINITION. Operand and address size, the decoder (total on any bytes, rejecting by name) and, after it, the
encoder, from spec/30_encoding.md. -/

namespace Sys2Proof

/-- What decoding reads of the machine: the mode and the default-size bit of the code segment (R176, R177). -/
structure Ctx where
  mode : Mode
  csD  : Bool
  deriving DecidableEq, Repr

/-- The instruction has the prefix byte `66`. -/
def Pfx.has66 (p : Pfx) : Bool := p.legacy.contains .opSize

/-- The instruction has the prefix byte `67`. -/
def Pfx.has67 (p : Pfx) : Bool := p.legacy.contains .addrSize

/-- The instruction has a LOCK prefix (R183). -/
def Pfx.hasLock (p : Pfx) : Bool := p.legacy.contains .lock

/-- The segment-override prefix, if there is one (R182). -/
def Pfx.override (p : Pfx) : Option Seg :=
  p.legacy.findSome? fun
    | .seg s => some s
    | .opSize | .addrSize | .lock => none

/-- REX.W, 0 with no REX prefix (R175). -/
def Pfx.rexW (p : Pfx) : Bool := p.rex.elim false (·.w)

/-- REX.R, 0 with no REX prefix (R174). -/
def Pfx.rexR (p : Pfx) : Bool := p.rex.elim false (·.r)

/-- REX.X, 0 with no REX prefix (R180). -/
def Pfx.rexX (p : Pfx) : Bool := p.rex.elim false (·.x)

/-- REX.B, 0 with no REX prefix (R180). -/
def Pfx.rexB (p : Pfx) : Bool := p.rex.elim false (·.b)

/-- The operand size `OSZ` (R176). -/
def opSize (c : Ctx) (p : Pfx) : OpSize :=
  match c.mode with
  | .real | .v86 => if p.has66 then .w32 else .w16
  | .prot | .compat => if c.csD != p.has66 then .w32 else .w16
  | .long64 => if p.rexW then .w64 else if p.has66 then .w16 else .w32

/-- The address size `ASZ` (R177). -/
def addrSize (c : Ctx) (p : Pfx) : AddrSize :=
  match c.mode with
  | .real | .v86 => if p.has67 then .a32 else .a16
  | .prot | .compat => if c.csD != p.has67 then .a32 else .a16
  | .long64 => if p.has67 then .a32 else .a64

/-- The form with this mnemonic and operand size (R187, R192 step 7). LDS and LES have no 64-bit form: in `Long64`
with REX.W the bytes stand for the 32-bit form, which raises `#UD` there whatever its size (R188). -/
def formOf (m : Mnem) (o : OpSize) (e : Enc) : Instr :=
  match m, o with
  | .lds, .w16 => .lds16 e
  | .lds, .w32 | .lds, .w64 => .lds32 e
  | .les, .w16 => .les16 e
  | .les, .w32 | .les, .w64 => .les32 e
  | .lss, .w16 => .lss16 e
  | .lss, .w32 => .lss32 e
  | .lss, .w64 => .lss64 e
  | .lfs, .w16 => .lfs16 e
  | .lfs, .w32 => .lfs32 e
  | .lfs, .w64 => .lfs64 e
  | .lgs, .w16 => .lgs16 e
  | .lgs, .w32 => .lgs32 e
  | .lgs, .w64 => .lgs64 e

/-! ## Bytes and fields -/

/-- The byte of a legacy prefix (R182). -/
def LegacyPfx.byte : LegacyPfx → Byte
  | .opSize => 0x66#8
  | .addrSize => 0x67#8
  | .lock => 0xF0#8
  | .seg .cs => 0x2E#8
  | .seg .ss => 0x36#8
  | .seg .ds => 0x3E#8
  | .seg .es => 0x26#8
  | .seg .fs => 0x64#8
  | .seg .gs => 0x65#8

/-- The legacy prefix a byte is, if it is one the group admits (R182). -/
def legacyOf (b : Byte) : Option LegacyPfx :=
  if b = 0x66#8 then some .opSize
  else if b = 0x67#8 then some .addrSize
  else if b = 0xF0#8 then some .lock
  else if b = 0x2E#8 then some (.seg .cs)
  else if b = 0x36#8 then some (.seg .ss)
  else if b = 0x3E#8 then some (.seg .ds)
  else if b = 0x26#8 then some (.seg .es)
  else if b = 0x64#8 then some (.seg .fs)
  else if b = 0x65#8 then some (.seg .gs)
  else none

/-- A repeat prefix, `F2` or `F3` (R184). -/
def isRepeat (b : Byte) : Bool := b == 0xF2#8 || b == 0xF3#8

/-- A byte of the REX pattern `0100WRXB` (R175). -/
def isRex (b : Byte) : Bool := b.extractLsb' 4 4 == 4#4

/-- The REX fields of a byte: W bit 3, R bit 2, X bit 1, B bit 0 (R175). -/
def rexOf (b : Byte) : Rex :=
  { w := b.getLsbD 3, r := b.getLsbD 2, x := b.getLsbD 1, b := b.getLsbD 0 }

/-- The byte of a REX prefix (R175). -/
def Rex.byte (r : Rex) : Byte :=
  4#4 ++ BitVec.ofBool r.w ++ BitVec.ofBool r.r ++ BitVec.ofBool r.x ++ BitVec.ofBool r.b

/-- `mod`, bits 7 to 6 of ModRM (R172); also `scale` of SIB (R179). -/
def hi2 (b : Byte) : BitVec 2 := b.extractLsb' 6 2

/-- `reg`, bits 5 to 3 of ModRM (R172); also `index` of SIB (R179). -/
def mid3 (b : Byte) : BitVec 3 := b.extractLsb' 3 3

/-- `r/m`, bits 2 to 0 of ModRM (R172); also `base` of SIB (R179). -/
def lo3 (b : Byte) : BitVec 3 := b.extractLsb' 0 3

/-- A ModRM or SIB byte from its three fields. -/
def byte233 (a : BitVec 2) (b c : BitVec 3) : Byte := a ++ b ++ c

/-- The register sum that a 3-bit `r/m` names at `ASZ` = 16 (R178). -/
def base16Of (rm : BitVec 3) : Base16 :=
  if rm = 0#3 then .bxSi
  else if rm = 1#3 then .bxDi
  else if rm = 2#3 then .bpSi
  else if rm = 3#3 then .bpDi
  else if rm = 4#3 then .si
  else if rm = 5#3 then .di
  else if rm = 6#3 then .bp
  else .bx

/-- The `r/m` field of a 16-bit register sum (R178). -/
def Base16.code : Base16 → BitVec 3
  | .bxSi => 0#3
  | .bxDi => 1#3
  | .bpSi => 2#3
  | .bpDi => 3#3
  | .si => 4#3
  | .di => 5#3
  | .bp => 6#3
  | .bx => 7#3

/-- Two bytes, least significant first (R181). -/
def le16 (d : BitVec 16) : List Byte := [d.extractLsb' 0 8, d.extractLsb' 8 8]

/-- Four bytes, least significant first (R181). -/
def le32 (d : BitVec 32) : List Byte :=
  [d.extractLsb' 0 8, d.extractLsb' 8 8, d.extractLsb' 16 8, d.extractLsb' 24 8]

/-- Read a `disp8`; `none` when the bytes run out. -/
def get8 : List Byte → Option (BitVec 8 × List Byte)
  | b :: r => some (b, r)
  | [] => none

/-- Read a `disp16`, least significant byte first (R181). -/
def get16 : List Byte → Option (BitVec 16 × List Byte)
  | b0 :: b1 :: r => some (b1 ++ b0, r)
  | _ => none

/-- Read a `disp32`, least significant byte first (R181). -/
def get32 : List Byte → Option (BitVec 32 × List Byte)
  | b0 :: b1 :: b2 :: b3 :: r => some (b3 ++ b2 ++ b1 ++ b0, r)
  | _ => none

/-! ## The decoder -/

/-- Why bytes are refused by the decoder. -/
inductive Rejection where
  /-- The bytes are not an instruction of the group (R192 step 3, R289). -/
  | notInGroup
  /-- A repeat prefix `F2` or `F3` (R184). -/
  | repeatPfx
  /-- `66`, `67` or LOCK given twice (R184, D24). -/
  | repeatedPfx
  /-- More than one segment override (R184). -/
  | severalOverrides
  /-- A REX prefix that is not immediately before the opcode (R184). -/
  | misplacedRex
  deriving DecidableEq, Repr

/-- What decoding answers: an instruction and the bytes after it, too few bytes, or a rejection by name. -/
inductive Decoded where
  | ok (i : Instr) (rest : List Byte)
  | truncated
  | rejected (r : Rejection)
  deriving DecidableEq, Repr

/-- The leading legacy prefixes and the bytes after them (R192 step 1). -/
def scanLegacy : List Byte → List LegacyPfx × List Byte
  | [] => ([], [])
  | b :: bs =>
    match legacyOf b with
    | some p => (p :: (scanLegacy bs).1, (scanLegacy bs).2)
    | none => ([], b :: bs)

/-- A segment-override prefix. -/
def LegacyPfx.isSeg : LegacyPfx → Bool
  | .seg _ => true
  | .opSize | .addrSize | .lock => false

/-- The prefix cases of R184 that concern legacy prefixes: the name of the refusal, or `none`. -/
def legacyProblem (ps : List LegacyPfx) : Option Rejection :=
  if 1 < ps.countP LegacyPfx.isSeg then some .severalOverrides
  else if 1 < ps.count .opSize || 1 < ps.count .addrSize || 1 < ps.count .lock then some .repeatedPfx
  else none

/-- The REX prefix, recognised only in `Long64` (R175, R192 step 2), and the bytes after it. -/
def takeRex (c : Ctx) : List Byte → Option Rex × List Byte
  | [] => (none, [])
  | b :: bs => if c.mode = .long64 && isRex b then (some (rexOf b), bs) else (none, b :: bs)

/-- What stands where the opcode should: a mnemonic, too few bytes, or other bytes. -/
inductive OpcodeRead where
  | found (m : Mnem) (rest : List Byte)
  | more
  | other
  deriving DecidableEq, Repr

/-- Read the opcode bytes (R171, R185, R192 step 3). -/
def takeOpcode : List Byte → OpcodeRead
  | [] => .more
  | b :: bs =>
    if b = 0xC5#8 then .found .lds bs
    else if b = 0xC4#8 then .found .les bs
    else if b = 0x0F#8 then
      match bs with
      | [] => .more
      | b2 :: bs2 =>
        if b2 = 0xB2#8 then .found .lss bs2
        else if b2 = 0xB4#8 then .found .lfs bs2
        else if b2 = 0xB5#8 then .found .lgs bs2
        else .other
    else .other

/-- Read the displacement that `mod` calls for at `ASZ` = 16, for a form with a register sum. -/
def takeDisp16 (md : BitVec 2) (bs : List Byte) : Option (Disp16 × List Byte) :=
  if md = 0#2 then some (.none, bs)
  else if md = 1#2 then (get8 bs).map fun (d, r) => (.d8 d, r)
  else (get16 bs).map fun (d, r) => (.d16 d, r)

/-- Read the displacement that `mod` calls for at `ASZ` = 32 and 64, for a form with a base register. -/
def takeDisp32 (md : BitVec 2) (bs : List Byte) : Option (Disp32 × List Byte) :=
  if md = 0#2 then some (.none, bs)
  else if md = 1#2 then (get8 bs).map fun (d, r) => (.d8 d, r)
  else (get32 bs).map fun (d, r) => (.d32 d, r)

/-- The memory operand at `ASZ` = 16 (R178). -/
def takeMem16 (md : BitVec 2) (rm : BitVec 3) (bs : List Byte) : Option (Mem16 × List Byte) :=
  if md = 0#2 ∧ rm = 6#3 then (get16 bs).map fun (d, r) => (.abs d, r)
  else (takeDisp16 md bs).map fun (d, r) => (.based (base16Of rm) d, r)

/-- The memory operand that a SIB byte begins (R179, R180). -/
def takeSib (md : BitVec 2) : List Byte → Option (Mem32 × List Byte)
  | [] => none
  | b :: bs =>
    if md = 0#2 ∧ lo3 b = 5#3 then (get32 bs).map fun (d, r) => (.sibNoBase (hi2 b) (mid3 b) d, r)
    else (takeDisp32 md bs).map fun (d, r) => (.sib (hi2 b) (mid3 b) (lo3 b) d, r)

/-- The memory operand at `ASZ` = 32 and 64 (R179, R180). -/
def takeMem32 (md : BitVec 2) (rm : BitVec 3) (bs : List Byte) : Option (Mem32 × List Byte) :=
  if rm = 4#3 then takeSib md bs
  else if md = 0#2 ∧ rm = 5#3 then (get32 bs).map fun (d, r) => (.disp32 d, r)
  else (takeDisp32 md bs).map fun (d, r) => (.base rm d, r)

/-- The operand that `mod` and `r/m` name, by address size (R172, R173, R178 to R180). -/
def takeOperand (a : AddrSize) (md : BitVec 2) (rm : BitVec 3) (bs : List Byte) : Option (Operand × List Byte) :=
  if md = 3#2 then some (.register rm, bs)
  else
    match a with
    | .a16 => (takeMem16 md rm bs).map fun (m, r) => (.mem16 m, r)
    | .a32 | .a64 => (takeMem32 md rm bs).map fun (m, r) => (.mem32 m, r)

/-- ModRM and what follows it: the form of the mnemonic with the operand size of the prefixes (R192 steps 4, 6, 7). SIB
and displacement are read also where the encoding raises `#UD`, and too few bytes is `truncated` there too: DESIGN CHOICE
(log entry 36). -/
def decodeModRM (c : Ctx) (p : Pfx) (m : Mnem) : List Byte → Decoded
  | [] => .truncated
  | b :: bs =>
    match takeOperand (addrSize c p) (hi2 b) (lo3 b) bs with
    | none => .truncated
    | some (o, rest) => .ok (formOf m (opSize c p) { pfx := p, reg := mid3 b, rm := o }) rest

/-- The opcode and what follows it, after the prefixes (R184, R192 step 3). -/
def decodeOpcode (c : Ctx) (p : Pfx) : List Byte → Decoded
  | [] => .truncated
  | b :: bs =>
    if isRepeat b then .rejected .repeatPfx
    else if p.rex.isSome && ((legacyOf b).isSome || isRex b) then .rejected .misplacedRex
    else
      match takeOpcode (b :: bs) with
      | .found m rest => decodeModRM c p m rest
      | .more => .truncated
      | .other => .rejected .notInGroup

/-- The decoder (R192). The encodings that raise `#UD` (LOCK, `mod` 11, `C4` and `C5` in `Long64`) decode to their
form: its meaning raises the exception (R201). -/
def decode (c : Ctx) (bs : List Byte) : Decoded :=
  match legacyProblem (scanLegacy bs).1 with
  | some r => .rejected r
  | none =>
    decodeOpcode c { legacy := (scanLegacy bs).1, rex := (takeRex c (scanLegacy bs).2).1 } (takeRex c (scanLegacy bs).2).2

/-! ## The encoder -/

/-- The opcode bytes (R171). -/
def Mnem.opcode : Mnem → List Byte
  | .lds => [0xC5#8]
  | .les => [0xC4#8]
  | .lss => [0x0F#8, 0xB2#8]
  | .lfs => [0x0F#8, 0xB4#8]
  | .lgs => [0x0F#8, 0xB5#8]

/-- The `mod` field of a 16-bit displacement form (R178). -/
def Disp16.md : Disp16 → BitVec 2
  | .none => 0#2
  | .d8 _ => 1#2
  | .d16 _ => 2#2

/-- The displacement bytes (R181). -/
def Disp16.bytes : Disp16 → List Byte
  | .none => []
  | .d8 d => [d]
  | .d16 d => le16 d

/-- The `mod` field of a 32-bit displacement form (R179). -/
def Disp32.md : Disp32 → BitVec 2
  | .none => 0#2
  | .d8 _ => 1#2
  | .d32 _ => 2#2

/-- The displacement bytes (R181). -/
def Disp32.bytes : Disp32 → List Byte
  | .none => []
  | .d8 d => [d]
  | .d32 d => le32 d

/-- ModRM, SIB and displacement bytes of an operand, with the `reg` field given (R172, R178 to R181). -/
def Operand.encode (reg : BitVec 3) : Operand → List Byte
  | .register rm => [byte233 3#2 reg rm]
  | .mem16 (.abs d) => byte233 0#2 reg 6#3 :: le16 d
  | .mem16 (.based b d) => byte233 d.md reg b.code :: d.bytes
  | .mem32 (.base rm d) => byte233 d.md reg rm :: d.bytes
  | .mem32 (.disp32 d) => byte233 0#2 reg 5#3 :: le32 d
  | .mem32 (.sib sc ix bs d) => byte233 d.md reg 4#3 :: byte233 sc ix bs :: d.bytes
  | .mem32 (.sibNoBase sc ix d) => byte233 0#2 reg 4#3 :: byte233 sc ix 5#3 :: le32 d

/-- The bytes of an instruction (R170). -/
def encode (i : Instr) : List Byte :=
  i.enc.pfx.legacy.map LegacyPfx.byte ++ (i.enc.pfx.rex.map Rex.byte).toList ++ i.mnem.opcode
    ++ i.enc.rm.encode i.enc.reg

/-- The number of bytes of a 16-bit form's displacement (R181). -/
def Disp16.length : Disp16 → Nat
  | .none => 0
  | .d8 _ => 1
  | .d16 _ => 2

/-- The number of bytes of a 32-bit form's displacement (R181). -/
def Disp32.length : Disp32 → Nat
  | .none => 0
  | .d8 _ => 1
  | .d32 _ => 4

/-- ModRM, SIB and displacement bytes counted (R186). -/
def Operand.length : Operand → Nat
  | .register _ => 1
  | .mem16 (.abs _) => 3
  | .mem16 (.based _ d) => 1 + d.length
  | .mem32 (.base _ d) => 1 + d.length
  | .mem32 (.disp32 _) => 5
  | .mem32 (.sib _ _ _ d) => 2 + d.length
  | .mem32 (.sibNoBase _ _ _) => 6

/-- The number of opcode bytes (R171, R186). -/
def Mnem.opcodeBytes : Mnem → Nat
  | .lds | .les => 1
  | .lss | .lfs | .lgs => 2

/-- The instruction length `L` of a mnemonic with these prefixes and this operand (R186). -/
def Enc.length (m : Mnem) (e : Enc) : Nat :=
  e.pfx.legacy.length + (if e.pfx.rex.isSome then 1 else 0) + m.opcodeBytes + e.rm.length

/-- The instruction length `L` (R186). -/
def Instr.length (i : Instr) : Nat := i.enc.length i.mnem

/-! ## Words of the opcode table -/

/-- The bytes of a word, the first byte the most significant: how spec/opcode_table.json writes `match` and numbers
`fixed` (R192). -/
def bytesMsbFirst (n w : Nat) : List Byte :=
  (List.range n).map fun k => BitVec.ofNat 8 (w / 256 ^ (n - 1 - k))

/-- The bytes of a word, the first byte the least significant. -/
def bytesLsbFirst (n w : Nat) : List Byte :=
  (List.range n).map fun k => BitVec.ofNat 8 (w / 256 ^ k)

/-- The longest instruction a processor accepts (R186). -/
def maxLength : Nat := 15

/-- Zeros after the given bytes, up to the longest instruction. -/
def padBytes (bs : List Byte) : List Byte := bs ++ List.replicate (maxLength - bs.length) 0#8

/-- The context right after reset (log entry 2): real-address mode, a 16-bit code segment. -/
def resetCtx : Ctx := { mode := .real, csD := false }

/-- The bytes a table word stands for. The table puts the first byte in the most significant place (R192); a word that
is no instruction of the group in that order is read with the first byte in the least significant place (log entry 34). -/
def tableBytes (nbits w : Nat) : List Byte :=
  if decode resetCtx (padBytes (bytesMsbFirst (nbits / 8) w)) = .rejected .notInGroup then
    padBytes (bytesLsbFirst (nbits / 8) w)
  else padBytes (bytesMsbFirst (nbits / 8) w)

/-- The instruction the decoder reads from a table word, right after reset. -/
def decodeTableWord (nbits w : Nat) : Option Instr :=
  match decode resetCtx (tableBytes nbits w) with
  | .ok i _ => some i
  | .truncated => none
  | .rejected _ => none

end Sys2Proof
end

