-- ==== Sys2Proof/Machine/State.lean ====
section
/-! DEFINITION. The machine's state as plain data, the reasons a step can stop, and the state after reset (spec
10_state.md R120 to R138, 60_exceptions.md R250 to R264, R289). -/

namespace Sys2Proof.Machine

/-- A general register as two halves: bits 63 to 32, which only 64-bit mode can see, and bits 31 to 0 (R120, R122).
On a processor without `HAS_INTEL64` the upper half is not there (R120) and is never written. -/
structure Gpr where
  upper : BitVec 32
  lower : BitVec 32
  deriving DecidableEq, Repr

/-- A segment register: visible selector, hidden descriptor-valid flag, the rest of the hidden part (R124). -/
structure SegReg where
  sel   : BitVec 16
  valid : Bool
  hid   : Hidden
  deriving DecidableEq, Repr

/-- The global descriptor-table register (R130). -/
structure Gdtr where
  base  : BitVec 64
  limit : BitVec 16
  deriving DecidableEq, Repr

/-- The local descriptor-table register: selector, valid flag, hidden base and limit of the table (R130). -/
structure Ldtr where
  sel   : BitVec 16
  valid : Bool
  base  : BitVec 64
  limit : BitVec 32
  deriving DecidableEq, Repr

/-- Physical memory: the listed bytes, addresses strictly rising, no entry equal to what an unlisted byte reads as
(log entry 4). -/
abbrev Memory := List Host.Cell

/-- The state of the machine. `CS.D` is the D/B bit of `cs.hid` (R131, log entry 8). `cfg` are the parameters of
R106, which no step writes (R137, log entry 1). `draws` and `modifiedCode` are the model's own fields: the counter of
the free values (log entry 9) and the physical addresses that accessed-bit updates have written (R163, D23). -/
structure State where
  regs         : Vector Gpr 16
  cs           : SegReg
  ds           : SegReg
  es           : SegReg
  fs           : SegReg
  gs           : SegReg
  ss           : SegReg
  pc           : BitVec 64
  mode         : Mode
  cpl          : BitVec 2
  gdtr         : Gdtr
  ldtr         : Ldtr
  acEnabled    : Bool
  flags        : BitVec 32
  mem          : Memory
  cfg          : Config
  draws        : Nat
  modifiedCode : List Nat
  deriving DecidableEq, Repr

/-- The exceptions an instruction of the group raises (R250), as the terminal outcome `Fault(name, error code or none,
extra)` of R264: the instruction has changed no state (R230) and `pc` is at its first byte (R110). All are safe: the
spec names each. -/
inductive Fault where
  /-- `#UD`, no error code (R257): raised by `checkEncoding` (R201). -/
  | ud
  /-- `#GP`, with no error code in real-address mode (R257) and otherwise with code 0 or the selector's (R256, R258):
  raised by the operand checks (R147 to R150) and the segment-register load (R223 to R225, R227, R228); also for an
  instruction longer than 15 bytes (R186), by `step`. -/
  | gp (code : Option (BitVec 16))
  /-- `#SS`, with no error code in real-address mode: raised by the operand checks (R148, R150) and by a load of SS
  whose segment is not present (R223, R227). -/
  | ss (code : Option (BitVec 16))
  /-- `#NP(selector)`: raised by a load of DS, ES, FS or GS whose segment is not present (R224, R225). -/
  | np (code : BitVec 16)
  /-- `#PF(fault-code)` with the faulting linear address: raised by the operand access (R152) and by the descriptor
  read (R158). The code is 32 bits wide, DESIGN CHOICE (log entry 35). -/
  | pf (code : BitVec 32) (la : BitVec 64)
  /-- `#AC(0)`: raised by the alignment check (R153). -/
  | ac (code : BitVec 16)
  deriving DecidableEq, Repr

/-- The steps the model gives no meaning to, each because the spec does (60_exceptions.md, 93_implementation_defined.md
U5, U9 to U11, U15, U21). All are safe: nothing can be proved of what the processor does there. -/
inductive Refusal where
  /-- An instruction whose meaning has not been written; raised by `exec` only, by the table's mnemonic. Safe. -/
  | notModelled (mnemonic : String)
  /-- Bytes the decoder refuses by name (R184, R192 step 3, R289); raised by `step`. Safe. -/
  | undecodable (r : Rejection)
  /-- An `Instr` that no bytes encode in the present mode (R187 'N.E.'); raised by `checkEncoding`, never reached from
  `step`. Safe. -/
  | notEncodable
  /-- `C4` or `C5` that a `VEX_CAPABLE` processor reads as a vector-instruction prefix (R190); raised by
  `checkEncoding`. Safe. -/
  | vexEncoding
  /-- An operand that runs past the top of the offset range, or of the 64-bit linear range (R151, D4). Safe. -/
  | operandWraps
  /-- An operand, descriptor or instruction byte in memory whose reads have side effects (R155, U11). Safe. -/
  | sideEffectMemory
  /-- A page fault on the accessed-bit update (R160, U15). Safe. -/
  | accessedBitFault
  /-- `pc + L`, or an instruction byte, passes the top of the code segment's offset range (R133, U10). Safe. -/
  | pcPastTop
  /-- An instruction byte is not readable through CS at `pc`: outside the CS limit, non-canonical, or on a faulting
  page (R282 (d)); raised by `step`. Safe. -/
  | fetchNotReadable
  /-- An instruction byte was written by an accessed-bit update (R163, U21); raised by `step`. Safe. -/
  | modifiedCode
  deriving DecidableEq, Repr

/-- Why an operation ends an instruction before it completes. -/
inductive Stop where
  | fault (f : Fault)
  | refuse (r : Refusal)
  deriving DecidableEq, Repr

/-- The answer of an operation that may end the instruction. -/
abbrev Check (α : Type) := Except Stop α

/-- A segment register in its documented reset form: selector, base, limit 0xFFFF, present writable accessed data,
usable (R138, orientation column; log entry 2). -/
def SegReg.atReset (sel : BitVec 16) (base : BitVec 64) : SegReg :=
  { sel := sel, valid := true, hid := { base := base, limit := 0xFFFF#32, access := 0x93#8, flags := 0#4 } }

/-- The parameters at reset: those of the spec's test environments (95_test_vectors.md section 2; log entry 1). -/
def configAtReset : Config :=
  { hasIntel64 := true, linearBits := 48, vexCapable := false, setAccessed := true, acBoundary64 := 8,
    translate := [], sideEffect := [] }

/-- The general registers at reset: 0, but for register 2 (EDX), the processor signature (R138; log entry 2). -/
def regsAtReset : Vector Gpr 16 :=
  (Vector.replicate 16 { upper := 0#32, lower := 0#32 }).set 2 { upper := 0#32, lower := 0x00000600#32 }

/-- The machine right after reset. The spec states no reset value (R138, R280); each value here is the one R138 lists
as commonly documented (log entry 2). -/
def State.reset : State :=
  { regs := regsAtReset
    cs := SegReg.atReset 0xF000#16 0xFFFF0000#64
    ds := SegReg.atReset 0#16 0#64
    es := SegReg.atReset 0#16 0#64
    fs := SegReg.atReset 0#16 0#64
    gs := SegReg.atReset 0#16 0#64
    ss := SegReg.atReset 0#16 0#64
    pc := 0xFFF0#64
    mode := .real
    cpl := 0#2
    gdtr := { base := 0#64, limit := 0xFFFF#16 }
    ldtr := { sel := 0#16, valid := false, base := 0#64, limit := 0xFFFF#32 }
    acEnabled := false
    flags := 0x00000002#32
    mem := []
    cfg := configAtReset
    draws := 0
    modifiedCode := [] }

end Sys2Proof.Machine
end

