-- ==== Sys2Proof/Machine/Ops.lean ====
section
/-! DEFINITION. The named operations over memory and registers: reading and writing one byte, the register accessors
and narrow writes (R122), segment registers, translation (R152), system reads (R158), raising an exception (R110,
R264). -/

namespace Sys2Proof

/-- An entry of the translation fits an access. -/
def TransRule.fits (r : TransRule) (k : AccessKind) (p : Privilege) (la : Nat) : Bool :=
  decide (r.kind = k) && decide (r.priv = p) && decide (r.first ≤ la) && decide (la ≤ r.last)

end Sys2Proof

namespace Sys2Proof.Machine

/-! ## Ending an instruction -/

/-- Raise an exception: the ONE way the model takes one. The instruction ends at once, no state has been written and
`pc` is at its first byte (R110, R230); the spec gives no delivery, so this is a terminal outcome (R264). -/
def raise {α : Type} (f : Fault) : Check α := .error (.fault f)

/-- End the step with no meaning, by name. -/
def refuse {α : Type} (r : Refusal) : Check α := .error (.refuse r)

/-- The outcome of a finished instruction. -/
def finish : Check State → Host.Outcome State Fault Refusal
  | .ok t => .next t
  | .error (.fault f) => .fault f
  | .error (.refuse r) => .refused r

/-! ## Memory -/

/-- What a byte that memory does not list reads as (log entry 4). -/
def unlistedByte : Byte := 0#8

/-- Read one byte of physical memory. -/
def Memory.read (m : Memory) (a : Nat) : Byte :=
  match m with
  | [] => unlistedByte
  | (k, b) :: rest => if k = a then b else Memory.read rest a

/-- Write one byte of physical memory, keeping the canonical form. -/
def Memory.write (m : Memory) (a : Nat) (v : Byte) : Memory :=
  match m with
  | [] => if v = unlistedByte then [] else [(a, v)]
  | (k, b) :: rest =>
    if a < k then (if v = unlistedByte then (k, b) :: rest else (a, v) :: (k, b) :: rest)
    else if a = k then (if v = unlistedByte then rest else (a, v) :: rest)
    else (k, b) :: Memory.write rest a v

/-- Every listed address lies at or above `lo`, below 2^64, addresses rise strictly and no entry is the unlisted
byte. -/
def Memory.wfFrom (lo : Nat) : Memory → Bool
  | [] => true
  | (k, b) :: rest => decide (lo ≤ k) && decide (k < 2 ^ 64) && b != unlistedByte && Memory.wfFrom (k + 1) rest

/-- The canonical form of memory. -/
def Memory.wf (m : Memory) : Bool := Memory.wfFrom 0 m

/-- One byte of the machine's memory, at a physical address. -/
def State.byteAt (s : State) (a : Nat) : Byte := s.mem.read a

/-- The value of the bytes at a list of physical addresses, the first the least significant (R141). -/
def State.valueAt (s : State) (as : List (BitVec 64)) : Nat := leValue (as.map fun a => s.byteAt a.toNat)

/-! ## Registers -/

/-- What decoding reads of the state (R176, R177): `CS.D` is the D/B bit of CS (R131). -/
def State.csD (s : State) : Bool := s.cs.hid.flags.getLsbD 2

/-- The decoding context of a state. -/
def State.ctx (s : State) : Ctx := { mode := s.mode, csD := s.csD }

/-- General register `i` (R108). -/
def State.gpr (s : State) (i : BitVec 4) : Gpr := s.regs[i.toNat]

/-- `x16[i]` (R108). -/
def State.x16 (s : State) (i : BitVec 4) : BitVec 16 := (s.gpr i).lower.setWidth 16

/-- `x32[i]` (R108). -/
def State.x32 (s : State) (i : BitVec 4) : BitVec 32 := (s.gpr i).lower

/-- `x64[i]` (R108). -/
def State.x64 (s : State) (i : BitVec 4) : BitVec 64 := (s.gpr i).upper ++ (s.gpr i).lower

/-- Whether a write of this width leaves bits 63 to 32 as a free value: a 32-bit write outside 64-bit mode, on a
processor that has those bits (R122, D6). -/
def State.drawsUpper (s : State) (o : OpSize) : Bool := o == .w32 && s.mode != .long64 && s.cfg.hasIntel64

/-- Register contents after a write at width `OSZ` (R122). -/
def State.narrowWrite (s : State) (o : OpSize) (g : Gpr) (v : BitVec 64) : Gpr :=
  match o with
  | .w16 => { g with lower := g.lower.extractLsb' 16 16 ++ v.setWidth 16 }
  | .w32 =>
    { upper :=
        if s.mode = .long64 then 0#32
        else if s.cfg.hasIntel64 then Config.upperHalf s.draws
        else g.upper
      lower := v.setWidth 32 }
  | .w64 => { upper := v.extractLsb' 32 32, lower := v.setWidth 32 }

/-- The register file after `x[d] <- v` at width `OSZ` (R108, R229). -/
def State.writeReg (s : State) (o : OpSize) (d : BitVec 4) (v : BitVec 64) : Vector Gpr 16 :=
  s.regs.set d.toNat (s.narrowWrite o (s.gpr d) v)

/-- A segment register (R124). -/
def State.seg (s : State) : Seg → SegReg
  | .es => s.es
  | .cs => s.cs
  | .ss => s.ss
  | .ds => s.ds
  | .fs => s.fs
  | .gs => s.gs

/-- The state with one segment register replaced. -/
def State.setSeg (s : State) (g : Seg) (v : SegReg) : State :=
  match g with
  | .es => { s with es := v }
  | .cs => { s with cs := v }
  | .ss => { s with ss := v }
  | .ds => { s with ds := v }
  | .fs => { s with fs := v }
  | .gs => { s with gs := v }

/-! ## Addresses -/

/-- A 64-bit address is canonical when bits 63 down to `LINEAR_BITS - 1` are all equal (R150). -/
def State.canonical (s : State) (a : BitVec 64) : Bool :=
  a.sshiftRight (s.cfg.linearBits - 1) == 0#64 || a.sshiftRight (s.cfg.linearBits - 1) == -1#64

/-- The linear address of offset `o` in segment `g` (R145): 32 bits outside `Long64`; in `Long64` the base is 0 but
for FS and GS. -/
def State.linear (s : State) (g : Seg) (o : BitVec 64) : BitVec 64 :=
  if s.mode = .long64 then (if g = .fs ∨ g = .gs then (s.seg g).hid.base else 0#64) + o
  else (((s.seg g).hid.base + o).setWidth 32).setWidth 64

/-! ## Translation -/

/-- `Translate(la, kind, priv)` (R152): the identity in real-address mode and where no entry fits; otherwise a
physical address or a page fault with its fault code and the faulting linear address (R259). -/
def State.translate (s : State) (k : AccessKind) (p : Privilege) (la : BitVec 64) : Check (BitVec 64) :=
  if s.mode = .real then .ok la
  else
    match s.cfg.translate.find? (fun r => r.fits k p la.toNat) with
    | none => .ok la
    | some r =>
      match r.result with
      | .frame phys => .ok (phys + (la - BitVec.ofNat 64 r.first))
      | .fault code => raise (.pf code la)

/-- Translate each byte of an access, lowest address first; the first that faults decides (R152: a fault on any page
raises `#PF`). -/
def State.translateAll (s : State) (k : AccessKind) (p : Privilege) : List (BitVec 64) → Check (List (BitVec 64))
  | [] => .ok []
  | la :: rest =>
    match s.translate k p la with
    | .error e => .error e
    | .ok a =>
      match s.translateAll k p rest with
      | .error e => .error e
      | .ok as => .ok (a :: as)

/-- A physical address lies in memory whose reads have side effects (R155). -/
def State.hasSideEffect (s : State) (a : BitVec 64) : Bool :=
  s.cfg.sideEffect.any fun r => decide (r.base ≤ a.toNat) && decide (a.toNat < r.base + r.size)

/-- Refuse an access to memory whose reads have side effects (R155). -/
def State.refuseSideEffect (s : State) (as : List (BitVec 64)) : Check (List (BitVec 64)) :=
  if as.any s.hasSideEffect then refuse .sideEffectMemory else .ok as

end Sys2Proof.Machine
end

