-- ==== Sys2Proof/Machine/Flags.lean ====
section
/-! DEFINITION. Flags. No form writes any flag (R132, R234), so there is no flag computation; the one flag read is the
alignment-check enable (R131), whose condition stands here (R153). -/

namespace Sys2Proof.Machine

/-- `AC_BOUNDARY(OSZ)`: the alignment boundary of a far pointer (R106, R153). -/
def State.acBoundary (s : State) : OpSize → Nat
  | .w16 => 2
  | .w32 => 4
  | .w64 => s.cfg.acBoundary64

/-- The linear address is not a multiple of the boundary (R153). -/
def State.unaligned (s : State) (o : OpSize) (la : BitVec 64) : Bool := la.toNat % s.acBoundary o != 0

/-- `#AC(0)` is due (R153): alignment checking is enabled, the operand is unaligned, and the privilege level is 3,
which in virtual-8086 mode it always is; never in real-address mode. -/
def State.alignmentDue (s : State) (o : OpSize) (la : BitVec 64) : Bool :=
  match s.mode with
  | .real => false
  | .v86 => s.acEnabled && s.unaligned o la
  | .prot | .compat | .long64 => s.acEnabled && s.cpl == 3#2 && s.unaligned o la

end Sys2Proof.Machine
end

