-- ==== Sys2Proof/Machine/Operands.lean ====
section
/-! DEFINITION. The memory operand: effective address and segment (R144, R178 to R181, R202), the checks on it in the
order of R146 (R147 to R153, R203), and its read (R142, R143, R204). -/

namespace Sys2Proof

/-- The 16-bit sum of a form uses BP, so that its default segment is SS (R144, R178). -/
def Base16.usesBp : Base16 → Bool
  | .bpSi | .bpDi | .bp => true
  | .bxSi | .bxDi | .si | .di | .bx => false

/-- A 16-bit form's displacement; `disp8` sign-extended (R181). -/
def Disp16.value : Disp16 → BitVec 16
  | .none => 0#16
  | .d8 d => d.signExtend 16
  | .d16 d => d

/-- A 32- or 64-bit form's displacement, sign-extended to 64 bits (R180, R181); the sum is cut to the address size. -/
def Disp32.value : Disp32 → BitVec 64
  | .none => 0#64
  | .d8 d => d.signExtend 64
  | .d32 d => d.signExtend 64

/-- The default segment of a 16-bit form is SS (R178). -/
def Mem16.ssDefault : Mem16 → Bool
  | .abs _ => false
  | .based b _ => b.usesBp

/-- A register number extended by a REX bit (R180). -/
def extReg (ext : Bool) (n : BitVec 3) : BitVec 4 := BitVec.ofBool ext ++ n

/-- The default segment of a 32- or 64-bit form is SS: its base register is number 4 or 5 (R179, R180). -/
def Mem32.ssDefault (p : Pfx) (m : Mem32) : Bool :=
  match m with
  | .base rm _ => extReg p.rexB rm == 4#4 || extReg p.rexB rm == 5#4
  | .sib _ _ bs _ => extReg p.rexB bs == 4#4 || extReg p.rexB bs == 5#4
  | .disp32 _ | .sibNoBase _ _ _ => false

/-- A sum of terms cut to the address size and zero-extended (R178 to R180). -/
def AddrSize.cut (a : AddrSize) (v : BitVec 64) : BitVec 64 :=
  match a with
  | .a16 => (v.setWidth 16).setWidth 64
  | .a32 => (v.setWidth 32).setWidth 64
  | .a64 => v

/-- The largest offset of an address size (R151). -/
def AddrSize.top : AddrSize → Nat
  | .a16 => 0xFFFF
  | .a32 => 0xFFFFFFFF
  | .a64 => 2 ^ 64 - 1

/-- The hidden part says code or data segment (S = 1, R127). -/
def Hidden.isCodeOrData (h : Hidden) : Bool := h.access.getLsbD 4

/-- The hidden part of a code segment (R127). -/
def Hidden.isCode (h : Hidden) : Bool := h.isCodeOrData && h.access.getLsbD 3

/-- The hidden part of a data segment (R127). -/
def Hidden.isData (h : Hidden) : Bool := h.isCodeOrData && !h.access.getLsbD 3

/-- W of a data segment, R of a code segment (R127). -/
def Hidden.writableOrReadable (h : Hidden) : Bool := h.access.getLsbD 1

/-- E of a data segment, C of a code segment (R127). -/
def Hidden.expandDownOrConforming (h : Hidden) : Bool := h.access.getLsbD 2

/-- DPL of the loaded descriptor (R127). -/
def Hidden.dpl (h : Hidden) : BitVec 2 := h.access.extractLsb' 5 2

/-- P of the loaded descriptor (R127). -/
def Hidden.present (h : Hidden) : Bool := h.access.getLsbD 7

/-- D/B of the loaded descriptor (R127). -/
def Hidden.big (h : Hidden) : Bool := h.flags.getLsbD 2

end Sys2Proof

namespace Sys2Proof.Machine

/-! ## Effective address -/

/-- The register sum of a 16-bit form (R178). -/
def State.sum16 (s : State) : Base16 → BitVec 16
  | .bxSi => s.x16 3#4 + s.x16 6#4
  | .bxDi => s.x16 3#4 + s.x16 7#4
  | .bpSi => s.x16 5#4 + s.x16 6#4
  | .bpDi => s.x16 5#4 + s.x16 7#4
  | .si => s.x16 6#4
  | .di => s.x16 7#4
  | .bp => s.x16 5#4
  | .bx => s.x16 3#4

/-- The effective address of a 16-bit form (R178). -/
def State.ea16 (s : State) : Mem16 → BitVec 16
  | .abs d => d
  | .based b d => s.sum16 b + d.value

/-- A base or index register at the address size: 64 bits for `ASZ` 64, the low 32 bits otherwise (R179, R180). -/
def State.addrReg (s : State) (a : AddrSize) (i : BitVec 4) : BitVec 64 :=
  match a with
  | .a64 => s.x64 i
  | .a32 | .a16 => (s.x32 i).setWidth 64

/-- The scaled index of a SIB form: 0 when `index4` is 0100 (R179, R180). -/
def State.indexTerm (s : State) (a : AddrSize) (scale : BitVec 2) (i : BitVec 4) : BitVec 64 :=
  if i = 4#4 then 0#64 else s.addrReg a i <<< scale.toNat

/-- The sum of the terms of a 32- or 64-bit form; `next` is the address of the next instruction, for the RIP-relative
form of `Long64` (R179, R180). -/
def State.sum32 (s : State) (p : Pfx) (a : AddrSize) (next : BitVec 64) : Mem32 → BitVec 64
  | .base rm d => s.addrReg a (extReg p.rexB rm) + d.value
  | .disp32 d => if s.mode = .long64 then next + d.signExtend 64 else d.signExtend 64
  | .sib sc ix bs d =>
    s.addrReg a (extReg p.rexB bs) + s.indexTerm a sc (extReg p.rexX ix) + d.value
  | .sibNoBase sc ix d => s.indexTerm a sc (extReg p.rexX ix) + d.signExtend 64

/-- A memory operand: its effective address, the address size, whether the form's default segment is SS, and the
segment-override prefix (R144, R202). -/
structure MemRef where
  ea        : BitVec 64
  asz       : AddrSize
  ssDefault : Bool
  override  : Option Seg
  deriving DecidableEq, Repr

/-- The default segment of the addressing form (R144). -/
def MemRef.dflt (r : MemRef) : Seg := if r.ssDefault then .ss else .ds

/-- The segment of the operand: the override, or the default (R144, R202). -/
def MemRef.seg (r : MemRef) : Seg := r.override.getD r.dflt

/-- The address of the memory operand of an instruction of length `len` (R202); `none` for a register operand. -/
def State.memRef (s : State) (e : Enc) (len : Nat) : Option MemRef :=
  match e.rm with
  | .register _ => none
  | .mem16 m =>
    some { ea := (s.ea16 m).setWidth 64, asz := .a16, ssDefault := m.ssDefault, override := e.pfx.override }
  | .mem32 m =>
    let a := addrSize s.ctx e.pfx
    some { ea := a.cut (s.sum32 e.pfx a (s.pc + BitVec.ofNat 64 len) m), asz := a,
           ssDefault := m.ssDefault e.pfx, override := e.pfx.override }

/-! ## Checks -/

/-- The exception of an operand outside its segment (R148): `#SS` for SS and `#GP` otherwise, with error code 0, or
with none in real-address mode (R257). -/
def State.segmentFault (s : State) (g : Seg) : Fault :=
  let code := if s.mode = .real then none else some 0#16
  if g = .ss then .ss code else .gp code

/-- The limit that offsets in a segment are held to (R148): in virtual-8086 mode 0xFFFF. -/
def State.segLimit (s : State) (g : Seg) : Nat :=
  if s.mode = .v86 then 0xFFFF else (s.seg g).hid.limit.toNat

/-- The segment is an expand-down data segment; in real-address and virtual-8086 mode none is (R148). -/
def State.expandDown (s : State) (g : Seg) : Bool :=
  match s.mode with
  | .real | .v86 => false
  | .prot | .compat | .long64 => (s.seg g).hid.isData && (s.seg g).hid.expandDownOrConforming

/-- The `n` bytes at offset `ea` lie inside the limit of the segment, sums taken without wrap-around (R148). -/
def State.insideLimit (s : State) (g : Seg) (ea n : Nat) : Bool :=
  if s.expandDown g then
    decide (s.segLimit g < ea) && decide (ea + n - 1 ≤ if (s.seg g).hid.big then 0xFFFFFFFF else 0xFFFF)
  else decide (ea + n - 1 ≤ s.segLimit g)

/-- DS, ES, FS or GS holding a NULL selector is used for the operand, in protected or compatibility mode (R147). -/
def State.nullSegment (s : State) (g : Seg) : Bool :=
  (s.mode == .prot || s.mode == .compat) && g != .cs && g != .ss && !(s.seg g).valid

/-- The operand is in CS, and CS holds an execute-only code segment, in protected or compatibility mode (R149). -/
def State.executeOnly (s : State) (g : Seg) : Bool :=
  (s.mode == .prot || s.mode == .compat) && g == .cs && (s.seg g).hid.isCode && !(s.seg g).hid.writableOrReadable

/-- The exception of a non-canonical operand address in `Long64` (R150): `#SS(0)` for a reference to SS, `#GP(0)`
otherwise; either for an explicit SS override on a form whose default is DS. -/
def State.nonCanonicalFault (s : State) (r : MemRef) : Fault :=
  if r.override = some .fs ∨ r.override = some .gs then .gp (some 0#16)
  else if r.ssDefault then .ss (some 0#16)
  else if r.override = some .ss then
    (if Config.ssForOverride s.draws then .ss (some 0#16) else .gp (some 0#16))
  else .gp (some 0#16)

/-- The linear address of the operand's first byte (R145). -/
def State.operandLinear (s : State) (r : MemRef) : BitVec 64 := s.linear r.seg r.ea

/-- The linear addresses of the `n` bytes of the operand, in order (R141, R145). -/
def State.operandBytes (s : State) (r : MemRef) (n : Nat) : List (BitVec 64) :=
  (List.range n).map fun k => s.linear r.seg (r.ea + BitVec.ofNat 64 k)

/-- Steps (1) and (2) of R146: the NULL-segment, limit and type checks outside `Long64` (R147 to R149), the canonical
check of the first and last byte in `Long64` (R150). -/
def State.checkSegment (s : State) (r : MemRef) (n : Nat) : Check Unit :=
  if s.mode = .long64 then
    if s.canonical (s.operandLinear r) && s.canonical (s.operandLinear r + BitVec.ofNat 64 (n - 1)) then .ok ()
    else raise (s.nonCanonicalFault r)
  else if s.nullSegment r.seg then raise (.gp (some 0#16))
  else if !s.insideLimit r.seg r.ea.toNat n then raise (s.segmentFault r.seg)
  else if s.executeOnly r.seg then raise (.gp (some 0#16))
  else .ok ()

/-- The operand runs past the top of the offset range, or, in `Long64`, of the linear range (R151, D4). -/
def State.wraps (s : State) (r : MemRef) (n : Nat) : Bool :=
  decide (r.asz.top < r.ea.toNat + n - 1)
    || (s.mode == .long64 && decide (2 ^ 64 ≤ (s.operandLinear r).toNat + n - 1))

/-- Step (4) of R146: the alignment check and the translation of every byte, in either order when both fail (D20);
then memory with read side effects is refused (R155). The answer is the physical address of each byte. -/
def State.checkAccess (s : State) (r : MemRef) (o : OpSize) (n : Nat) : Check (List (BitVec 64)) :=
  match s.translateAll .read (.level s.cpl) (s.operandBytes r n) with
  | .error e =>
    if s.alignmentDue o (s.operandLinear r) && Config.acBeforePf s.draws then raise (.ac 0#16) else .error e
  | .ok as =>
    if s.alignmentDue o (s.operandLinear r) then raise (.ac 0#16) else s.refuseSideEffect as

/-- `CheckOperand(seg, ea, N)` with `N = OSZ/8 + 2` (R203): the checks of R146 in its order. -/
def State.checkOperand (s : State) (r : MemRef) (o : OpSize) : Check (List (BitVec 64)) := do
  s.checkSegment r (o.bytes + 2)
  if s.wraps r (o.bytes + 2) then refuse .operandWraps
  else s.checkAccess r o (o.bytes + 2)

/-- `off`: the offset, the first `OSZ/8` bytes of the operand (R142, R204). -/
def State.readOffset (s : State) (o : OpSize) (as : List (BitVec 64)) : BitVec 64 :=
  BitVec.ofNat 64 (s.valueAt (as.take o.bytes))

/-- `sel`: the selector, the two bytes above the offset (R142, R204). -/
def State.readSelector (s : State) (o : OpSize) (as : List (BitVec 64)) : BitVec 16 :=
  BitVec.ofNat 16 (s.valueAt (as.drop o.bytes))

end Sys2Proof.Machine
end

