-- ==== Sys2Proof/Machine/Descriptors.lean ====
section
/-! DEFINITION. Selectors (R125, R126), descriptors (R127), and finding, reading and marking a descriptor in the
tables in memory (R157 to R160). -/

namespace Sys2Proof.Machine

/-! ## Selectors -/

/-- `sel.RPL` (R113, R125). -/
def rpl (sel : BitVec 16) : BitVec 2 := sel.extractLsb' 0 2

/-- `sel.TI` (R113, R125). -/
def tableIndicator (sel : BitVec 16) : Bool := sel.getLsbD 2

/-- `sel.index` (R113, R125). -/
def selIndex (sel : BitVec 16) : Nat := (sel.extractLsb' 3 13).toNat

/-- `IsNull(sel)`: the values 0 to 3 (R126). -/
def isNull (sel : BitVec 16) : Bool := sel.extractLsb' 2 14 == 0#14

/-- The `(selector)` error code: the selector with bits 1 and 0 clear (R258). -/
def selectorCode (sel : BitVec 16) : BitVec 16 := sel &&& 0xFFFC#16

/-! ## Descriptors -/

/-- `IsData(D)` (R127). -/
def isData (d : BitVec 64) : Bool := d.getLsbD 44 && !d.getLsbD 43

/-- `IsWritableData(D)` (R127). -/
def isWritableData (d : BitVec 64) : Bool := isData d && d.getLsbD 41

/-- `IsCode(D)` (R127). -/
def isCode (d : BitVec 64) : Bool := d.getLsbD 44 && d.getLsbD 43

/-- `IsReadableCode(D)` (R127). -/
def isReadableCode (d : BitVec 64) : Bool := isCode d && d.getLsbD 41

/-- `IsNonconformingCode(D)` (R127). -/
def isNonconformingCode (d : BitVec 64) : Bool := isCode d && !d.getLsbD 42

/-- `DPL(D)` (R127). -/
def descDpl (d : BitVec 64) : BitVec 2 := d.extractLsb' 45 2

/-- `Present(D)` (R127). -/
def isPresent (d : BitVec 64) : Bool := d.getLsbD 47

/-- The accessed bit of a descriptor (R127, R160). -/
def isAccessed (d : BitVec 64) : Bool := d.getLsbD 40

/-- A descriptor with its accessed bit set (R160). -/
def withAccessed (d : BitVec 64) : BitVec 64 := d ||| 0x0000010000000000#64

/-- The base of a descriptor, zero-extended (R127, R225). -/
def descBase (d : BitVec 64) : BitVec 64 := (d.extractLsb' 56 8 ++ d.extractLsb' 16 24).setWidth 64

/-- The byte-granular limit of a descriptor (R127): the 20-bit limit, or that limit with twelve ones below it when
G = 1. -/
def descLimit (d : BitVec 64) : BitVec 32 :=
  if d.getLsbD 55 then d.extractLsb' 48 4 ++ d.extractLsb' 0 16 ++ 0xFFF#12
  else (d.extractLsb' 48 4 ++ d.extractLsb' 0 16).setWidth 32

/-- Unpacking a descriptor into the hidden part (R124, R127). -/
def unpack (d : BitVec 64) : Hidden :=
  { base := descBase d, limit := descLimit d, access := d.extractLsb' 40 8, flags := d.extractLsb' 52 4 }

/-! ## The tables -/

/-- The base of the table a selector uses, as wide as the mode has it: 32 bits in protected mode, 64 in compatibility
and 64-bit mode (R130, log entry 11). -/
def State.tableBase (s : State) (sel : BitVec 16) : BitVec 64 :=
  if tableIndicator sel then s.ldtr.base else s.gdtr.base

/-- An address of the descriptor tables, cut to 32 bits in protected mode (R130, log entry 11). -/
def State.systemAddr (s : State) (a : BitVec 64) : BitVec 64 :=
  if s.mode = .prot then (a.setWidth 32).setWidth 64 else a

/-- `InTable(sel)`: the table is usable and the whole entry lies within its limit (R130, R157). -/
def State.inTable (s : State) (sel : BitVec 16) : Bool :=
  if tableIndicator sel then s.ldtr.valid && decide (8 * selIndex sel + 7 ≤ s.ldtr.limit.toNat)
  else decide (8 * selIndex sel + 7 ≤ s.gdtr.limit.toNat)

/-- `DescAddr(sel)` (R157). -/
def State.descAddr (s : State) (sel : BitVec 16) : BitVec 64 :=
  s.systemAddr (s.tableBase sel + BitVec.ofNat 64 (8 * selIndex sel))

/-- The linear addresses of the eight bytes of the entry (R141, R157). -/
def State.descBytes (s : State) (sel : BitVec 16) : List (BitVec 64) :=
  (List.range 8).map fun k => s.systemAddr (s.descAddr sel + BitVec.ofNat 64 k)

/-- Both ends of the entry are canonical (R159). -/
def State.descCanonical (s : State) (sel : BitVec 16) : Bool :=
  s.canonical (s.descAddr sel) && s.canonical (s.descAddr sel + 7#64)

/-- `D <- LinRead(DescAddr(sel), 8)`: a system access, translated with supervisor privilege, with no limit and no
alignment check (R157, R158); memory with read side effects is refused (R155). -/
def State.readDescriptor (s : State) (sel : BitVec 16) : Check (BitVec 64) := do
  let as ← s.translateAll .read .supervisor (s.descBytes sel)
  let as ← s.refuseSideEffect as
  return BitVec.ofNat 64 (s.valueAt as)

/-- The physical address of the byte that holds the accessed bit (bit 40, so byte 5), for the read-modify-write of the
entry (R160): a page fault on it is refused (U15). -/
def State.accessedByte (s : State) (sel : BitVec 16) : Check Nat :=
  match s.translateAll .rmw .supervisor (s.descBytes sel) with
  | .error _ => refuse .accessedBitFault
  | .ok as => do
    let as ← s.refuseSideEffect as
    return (as.getD 5 0#64).toNat

end Sys2Proof.Machine
end

