-- ==== Sys2Proof/Machine/SegmentLoad.lean ====
section
/-! DEFINITION. `NewSegment` (R205): what a selector loads into a segment register, by mode (R222 to R228). -/

namespace Sys2Proof.Machine

/-- The answer of `NewSegment`: the new contents of the segment register, the physical address of the descriptor byte
whose accessed bit is to be set (if any), and whether a free hidden part was taken. -/
structure SegLoad where
  reg      : SegReg
  accessed : Option Nat
  drawn    : Bool
  deriving DecidableEq, Repr

/-- The load of a descriptor that passed every test (R223 to R225, R227): selector as read, valid flag 1, the hidden
copy with the accessed bit set, and the accessed-bit update if the bit was 0 and `SET_ACCESSED` (R160). -/
def State.loadDescriptor (s : State) (sel : BitVec 16) (d : BitVec 64) : Check SegLoad :=
  let reg : SegReg := { sel := sel, valid := true, hid := unpack (withAccessed d) }
  if isAccessed d || !s.cfg.setAccessed then .ok { reg := reg, accessed := none, drawn := false }
  else
    match s.accessedByte sel with
    | .error e => .error e
    | .ok a => .ok { reg := reg, accessed := some a, drawn := false }

/-- Real-address and virtual-8086 mode (R222): any selector loads; the base becomes selector times 16 and the rest of
the hidden part and the valid flag stay. -/
def State.newSegmentReal (s : State) (g : Seg) (sel : BitVec 16) : SegLoad :=
  { reg := { sel := sel, valid := (s.seg g).valid,
             hid := { (s.seg g).hid with base := sel.setWidth 64 <<< 4 } }
    accessed := none
    drawn := false }

/-- A NULL selector into DS, ES, FS or GS (R226): the value read, valid flag 0, the rest of the hidden part free. -/
def State.newSegmentNull (s : State) (sel : BitVec 16) : SegLoad :=
  { reg := { sel := sel, valid := false, hid := Config.nullHidden s.draws }, accessed := none, drawn := true }

/-- The stop is a page fault. -/
def Stop.isPageFault : Stop → Bool
  | .fault (.pf _ _) => true
  | .fault .ud | .fault (.gp _) | .fault (.ss _) | .fault (.np _) | .fault (.ac _) | .refuse _ => false

/-- The tests of an SS load after the table-limit test (R223, R227): RPL, then the descriptor: writable data, DPL,
present. When the descriptor read page-faults and `RPL ≠ CPL`, either is reported (R158). -/
def State.loadSs (s : State) (sel : BitVec 16) : Check SegLoad :=
  match s.readDescriptor sel with
  | .error e =>
    if rpl sel != s.cpl && !(e.isPageFault && Config.pfBeforeRpl s.draws) then
      raise (.gp (some (selectorCode sel)))
    else .error e
  | .ok d =>
    if rpl sel != s.cpl || !isWritableData d || descDpl d != s.cpl then raise (.gp (some (selectorCode sel)))
    else if !isPresent d then raise (.ss (some (selectorCode sel)))
    else s.loadDescriptor sel d

/-- SS in protected or compatibility mode (R223). -/
def State.newSegmentSsProt (s : State) (sel : BitVec 16) : Check SegLoad :=
  if isNull sel then raise (.gp (some 0#16))
  else if !s.inTable sel then raise (.gp (some (selectorCode sel)))
  else s.loadSs sel

/-- The privilege test of a data-segment load (R224, C2): data or nonconforming code, and RPL or CPL above DPL. -/
def State.privilegeFails (s : State) (sel : BitVec 16) (d : BitVec 64) : Bool :=
  (isData d || isNonconformingCode d) && (decide (descDpl d < rpl sel) || decide (descDpl d < s.cpl))

/-- The tests of a DS, ES, FS or GS load after the address tests (R224, R225): data or readable code, privilege,
present. -/
def State.loadData (s : State) (sel : BitVec 16) : Check SegLoad :=
  match s.readDescriptor sel with
  | .error e => .error e
  | .ok d =>
    if !(isData d || isReadableCode d) || s.privilegeFails sel d then raise (.gp (some (selectorCode sel)))
    else if !isPresent d then raise (.np (selectorCode sel))
    else s.loadDescriptor sel d

/-- DS, ES, FS or GS with a non-NULL selector in protected or compatibility mode (R224). -/
def State.newSegmentDataProt (s : State) (sel : BitVec 16) : Check SegLoad :=
  if !s.inTable sel then raise (.gp (some (selectorCode sel))) else s.loadData sel

/-- FS or GS with a non-NULL selector in 64-bit mode (R225). -/
def State.newSegmentFsGsLong (s : State) (sel : BitVec 16) : Check SegLoad :=
  if !s.inTable sel then raise (.gp (some (selectorCode sel)))
  else if !s.descCanonical sel then raise (.gp (some (selectorCode sel)))
  else s.loadData sel

/-- SS with a non-NULL selector in 64-bit mode (R227). -/
def State.newSegmentSsLong (s : State) (sel : BitVec 16) : Check SegLoad :=
  if !s.descCanonical sel then raise (.gp (some (selectorCode sel)))
  else if !s.inTable sel then raise (.gp (some (selectorCode sel)))
  else s.loadSs sel

/-- SS with a NULL selector in 64-bit mode (R228): permitted when the RPL is the CPL and that is not 3. -/
def State.newSegmentSsLongNull (s : State) (sel : BitVec 16) : Check SegLoad :=
  if s.cpl == 3#2 || rpl sel != s.cpl then raise (.gp (some 0#16))
  else .ok { reg := { sel := sel, valid := false, hid := Config.nullSsHidden s.draws }, accessed := none, drawn := true }

/-- `NewSegment(SEG, sel)` (R205). In `Long64` a load of DS or ES is never reached (R201 raises `#UD`). -/
def State.newSegment (s : State) (g : Seg) (sel : BitVec 16) : Check SegLoad :=
  match s.mode with
  | .real | .v86 => .ok (s.newSegmentReal g sel)
  | .prot | .compat =>
    if g = .ss then s.newSegmentSsProt sel
    else if isNull sel then .ok (s.newSegmentNull sel)
    else s.newSegmentDataProt sel
  | .long64 =>
    if g = .ss then (if isNull sel then s.newSegmentSsLongNull sel else s.newSegmentSsLong sel)
    else if isNull sel then .ok (s.newSegmentNull sel)
    else s.newSegmentFsGsLong sel

end Sys2Proof.Machine
end

