-- ==== Sys2Proof/WellFormed.lean ====
section
/-! DEFINITION. When an `Instr` is one that some bytes encode, in a given mode and default size: the checks on
prefixes (R175, R184), on the addressing form (R177 to R180) and on the form's operand size (R176, R187). -/

namespace Sys2Proof

/-- The prefixes are admitted: none of the unsettled cases of R184, and REX only in `Long64` (R175). -/
def Pfx.wellFormed (c : Ctx) (p : Pfx) : Bool :=
  (legacyProblem p.legacy).isNone && (p.rex.isNone || c.mode == .long64)

/-- A 16-bit form some `mod` and `r/m` encode: `[BP]` with no displacement has no encoding (R178). -/
def Mem16.wellFormed : Mem16 → Bool
  | .abs _ => true
  | .based b d => !(b == .bp && d == .none)

/-- A 32-bit form some ModRM and SIB encode (R179): `r/m` 100 means SIB, and base 101 needs a displacement. -/
def Mem32.wellFormed : Mem32 → Bool
  | .base rm d => rm != 4#3 && !(rm == 5#3 && d == .none)
  | .disp32 _ => true
  | .sib _ _ bs d => !(bs == 5#3 && d == .none)
  | .sibNoBase _ _ _ => true

/-- The operand is of the address size `ASZ` (R177) and is encodable. -/
def Operand.wellFormed (a : AddrSize) : Operand → Bool
  | .register _ => true
  | .mem16 m => a == .a16 && m.wellFormed
  | .mem32 m => a != .a16 && m.wellFormed

/-- The instruction is the form that its own prefixes select in this mode (R176, R187), and its parts are
encodable. -/
def Instr.wellFormed (c : Ctx) (i : Instr) : Bool :=
  i.enc.pfx.wellFormed c && i.enc.rm.wellFormed (addrSize c i.enc.pfx)
    && i == formOf i.mnem (opSize c i.enc.pfx) i.enc

end Sys2Proof
end

