-- ==== Sys2Proof/Machine/LoadFarPointer.lean ====
section
/-! DEFINITION. `LoadFarPointer(SEG, d, OSZ)` (R200) and, over it, one meaning for each of the thirteen forms (R236 to
R248). -/

namespace Sys2Proof

/-- `d`, the destination register number (R174). -/
def Enc.dest (e : Enc) : BitVec 4 := extReg e.pfx.rexR e.reg

/-- The operand is a register: `mod` = 11 (R173). -/
def Operand.isRegister : Operand → Bool
  | .register _ => true
  | .mem16 _ | .mem32 _ => false

/-- LDS or LES, the two mnemonics with the opcode bytes `C5` and `C4` (R171). -/
def Mnem.isLdsLes : Mnem → Bool
  | .lds | .les => true
  | .lss | .lfs | .lgs => false

end Sys2Proof

namespace Sys2Proof.Machine

/-- The bytes are a vector-instruction prefix on a `VEX_CAPABLE` processor (R190). -/
def State.vexClaims (s : State) (m : Mnem) (e : Enc) : Bool :=
  s.cfg.vexCapable && m.isLdsLes && (s.mode == .long64 || e.rm.isRegister)

/-- `#UD` of R201: a LOCK prefix, a register source, or LDS or LES in `Long64`. -/
def State.undefinedOpcode (s : State) (m : Mnem) (e : Enc) : Bool :=
  e.pfx.hasLock || e.rm.isRegister || (s.mode == .long64 && m.isLdsLes)

/-- `CheckEncoding` (R201), before any memory access. A form that no bytes encode in this mode (R187) has no
meaning. -/
def State.checkEncoding (s : State) (m : Mnem) (o : OpSize) (e : Enc) : Check Unit :=
  if s.vexClaims m e then refuse .vexEncoding
  else if s.undefinedOpcode m e then raise .ud
  else if (formOf m o e).wellFormed s.ctx then .ok ()
  else refuse .notEncodable

/-- The width in bits of the part of `pc` that is used, as its largest offset (R133). -/
def State.codeTop (s : State) : Nat :=
  match s.mode with
  | .long64 => 2 ^ 64 - 1
  | .real | .v86 | .prot | .compat => if s.csD then 0xFFFFFFFF else 0xFFFF

/-- The offset in the code segment that `pc` holds (R133). -/
def State.pcOffset (s : State) : Nat := s.pc.toNat % (s.codeTop + 1)

/-- The accessed bit of one descriptor byte set in memory (R160). -/
def State.markAccessed (s : State) : Option Nat → State
  | none => s
  | some a => { s with mem := s.mem.write a (s.byteAt a ||| 1#8), modifiedCode := a :: s.modifiedCode }

/-- Steps 6 to 8 of R200: the segment register, the accessed bit, the destination at width `OSZ` (R229), `pc` (R235);
the counter of free values advances if one was taken. -/
def State.commit (s : State) (g : Seg) (o : OpSize) (d : BitVec 4) (off : BitVec 64) (n : SegLoad) (len : Nat) : State :=
  { (s.markAccessed n.accessed).setSeg g n.reg with
    regs := s.writeReg o d off
    pc := s.pc + BitVec.ofNat 64 len
    draws := if n.drawn || s.drawsUpper o then s.draws + 1 else s.draws }

/-- Refuse a step whose `pc + L` passes the top of the code segment's offset range (R133, D33). -/
def State.checkNextPc (s : State) (len : Nat) : Check Unit :=
  if s.codeTop < s.pcOffset + len then refuse .pcPastTop else .ok ()

/-- The operand's address, which a register operand does not have (`checkEncoding` has raised `#UD` for it). -/
def State.operandRef (s : State) (m : Mnem) (e : Enc) : Check MemRef :=
  match s.memRef e (e.length m) with
  | some r => .ok r
  | none => raise .ud

/-- `LoadFarPointer(SEG, d, OSZ)`, step by step (R200). -/
def State.loadFarPointer (s : State) (m : Mnem) (o : OpSize) (e : Enc) : Check State := do
  s.checkEncoding m o e
  let ref ← s.operandRef m e
  let as ← s.checkOperand ref o
  let n ← s.newSegment m.seg (s.readSelector o as)
  s.checkNextPc (e.length m)
  return s.commit m.seg o e.dest (s.readOffset o as) n (e.length m)

/-! ## The thirteen forms -/

/-- `LDS r16,m16:16` (R236). -/
def execLds16 (e : Enc) (s : State) : Host.Outcome State Fault Refusal := finish (s.loadFarPointer .lds .w16 e)

/-- `LDS r32,m16:32` (R237). -/
def execLds32 (e : Enc) (s : State) : Host.Outcome State Fault Refusal := finish (s.loadFarPointer .lds .w32 e)

/-- `LSS r16,m16:16` (R238). -/
def execLss16 (e : Enc) (s : State) : Host.Outcome State Fault Refusal := finish (s.loadFarPointer .lss .w16 e)

/-- `LSS r32,m16:32` (R239). -/
def execLss32 (e : Enc) (s : State) : Host.Outcome State Fault Refusal := finish (s.loadFarPointer .lss .w32 e)

/-- `LSS r64,m16:64` (R240). -/
def execLss64 (e : Enc) (s : State) : Host.Outcome State Fault Refusal := finish (s.loadFarPointer .lss .w64 e)

/-- `LES r16,m16:16` (R241). -/
def execLes16 (e : Enc) (s : State) : Host.Outcome State Fault Refusal := finish (s.loadFarPointer .les .w16 e)

/-- `LES r32,m16:32` (R242). -/
def execLes32 (e : Enc) (s : State) : Host.Outcome State Fault Refusal := finish (s.loadFarPointer .les .w32 e)

/-- `LFS r16,m16:16` (R243). -/
def execLfs16 (e : Enc) (s : State) : Host.Outcome State Fault Refusal := finish (s.loadFarPointer .lfs .w16 e)

/-- `LFS r32,m16:32` (R244). -/
def execLfs32 (e : Enc) (s : State) : Host.Outcome State Fault Refusal := finish (s.loadFarPointer .lfs .w32 e)

/-- `LFS r64,m16:64` (R245). -/
def execLfs64 (e : Enc) (s : State) : Host.Outcome State Fault Refusal := finish (s.loadFarPointer .lfs .w64 e)

/-- `LGS r16,m16:16` (R246). -/
def execLgs16 (e : Enc) (s : State) : Host.Outcome State Fault Refusal := finish (s.loadFarPointer .lgs .w16 e)

/-- `LGS r32,m16:32` (R247). -/
def execLgs32 (e : Enc) (s : State) : Host.Outcome State Fault Refusal := finish (s.loadFarPointer .lgs .w32 e)

/-- `LGS r64,m16:64` (R248). -/
def execLgs64 (e : Enc) (s : State) : Host.Outcome State Fault Refusal := finish (s.loadFarPointer .lgs .w64 e)

end Sys2Proof.Machine
end

