-- ==== Sys2Proof/Machine/Dispatch.lean ====
section
/-! DEFINITION. One instruction executed: one arm per constructor of `Instr`, each a direct call of its meaning. -/

namespace Sys2Proof.Machine

def exec (i : Instr) (s : State) : Host.Outcome State Fault Refusal :=
  match i with
  | .lds16 e => Sys2Proof.Machine.execLds16 e s
  | .lds32 e => Sys2Proof.Machine.execLds32 e s
  | .lss16 e => Sys2Proof.Machine.execLss16 e s
  | .lss32 e => Sys2Proof.Machine.execLss32 e s
  | .lss64 e => Sys2Proof.Machine.execLss64 e s
  | .les16 e => Sys2Proof.Machine.execLes16 e s
  | .les32 e => Sys2Proof.Machine.execLes32 e s
  | .lfs16 e => Sys2Proof.Machine.execLfs16 e s
  | .lfs32 e => Sys2Proof.Machine.execLfs32 e s
  | .lfs64 e => Sys2Proof.Machine.execLfs64 e s
  | .lgs16 e => Sys2Proof.Machine.execLgs16 e s
  | .lgs32 e => Sys2Proof.Machine.execLgs32 e s
  | .lgs64 e => Sys2Proof.Machine.execLgs64 e s

end Sys2Proof.Machine
end

