-- ==== Sys2Proof/Machine/Fetch.lean ====
section
/-! DEFINITION. Instruction fetch through CS at `pc` (R133, R163, R282 (d)). -/

namespace Sys2Proof.Machine

/-- The linear address of the code byte at an offset of the code segment: readable through CS, or a refusal (R282 (d)).
Outside `Long64` the offset is held to the CS limit, in `Long64` the address to canonical form. -/
def State.codeLinear (s : State) (o : Nat) : Check (BitVec 64) :=
  if s.codeTop < o then refuse .pcPastTop
  else if s.mode = .long64 then
    (if s.canonical (BitVec.ofNat 64 o) then .ok (s.linear .cs (BitVec.ofNat 64 o)) else refuse .fetchNotReadable)
  else if o ≤ s.segLimit .cs then .ok (s.linear .cs (BitVec.ofNat 64 o))
  else refuse .fetchNotReadable

/-- The physical address of the code byte at an offset of the code segment. -/
def State.codeByte (s : State) (o : Nat) : Check (BitVec 64) :=
  match s.codeLinear o with
  | .error e => .error e
  | .ok la =>
    match s.translate .read (.level s.cpl) la with
    | .error _ => refuse .fetchNotReadable
    | .ok a => if s.hasSideEffect a then refuse .sideEffectMemory else .ok a

/-- The physical addresses of up to `n` code bytes from offset `o` on, and what stopped the fetch before `n`. -/
def State.codeWindow (s : State) : Nat → Nat → List (BitVec 64) × Option Stop
  | 0, _ => ([], none)
  | n + 1, o =>
    match s.codeByte o with
    | .error e => ([], some e)
    | .ok a => (a :: (s.codeWindow n (o + 1)).1, (s.codeWindow n (o + 1)).2)

/-- The addresses of the bytes that may hold the next instruction, at most 15 (R186). -/
def State.fetchWindow (s : State) : List (BitVec 64) × Option Stop := s.codeWindow maxLength s.pcOffset

/-- The bytes of the fetch window (R163). -/
def State.fetchBytes (s : State) : List Byte := s.fetchWindow.1.map fun a => s.byteAt a.toNat

/-- A byte of the instruction of length `len` was written by an accessed-bit update (R163, D23). -/
def State.codeIsModified (s : State) (len : Nat) : Bool :=
  (s.fetchWindow.1.take len).any fun a => s.modifiedCode.contains a.toNat

/-- The end of a step whose bytes run out before the instruction does: what stopped the fetch, or, past 15 bytes,
`#GP(0)` (R186). -/
def State.truncatedFetch (s : State) : Host.Outcome State Fault Refusal :=
  match s.fetchWindow.2 with
  | some (.refuse r) => .refused r
  | some (.fault f) => .fault f
  | none => .fault (.gp (some 0#16))

/-- Store bytes at physical addresses, one for one, and take the addresses out of the written-code record. -/
def State.storeCode (s : State) : List (BitVec 64) → List Byte → State
  | a :: as, b :: bs =>
    State.storeCode
      { s with mem := s.mem.write a.toNat b, modifiedCode := s.modifiedCode.filter (fun x => x != a.toNat) } as bs
  | [], _ => s
  | _ :: _, [] => s

end Sys2Proof.Machine
end

