-- ==== Sys2Proof/Machine/Step.lean ====
section
/-! DEFINITION. One step: fetch through CS at `pc`, decode, execute (R163, R192, R288, R289). -/

namespace Sys2Proof.Machine

/-- One step of the machine. -/
def step (s : State) : Host.Outcome State Fault Refusal :=
  match decode s.ctx s.fetchBytes with
  | .ok i _ => if s.codeIsModified i.length then .refused .modifiedCode else exec i s
  | .truncated => s.truncatedFetch
  | .rejected r => .refused (.undecodable r)

/-- The state with the bytes of an opcode-table word stored where the next step fetches its instruction. -/
def State.withFetchWord (s : State) (nbits w : Nat) : State :=
  s.storeCode s.fetchWindow.1 (tableBytes nbits w)

end Sys2Proof.Machine
end

