-- ==== Sys2Proof/Machine/Run.lean ====
section
/-! DEFINITION. A run over listed instruction bytes placed at a given `pc`, and the three ways it ends (R289). -/

namespace Sys2Proof.Machine

/-- How a run over listed bytes ended, with the state it ended in (R289). -/
inductive RunEnd where
  /-- (a) `pc` reached the offset just past the last listed byte, with no fault: the successful end. -/
  | completed (t : State)
  /-- (b) The first `Fault` outcome, never a successful end; a fault has changed no state (R264). -/
  | faulted (f : Fault) (t : State)
  /-- (c) The first refused step, neither a success nor a fault. -/
  | refused (r : Refusal) (t : State)
  deriving DecidableEq, Repr

/-- At most `n` steps of a run whose listed bytes end just before the code offset `stop` (R289); `none` when it has not
ended by then. The offset is looked at before every step, so a run over no bytes has ended. An instruction that reaches
past the last listed byte steps over `stop`, and the run goes on (log entry 37). -/
def runTo (stop : Nat) : Nat → State → Option RunEnd
  | 0, s => if s.pcOffset = stop then some (.completed s) else none
  | n + 1, s =>
    if s.pcOffset = stop then some (.completed s)
    else
      match step s with
      | .next t => runTo stop n t
      | .fault f => some (.faulted f s)
      | .refused r => some (.refused r s)

/-- The state with `bs` listed at `pc`: `pc` set, and the bytes stored where the code offsets from `pc` on are read
from (R163, R289; log entry 37). -/
def State.placeCode (s : State) (pc : BitVec 64) (bs : List Byte) : State :=
  let s' := { s with pc := pc }
  s'.storeCode (s'.codeWindow bs.length s'.pcOffset).1 bs

/-- The run of at most `n` steps over the instruction bytes `bs` placed at `pc` (R289). -/
def State.runListed (s : State) (pc : BitVec 64) (bs : List Byte) (n : Nat) : Option RunEnd :=
  runTo ((s.placeCode pc bs).pcOffset + bs.length) n (s.placeCode pc bs)

end Sys2Proof.Machine
end

