-- ==== Sys2Proof/Safety.lean ====
section
/-! DEFINITION. The terms claims are stated in: when an instruction can be executed, when its operand and its
descriptor can be read, what a completed load leaves, reachable states, and the invariant of the machine. -/

namespace Sys2Proof.Machine

/-! ## Conditions on a state and an instruction -/

/-- The encoding is one of the group's and raises no `#UD`: it is a form of this mode (R187), with no LOCK prefix
(R183) and a memory operand (R173), and is not LDS or LES in `Long64` (R188). -/
structure Executable (i : Instr) (s : State) : Prop where
  form    : i.wellFormed s.ctx = true
  noLock  : i.enc.pfx.hasLock = false
  memory  : i.enc.rm.isRegister = false
  notLong : ¬(s.mode = .long64 ∧ i.mnem.isLdsLes = true)

/-- The operand at `r` can be read: it passes the segment checks of its mode (R147 to R150), does not wrap (R151),
raises no `#AC` (R153), every byte translates (R152) and none lies in memory whose reads have side effects (R155).
`as` are the physical addresses of its bytes. -/
structure OperandReadable (s : State) (r : MemRef) (o : OpSize) (as : List (BitVec 64)) : Prop where
  canonical   : s.mode = .long64 → s.canonical (s.operandLinear r) = true ∧
                  s.canonical (s.operandLinear r + BitVec.ofNat 64 (o.bytes + 1)) = true
  segmented   : s.mode ≠ .long64 → s.nullSegment r.seg = false ∧
                  s.insideLimit r.seg r.ea.toNat (o.bytes + 2) = true ∧ s.executeOnly r.seg = false
  noWrap      : s.wraps r (o.bytes + 2) = false
  aligned     : s.alignmentDue o (s.operandLinear r) = false
  translated  : s.translateAll .read (.level s.cpl) (s.operandBytes r (o.bytes + 2)) = .ok as
  plainMemory : ∀ a ∈ as, s.hasSideEffect a = false

/-- The descriptor read of a selector gives `d` (R157, R158), from memory with no side effects. -/
def DescriptorRead (s : State) (sel : BitVec 16) (d : BitVec 64) : Prop :=
  ∃ as, s.translateAll .read .supervisor (s.descBytes sel) = .ok as ∧ (∀ a ∈ as, s.hasSideEffect a = false) ∧
    d = BitVec.ofNat 64 (s.valueAt as)

/-- The descriptor byte that a successful load of `d` marks (R160): none when the accessed bit is already 1 or
`SET_ACCESSED` is false, otherwise the physical address of byte 5 of the entry. -/
def AccessedUpdate (s : State) (sel : BitVec 16) (d : BitVec 64) (u : Option Nat) : Prop :=
  if isAccessed d = true ∨ s.cfg.setAccessed = false then u = none
  else ∃ as, s.translateAll .rmw .supervisor (s.descBytes sel) = .ok as ∧ (∀ a ∈ as, s.hasSideEffect a = false) ∧
    u = some (as.getD 5 0#64).toNat

/-- The next instruction's offset stays in the code segment's range (R133). -/
def NextPcInRange (s : State) (len : Nat) : Prop := s.pcOffset + len ≤ s.codeTop

/-- An instruction that reaches the segment load: executable, its operand at `r` readable at the physical addresses
`as`. -/
structure Ready (i : Instr) (s : State) (r : MemRef) (as : List (BitVec 64)) : Prop where
  executable : Executable i s
  address    : s.memRef i.enc i.length = some r
  readable   : OperandReadable s r i.osz as

/-! ## What a completed load leaves -/

/-- The destination register holds the offset, with the upper bits as R122 says: a 16-bit write keeps every higher
bit, a 32-bit write in `Long64` clears bits 63 to 32, and outside `Long64` says nothing of them. -/
def DestWritten (s t : State) (o : OpSize) (d : BitVec 4) (off : BitVec 64) : Prop :=
  match o with
  | .w16 => t.x16 d = off.setWidth 16 ∧ (t.x64 d).extractLsb' 16 48 = (s.x64 d).extractLsb' 16 48
  | .w32 => t.x32 d = off.setWidth 32 ∧ (s.mode = .long64 → t.x64 d = (off.setWidth 32).setWidth 64)
  | .w64 => t.x64 d = off

/-- Memory is as before, but for bit 0 of the byte `u`, which is 1 (R160). -/
def MemoryMarked (s t : State) (u : Option Nat) : Prop :=
  ∀ a, t.byteAt a = if u = some a then s.byteAt a ||| 1#8 else s.byteAt a

/-- The effect of a form: the segment register holds `reg`, the destination the offset read (R229), `pc` is past the
instruction (R235), and memory has at most the accessed bit at `u` set. -/
structure Loaded (i : Instr) (s t : State) (as : List (BitVec 64)) (reg : SegReg) (u : Option Nat) : Prop where
  segment : t.seg i.mnem.seg = reg
  dest    : DestWritten s t i.osz i.enc.dest (s.readOffset i.osz as)
  pc      : t.pc = s.pc + BitVec.ofNat 64 i.length
  memory  : MemoryMarked s t u

/-- Everything but memory, `pc`, one general register, one segment register and the model's own fields is as
before. -/
structure SameElsewhere (s t : State) (d : BitVec 4) (g : Seg) : Prop where
  gprs      : ∀ k, k ≠ d → t.gpr k = s.gpr k
  segs      : ∀ k, k ≠ g → t.seg k = s.seg k
  mode      : t.mode = s.mode
  cpl       : t.cpl = s.cpl
  gdtr      : t.gdtr = s.gdtr
  ldtr      : t.ldtr = s.ldtr
  acEnabled : t.acEnabled = s.acEnabled
  flags     : t.flags = s.flags
  cfg       : t.cfg = s.cfg

/-! ## Runs -/

/-- `t` is reached from `s` by steps that answer a next state. -/
inductive Reaches : State → State → Prop where
  | refl (s : State) : Reaches s s
  | tail {s t u : State} : Reaches s t → step t = .next u → Reaches s u

/-- A safe run of `n` steps: none of them ends in a fault or a refusal. -/
def SafeRun (n : Nat) (s : State) : Prop :=
  match n with
  | 0 => True
  | n + 1 => ∃ t, step s = .next t ∧ SafeRun n t

/-! ## The invariant -/

/-- Segment tests apply: protected, compatibility or 64-bit mode (R129). -/
def State.checksSegments (s : State) : Prop := s.mode = .prot ∨ s.mode = .compat ∨ s.mode = .long64

/-- The mode agrees with the privilege level and the configuration (R128, R129, R282 (a)). -/
structure ModeConsistent (s : State) : Prop where
  realCpl  : s.mode = .real → s.cpl = 0#2
  v86Cpl   : s.mode = .v86 → s.cpl = 3#2
  intel64  : s.mode = .compat ∨ s.mode = .long64 → s.cfg.hasIntel64 = true

/-- A valid SS holds a present writable data segment whose DPL is CPL, under a selector whose RPL is CPL; and outside
64-bit mode it is valid (R129, R147, R223, R227). -/
structure SsConsistent (s : State) : Prop where
  usable : s.checksSegments → s.ss.valid = true →
    s.ss.hid.isData = true ∧ s.ss.hid.writableOrReadable = true ∧ s.ss.hid.present = true ∧
      s.ss.hid.dpl = s.cpl ∧ rpl s.ss.sel = s.cpl
  notNull : s.mode = .prot ∨ s.mode = .compat → s.ss.valid = true

/-- A valid DS, ES, FS or GS holds a present data or readable code segment, whose DPL, unless it is conforming code,
is at least CPL and at least the selector's RPL (R149, R224, R225, R267). -/
def DataSegConsistent (s : State) (g : SegReg) : Prop :=
  s.checksSegments → g.valid = true →
    (g.hid.isData = true ∨ g.hid.isCode = true ∧ g.hid.writableOrReadable = true) ∧ g.hid.present = true ∧
      (g.hid.isData = true ∨ g.hid.isCode = true ∧ g.hid.expandDownOrConforming = false →
        s.cpl ≤ g.hid.dpl ∧ rpl g.sel ≤ g.hid.dpl)

/-- Without `HAS_INTEL64` there are eight registers of 32 bits: what would be the rest is 0 and stays so (R106,
R120). -/
def GprsExist (s : State) : Prop :=
  s.cfg.hasIntel64 = false → ∀ k : BitVec 4, (s.gpr k).upper = 0#32 ∧ (8 ≤ k.toNat → (s.gpr k).lower = 0#32)

/-- The invariant of the machine. -/
structure Inv (s : State) : Prop where
  memory : s.mem.wf = true
  mode   : ModeConsistent s
  ss     : SsConsistent s
  ds     : DataSegConsistent s s.ds
  es     : DataSegConsistent s s.es
  fs     : DataSegConsistent s s.fs
  gs     : DataSegConsistent s s.gs
  gprs   : GprsExist s

end Sys2Proof.Machine
end

