-- ==== Sys2Proof/Certificates/Slice0/Obligations.lean ====
section
/-! DEFINITION. The statements for the provers, from the numbered rules of spec/. -/

open Sys2Proof Sys2Proof.Machine

/-! ## Encoding -/

/-- R192, R170 to R181: six words of 95_test_vectors.md section 3 (V-D01, V-D04, V-D11, V-D13, V-D18, V-D27), written
out as bytes, decode to the instructions they stand for. -/
def Obligations.WordsDecodeAsWritten : Prop :=
  decode { mode := .real, csD := false } [0xC5#8, 0x37#8] =
      .ok (.lds16 { pfx := { legacy := [], rex := none }, reg := 6#3, rm := .mem16 (.based .bx .none) }) [] ∧
  decode { mode := .real, csD := false } [0xC4#8, 0x46#8, 0x08#8] =
      .ok (.les16 { pfx := { legacy := [], rex := none }, reg := 0#3, rm := .mem16 (.based .bp (.d8 8#8)) }) [] ∧
  decode { mode := .prot, csD := true } [0x0F#8, 0xB2#8, 0x25#8, 0x00#8, 0x20#8, 0x00#8, 0x00#8] =
      .ok (.lss32 { pfx := { legacy := [], rex := none }, reg := 4#3, rm := .mem32 (.disp32 0x2000#32) }) [] ∧
  decode { mode := .prot, csD := true } [0x0F#8, 0xB4#8, 0x44#8, 0x8B#8, 0x10#8] =
      .ok (.lfs32 { pfx := { legacy := [], rex := none }, reg := 0#3, rm := .mem32 (.sib 2#2 1#3 3#3 (.d8 0x10#8)) }) [] ∧
  decode { mode := .long64, csD := false } [0x48#8, 0x0F#8, 0xB4#8, 0x03#8] =
      .ok (.lfs64 { pfx := { legacy := [], rex := some { w := true, r := false, x := false, b := false } }, reg := 0#3,
                    rm := .mem32 (.base 3#3 .none) }) [] ∧
  decode { mode := .long64, csD := false } [0x4A#8, 0x0F#8, 0xB5#8, 0x04#8, 0xA0#8] =
      .ok (.lgs64 { pfx := { legacy := [], rex := some { w := true, r := false, x := true, b := false } }, reg := 0#3,
                    rm := .mem32 (.sib 2#2 4#3 0#3 .none) }) []

/-- Decode and encode agree, on every well-formed instruction of every form: no bit of an encoding is dropped
(R170 to R186). -/
def Obligations.DecodeOfEncodeIsTheInstruction : Prop :=
  ∀ (c : Ctx) (i : Instr) (rest : List Byte), i.wellFormed c = true → decode c (encode i ++ rest) = .ok i rest

/-- Encode and decode agree the other way: bytes that decode are the encoding of a well-formed instruction, then the
rest (R170 to R186). -/
def Obligations.EncodeOfDecodeIsTheBytes : Prop :=
  ∀ (c : Ctx) (bs rest : List Byte) (i : Instr), decode c bs = .ok i rest → i.wellFormed c = true ∧ bs = encode i ++ rest

/-- R186: an instruction is as long as its encoding, and the longest the decoder answers has 13 bytes. -/
def Obligations.DecodedLengthIsAtMostThirteen : Prop :=
  ∀ (c : Ctx) (bs rest : List Byte) (i : Instr), decode c bs = .ok i rest →
    bs.length = i.length + rest.length ∧ 2 ≤ i.length ∧ i.length ≤ 13

/-- R187, R175 (C1): the `r64` forms are decoded in `Long64` only, and only with a REX prefix whose W bit is 1. -/
def Obligations.SixtyFourBitFormsNeedRexWInLong64 : Prop :=
  ∀ (c : Ctx) (bs rest : List Byte) (i : Instr), decode c bs = .ok i rest → i.osz = .w64 →
    c.mode = .long64 ∧ ∃ r, i.enc.pfx.rex = some r ∧ r.w = true

/-- R174: the destination is register `REX.R ++ reg` with a REX prefix, which is decoded in `Long64` only, and
`0 ++ reg` without one. -/
def Obligations.DestinationRegisterNumber : Prop :=
  ∀ (c : Ctx) (bs rest : List Byte) (i : Instr), decode c bs = .ok i rest →
    (∀ r, i.enc.pfx.rex = some r → c.mode = .long64 ∧ i.enc.dest = BitVec.ofBool r.r ++ i.enc.reg) ∧
    (i.enc.pfx.rex = none → i.enc.dest = 0#1 ++ i.enc.reg)

/-- R184: after any legacy prefixes the group admits, a repeat prefix is refused; a second `66`, `67` or segment
override is refused whatever follows; and in `Long64` a REX prefix followed by a repeat prefix, by a legacy prefix or
by a second REX prefix is refused. That these are refused is the spec's choice (D24). -/
def Obligations.UnsettledPrefixesAreRefused : Prop :=
  (∀ (c : Ctx) (ps : List LegacyPfx) (b : Byte) (rest : List Byte), legacyProblem ps = none → isRepeat b = true →
    decode c (ps.map LegacyPfx.byte ++ b :: rest) = .rejected .repeatPfx) ∧
  (∀ (c : Ctx) (ps : List LegacyPfx) (rest : List Byte),
    (1 < ps.count .opSize ∨ 1 < ps.count .addrSize ∨ 1 < ps.countP LegacyPfx.isSeg) →
    ∃ x, decode c (ps.map LegacyPfx.byte ++ rest) = .rejected x) ∧
  (∀ (c : Ctx) (ps : List LegacyPfx) (r : Rex) (p : LegacyPfx) (rest : List Byte), c.mode = .long64 →
    legacyProblem ps = none →
    decode c (ps.map LegacyPfx.byte ++ r.byte :: p.byte :: rest) = .rejected .misplacedRex) ∧
  (∀ (c : Ctx) (ps : List LegacyPfx) (r : Rex) (b : Byte) (rest : List Byte), c.mode = .long64 →
    legacyProblem ps = none → isRepeat b = true →
    decode c (ps.map LegacyPfx.byte ++ r.byte :: b :: rest) = .rejected .repeatPfx) ∧
  (∀ (c : Ctx) (ps : List LegacyPfx) (r r' : Rex) (rest : List Byte), c.mode = .long64 → legacyProblem ps = none →
    decode c (ps.map LegacyPfx.byte ++ r.byte :: r'.byte :: rest) = .rejected .misplacedRex)

/-- R176: the operand size, row by row of the table. -/
def Obligations.OperandSizeTable : Prop :=
  ∀ (c : Ctx) (p : Pfx),
    ((c.mode = .real ∨ c.mode = .v86) → opSize c p = if p.has66 then .w32 else .w16) ∧
    ((c.mode = .prot ∨ c.mode = .compat) → c.csD = false → opSize c p = if p.has66 then .w32 else .w16) ∧
    ((c.mode = .prot ∨ c.mode = .compat) → c.csD = true → opSize c p = if p.has66 then .w16 else .w32) ∧
    (c.mode = .long64 → p.rexW = true → opSize c p = .w64) ∧
    (c.mode = .long64 → p.rexW = false → opSize c p = if p.has66 then .w16 else .w32)

/-- R177: the address size, row by row of the table. -/
def Obligations.AddressSizeTable : Prop :=
  ∀ (c : Ctx) (p : Pfx),
    ((c.mode = .real ∨ c.mode = .v86) → addrSize c p = if p.has67 then .a32 else .a16) ∧
    ((c.mode = .prot ∨ c.mode = .compat) → c.csD = false → addrSize c p = if p.has67 then .a32 else .a16) ∧
    ((c.mode = .prot ∨ c.mode = .compat) → c.csD = true → addrSize c p = if p.has67 then .a16 else .a32) ∧
    (c.mode = .long64 → addrSize c p = if p.has67 then .a32 else .a64)

/-! ## The step -/

/-- R163, R288: a step executes the instruction that the bytes at `pc` decode to, and adds nothing around it; a byte
written by an accessed-bit update is refused, and so are bytes outside the group (the spec's choices, D23 and D37). -/
def Obligations.StepExecutesDecodedInstruction : Prop :=
  ∀ (s : State),
    (∀ i rest, decode s.ctx s.fetchBytes = .ok i rest → s.codeIsModified i.length = false → step s = exec i s) ∧
    (∀ i rest, decode s.ctx s.fetchBytes = .ok i rest → s.codeIsModified i.length = true →
      step s = .refused .modifiedCode) ∧
    (∀ x, decode s.ctx s.fetchBytes = .rejected x → step s = .refused (.undecodable x))

/-- R163, R170: when the bytes at `pc` begin with the encoding of a well-formed instruction, the step executes it. -/
def Obligations.StepRunsTheEncodedInstruction : Prop :=
  ∀ (s : State) (i : Instr) (rest : List Byte), i.wellFormed s.ctx = true → s.fetchBytes = encode i ++ rest →
    s.codeIsModified i.length = false → step s = exec i s

/-- R163, R133, R145: in real-address mode with a 16-bit code segment the fetched bytes are those of memory at CS base
plus the low 16 bits of `pc`, as long as the offset is inside the CS limit. -/
def Obligations.RealModeFetchReadsThroughCs : Prop :=
  ∀ (s : State) (k : Nat), s.mode = .real → s.csD = false → s.cfg.sideEffect = [] → k < 15 →
    s.pc.toNat % 65536 + k ≤ 0xFFFF → s.pc.toNat % 65536 + k ≤ s.cs.hid.limit.toNat →
    s.fetchBytes[k]? = some (s.byteAt ((s.cs.hid.base.toNat + s.pc.toNat % 65536 + k) % 2 ^ 32))

/-- R186, R289: a step ends in a fault only by an instruction's own exception: the 15-byte limit is never reached.
That the fetch of instruction bytes raises no exception is the model's choice (log entry 21): a byte that cannot be
read ends the fetch, and an instruction that needs it is refused. -/
def Obligations.StepFaultsOnlyByExec : Prop :=
  ∀ (s : State) (f : Fault), step s = .fault f → ∃ i rest, decode s.ctx s.fetchBytes = .ok i rest ∧ exec i s = .fault f

/-! ## The encoding check -/

/-- R201, R183, R173, R188: a LOCK prefix, a register source, or LDS or LES in `Long64` raises `#UD` in every state,
whatever memory holds, save for the bytes that a `VEX_CAPABLE` processor reads otherwise (R190; log entry 16). That it
comes before every memory access is the spec's reading (D36). -/
def Obligations.BadEncodingRaisesUd : Prop :=
  ∀ (i : Instr) (s : State),
    ¬(s.cfg.vexCapable = true ∧ i.mnem.isLdsLes = true ∧ (s.mode = .long64 ∨ i.enc.rm.isRegister = true)) →
    (i.enc.pfx.hasLock = true ∨ i.enc.rm.isRegister = true ∨ (s.mode = .long64 ∧ (i.mnem = .lds ∨ i.mnem = .les))) →
    exec i s = .fault .ud

/-- R190: on a `VEX_CAPABLE` processor LDS and LES are refused in `Long64`, and with `mod` = 11 in every mode; on
another processor, for LSS, LFS and LGS, and for LDS and LES with a memory operand outside `Long64`, nothing is
refused for that reason. The refusal is the spec's choice (D25); that it comes before the `#UD` of a LOCK prefix is
the model's reading (log entry 16). -/
def Obligations.VexCapableRefusesLdsLes : Prop :=
  ∀ (i : Instr) (s : State),
    (s.cfg.vexCapable = true → i.mnem = .lds ∨ i.mnem = .les → (s.mode = .long64 ∨ i.enc.rm.isRegister = true) →
      exec i s = .refused .vexEncoding) ∧
    ((s.cfg.vexCapable = false ∨ (i.mnem ≠ .lds ∧ i.mnem ≠ .les)) → exec i s ≠ .refused .vexEncoding) ∧
    (s.mode ≠ .long64 → i.enc.rm.isRegister = false → exec i s ≠ .refused .vexEncoding)

/-! ## The operand -/

/-- R178: the forms at `ASZ` 16, row by row of the table: which form `mod` and `r/m` name, with the displacement bytes
after ModRM (`disp16` least significant byte first), and each form's effective address and default segment. -/
def Obligations.SixteenBitAddressTable : Prop :=
  ∀ (s : State) (p : Pfx) (reg : BitVec 3) (len : Nat) (d : Disp16) (v : BitVec 16),
    (d = .none ∧ v = 0#16 ∨ (∃ x, d = .d8 x ∧ v = x.signExtend 16) ∨ d = .d16 v) →
    let ref (b : Base16) (sum : BitVec 16) (ss : Bool) : Prop :=
      s.memRef { pfx := p, reg := reg, rm := .mem16 (.based b d) } len =
        some { ea := (sum + v).setWidth 64, asz := .a16, ssDefault := ss, override := p.override }
    ref .bxSi (s.x16 3#4 + s.x16 6#4) false ∧ ref .bxDi (s.x16 3#4 + s.x16 7#4) false ∧
    ref .bpSi (s.x16 5#4 + s.x16 6#4) true ∧ ref .bpDi (s.x16 5#4 + s.x16 7#4) true ∧
    ref .si (s.x16 6#4) false ∧ ref .di (s.x16 7#4) false ∧ ref .bp (s.x16 5#4) true ∧ ref .bx (s.x16 3#4) false ∧
    s.memRef { pfx := p, reg := reg, rm := .mem16 (.abs v) } len =
      some { ea := v.setWidth 64, asz := .a16, ssDefault := false, override := p.override } ∧
    (∀ (rm : BitVec 3) (b0 b1 : Byte) (bs : List Byte),
      (rm ≠ 6#3 → takeOperand .a16 0#2 rm bs = some (.mem16 (.based (base16Of rm) .none), bs)) ∧
      takeOperand .a16 0#2 6#3 (b0 :: b1 :: bs) = some (.mem16 (.abs (b1 ++ b0)), bs) ∧
      takeOperand .a16 1#2 rm (b0 :: bs) = some (.mem16 (.based (base16Of rm) (.d8 b0)), bs) ∧
      takeOperand .a16 2#2 rm (b0 :: b1 :: bs) = some (.mem16 (.based (base16Of rm) (.d16 (b1 ++ b0))), bs)) ∧
    base16Of 0#3 = .bxSi ∧ base16Of 1#3 = .bxDi ∧ base16Of 2#3 = .bpSi ∧ base16Of 3#3 = .bpDi ∧
    base16Of 4#3 = .si ∧ base16Of 5#3 = .di ∧ base16Of 6#3 = .bp ∧ base16Of 7#3 = .bx

/-- R179: the forms at `ASZ` 32: which form `mod`, `r/m` and a SIB byte (scale, index, base from its high bits down)
name, with the displacement bytes after them; and, outside `Long64`, each form's effective address, the sum of the
32-bit terms modulo 2^32, and default segment, SS exactly when the base register is number 4 or 5. -/
def Obligations.ThirtyTwoBitAddressForms : Prop :=
  ∀ (s : State) (p : Pfx) (reg : BitVec 3) (len : Nat) (d : Disp32) (v : BitVec 32),
    s.mode ≠ .long64 → p.rex = none → addrSize s.ctx p = .a32 →
    (d = .none ∧ v = 0#32 ∨ (∃ x, d = .d8 x ∧ v = x.signExtend 32) ∨ d = .d32 v) →
    let ref (m : Mem32) (ea : BitVec 32) (ss : Bool) : Prop :=
      s.memRef { pfx := p, reg := reg, rm := .mem32 m } len =
        some { ea := ea.setWidth 64, asz := .a32, ssDefault := ss, override := p.override }
    (∀ rm : BitVec 3, ref (.base rm d) (s.x32 (rm.setWidth 4) + v) (rm == 4#3 || rm == 5#3)) ∧
    ref (.disp32 v) v false ∧
    (∀ (sc : BitVec 2) (ix b : BitVec 3), ix ≠ 4#3 →
      ref (.sib sc ix b d) (s.x32 (b.setWidth 4) + s.x32 (ix.setWidth 4) * (1#32 <<< sc.toNat) + v)
        (b == 4#3 || b == 5#3) ∧
      ref (.sibNoBase sc ix v) (s.x32 (ix.setWidth 4) * (1#32 <<< sc.toNat) + v) false) ∧
    (∀ (sc : BitVec 2) (b : BitVec 3), ref (.sib sc 4#3 b d) (s.x32 (b.setWidth 4) + v) (b == 4#3 || b == 5#3)) ∧
    (∀ sc : BitVec 2, ref (.sibNoBase sc 4#3 v) v false) ∧
    (∀ (rm : BitVec 3) (b0 b1 b2 b3 : Byte) (bs : List Byte),
      (rm ≠ 4#3 → rm ≠ 5#3 → takeOperand .a32 0#2 rm bs = some (.mem32 (.base rm .none), bs)) ∧
      takeOperand .a32 0#2 5#3 (b0 :: b1 :: b2 :: b3 :: bs) = some (.mem32 (.disp32 (b3 ++ b2 ++ b1 ++ b0)), bs) ∧
      (rm ≠ 4#3 → takeOperand .a32 1#2 rm (b0 :: bs) = some (.mem32 (.base rm (.d8 b0)), bs)) ∧
      (rm ≠ 4#3 → takeOperand .a32 2#2 rm (b0 :: b1 :: b2 :: b3 :: bs) =
        some (.mem32 (.base rm (.d32 (b3 ++ b2 ++ b1 ++ b0))), bs))) ∧
    (∀ (sc : BitVec 2) (ix b : BitVec 3) (b0 b1 b2 b3 : Byte) (bs : List Byte),
      (b ≠ 5#3 → takeOperand .a32 0#2 4#3 ((sc ++ ix ++ b) :: bs) = some (.mem32 (.sib sc ix b .none), bs)) ∧
      takeOperand .a32 0#2 4#3 ((sc ++ ix ++ 5#3) :: b0 :: b1 :: b2 :: b3 :: bs) =
        some (.mem32 (.sibNoBase sc ix (b3 ++ b2 ++ b1 ++ b0)), bs) ∧
      takeOperand .a32 1#2 4#3 ((sc ++ ix ++ b) :: b0 :: bs) = some (.mem32 (.sib sc ix b (.d8 b0)), bs) ∧
      takeOperand .a32 2#2 4#3 ((sc ++ ix ++ b) :: b0 :: b1 :: b2 :: b3 :: bs) =
        some (.mem32 (.sib sc ix b (.d32 (b3 ++ b2 ++ b1 ++ b0))), bs))

/-- R180: in `Long64`, base and index numbers take the REX bits (0 with no REX prefix), `index4` = 0100 is no index,
the displacement is sign-extended, `mod` 00 with `r/m` 101 is relative to the next instruction, and only base registers
4 and 5 give SS; with the prefix `67` the registers are the low 32 bits and the sum is cut to 32 bits. The bytes name
the same forms as at `ASZ` 32, whatever the REX bits; `ASZ` is never 16. -/
def Obligations.LongModeAddressForms : Prop :=
  ∀ (s : State) (p : Pfx) (x : Rex) (reg : BitVec 3) (len : Nat) (d : Disp32) (v : BitVec 64) (w : BitVec 32),
    s.mode = .long64 →
    (p.rex = some x ∨ p.rex = none ∧ x = { w := false, r := false, x := false, b := false }) →
    (d = .none ∧ v = 0#64 ∨ (∃ y, d = .d8 y ∧ v = y.signExtend 64) ∨ (∃ y, d = .d32 y ∧ v = y.signExtend 64)) →
    let reg64 (n : BitVec 4) : BitVec 64 := if p.has67 then (s.x32 n).setWidth 64 else s.x64 n
    let ref (m : Mem32) (sum : BitVec 64) (ss : Bool) : Prop :=
      s.memRef { pfx := p, reg := reg, rm := .mem32 m } len =
        some { ea := if p.has67 then (sum.setWidth 32).setWidth 64 else sum
               asz := if p.has67 then .a32 else .a64
               ssDefault := ss
               override := p.override }
    let base4 (n : BitVec 3) : BitVec 4 := BitVec.ofBool x.b ++ n
    let index4 (n : BitVec 3) : BitVec 4 := BitVec.ofBool x.x ++ n
    (∀ rm, ref (.base rm d) (reg64 (base4 rm) + v) (base4 rm == 4#4 || base4 rm == 5#4)) ∧
    ref (.disp32 w) (s.pc + BitVec.ofNat 64 len + w.signExtend 64) false ∧
    (∀ sc ix b, index4 ix ≠ 4#4 →
      ref (.sib sc ix b d) (reg64 (base4 b) + reg64 (index4 ix) * (1#64 <<< sc.toNat) + v)
        (base4 b == 4#4 || base4 b == 5#4) ∧
      ref (.sibNoBase sc ix w) (reg64 (index4 ix) * (1#64 <<< sc.toNat) + w.signExtend 64) false) ∧
    (∀ sc ix b, index4 ix = 4#4 →
      ref (.sib sc ix b d) (reg64 (base4 b) + v) (base4 b == 4#4 || base4 b == 5#4) ∧
      ref (.sibNoBase sc ix w) (w.signExtend 64) false) ∧
    addrSize s.ctx p ≠ .a16 ∧
    (∀ (md : BitVec 2) (rm : BitVec 3) (bs : List Byte), takeOperand .a64 md rm bs = takeOperand .a32 md rm bs)

/-- R147, R251: in protected and compatibility mode an operand addressed through DS, ES, FS or GS holding a NULL
selector raises `#GP(0)`. -/
def Obligations.NullSegmentOperandRaisesGp : Prop :=
  ∀ (i : Instr) (s : State) (r : MemRef), Executable i s → s.memRef i.enc i.length = some r →
    (s.mode = .prot ∨ s.mode = .compat) → (r.seg = .ds ∨ r.seg = .es ∨ r.seg = .fs ∨ r.seg = .gs) →
    (s.seg r.seg).valid = false → exec i s = .fault (.gp (some 0#16))

/-- R148, R257: outside `Long64`, an operand with a byte outside the segment limit raises `#GP`, or `#SS` for SS, with
error code 0, or with none in real-address mode. Outside means past the limit, or, for an expand-down data segment in
protected or compatibility mode, at or below it or past the upper bound; in virtual-8086 mode the limit is 0xFFFF. The
meaning of 'outside' is the spec's choice (D35). -/
def Obligations.OperandOutsideLimitFaults : Prop :=
  ∀ (i : Instr) (s : State) (r : MemRef), Executable i s → s.memRef i.enc i.length = some r → s.mode ≠ .long64 →
    s.nullSegment r.seg = false →
    let last := r.ea.toNat + i.osz.bytes + 1
    let lim := (s.seg r.seg).hid.limit.toNat
    let down := (s.mode = .prot ∨ s.mode = .compat) ∧ (s.seg r.seg).hid.isData = true ∧
      (s.seg r.seg).hid.expandDownOrConforming = true
    ((s.mode = .v86 ∧ 0xFFFF < last) ∨ (s.mode ≠ .v86 ∧ ¬down ∧ lim < last) ∨
      (down ∧ (r.ea.toNat ≤ lim ∨ (if (s.seg r.seg).hid.big then 0xFFFFFFFF else 0xFFFF) < last))) →
    exec i s = .fault
      (if r.seg = .ss then .ss (if s.mode = .real then none else some 0#16)
       else .gp (if s.mode = .real then none else some 0#16))

/-- R149, R148: in protected and compatibility mode an operand in CS, inside the limit or not, raises `#GP(0)` when CS
holds an execute-only code segment. -/
def Obligations.ExecuteOnlyCsRaisesGp : Prop :=
  ∀ (i : Instr) (s : State) (r : MemRef), Executable i s → s.memRef i.enc i.length = some r →
    (s.mode = .prot ∨ s.mode = .compat) → r.seg = .cs → s.cs.hid.isCode = true →
    s.cs.hid.writableOrReadable = false → exec i s = .fault (.gp (some 0#16))

/-- R150: in `Long64` an operand whose first or last byte is non-canonical raises `#SS(0)` when the default segment is
SS and there is no FS or GS override, and `#GP(0)` when there is one or when the default is DS and there is no SS
override; with an explicit SS override on a DS-default form it raises one of the two. What tells the two apart is the
spec's choice (D31). -/
def Obligations.NonCanonicalOperandFaults : Prop :=
  ∀ (i : Instr) (s : State) (r : MemRef), Executable i s → s.memRef i.enc i.length = some r → s.mode = .long64 →
    (s.canonical (s.linear r.seg r.ea) = false ∨
      s.canonical (s.linear r.seg r.ea + BitVec.ofNat 64 (i.osz.bytes + 1)) = false) →
    ((r.override = some .fs ∨ r.override = some .gs) → exec i s = .fault (.gp (some 0#16))) ∧
    (r.override ≠ some .fs → r.override ≠ some .gs → r.ssDefault = true → exec i s = .fault (.ss (some 0#16))) ∧
    (r.override ≠ some .fs → r.override ≠ some .gs → r.override ≠ some .ss → r.ssDefault = false →
      exec i s = .fault (.gp (some 0#16))) ∧
    (r.override = some .ss → r.ssDefault = false →
      exec i s = .fault (.gp (some 0#16)) ∨ exec i s = .fault (.ss (some 0#16)))

/-- R151: an operand that passes the segment checks and runs past the largest offset of the address size, or, in
`Long64`, past the top of the linear range, has no meaning: the spec's choice (D4, U9). -/
def Obligations.WrappingOperandIsRefused : Prop :=
  ∀ (i : Instr) (s : State) (r : MemRef), Executable i s → s.memRef i.enc i.length = some r →
    s.checkSegment r (i.osz.bytes + 2) = .ok () →
    (r.ea.toNat + i.osz.bytes + 1 > (match r.asz with | .a16 => 0xFFFF | .a32 => 0xFFFFFFFF | .a64 => 2 ^ 64 - 1) ∨
      (s.mode = .long64 ∧ (s.linear r.seg r.ea).toNat + i.osz.bytes + 1 > 2 ^ 64 - 1)) →
    exec i s = .refused .operandWraps

/-- R152, R153, R146: for an operand that passed segmentation. An unaligned operand at privilege level 3 with checking
enabled raises `#AC(0)`, in every mode but real-address mode; a page fault on any byte raises `#PF` with its code and
address; when both apply one of the two is raised. The order of the checks and the boundaries 2 and 4 are the spec's
choice (D20, D26). -/
def Obligations.AlignmentAndPageFaults : Prop :=
  ∀ (i : Instr) (s : State) (r : MemRef), Executable i s → s.memRef i.enc i.length = some r →
    s.checkSegment r (i.osz.bytes + 2) = .ok () → s.wraps r (i.osz.bytes + 2) = false →
    let bound := match i.osz with | .w16 => 2 | .w32 => 4 | .w64 => s.cfg.acBoundary64
    let unaligned := s.mode ≠ .real ∧ s.acEnabled = true ∧ s.cpl = 3#2 ∧ (s.linear r.seg r.ea).toNat % bound ≠ 0
    let access := s.translateAll .read (.level s.cpl) (s.operandBytes r (i.osz.bytes + 2))
    (∀ as, unaligned → access = .ok as → exec i s = .fault (.ac 0#16)) ∧
    (∀ code la, ¬unaligned → (s.mode = .v86 → s.cpl = 3#2) → access = .error (.fault (.pf code la)) →
      exec i s = .fault (.pf code la)) ∧
    (∀ code la, unaligned → access = .error (.fault (.pf code la)) →
      exec i s = .fault (.ac 0#16) ∨ exec i s = .fault (.pf code la))

/-! ## The segment load -/

/-- R222: in real-address and virtual-8086 mode every form completes with any selector whatever, NULL included: the
segment register's selector is the value read, its base 16 times that, its limit, attributes and valid flag as they
were; no memory is written, and every other register, the flags and the system registers are as before. What the
hidden part becomes is the spec's choice (D14). (The `r64` forms are not encodable in these modes; the ten others are
LDS, LES, LSS, LFS and LGS r16 and r32.) -/
def Obligations.RealAndV86LoadCompletes : Prop :=
  ∀ (i : Instr) (s : State) (r : MemRef) (as : List (BitVec 64)), Ready i s r as → NextPcInRange s i.length →
    (s.mode = .real ∨ s.mode = .v86) →
    ∃ t, exec i s = .next t ∧
      Loaded i s t as
        { sel := s.readSelector i.osz as
          valid := (s.seg i.mnem.seg).valid
          hid := { base := BitVec.ofNat 64 (16 * (s.readSelector i.osz as).toNat)
                   limit := (s.seg i.mnem.seg).hid.limit
                   access := (s.seg i.mnem.seg).hid.access
                   flags := (s.seg i.mnem.seg).hid.flags } } none ∧
      SameElsewhere s t i.enc.dest i.mnem.seg

/-- R226: a NULL selector loads into DS, ES, FS or GS in protected and compatibility mode, and into FS or GS in
`Long64`, without a test: the selector is the value read (the spec's choice, D9), the valid flag 0, the rest of the
hidden part is free (D10), no memory is written. -/
def Obligations.NullDataSelectorLoads : Prop :=
  ∀ (i : Instr) (s : State) (r : MemRef) (as : List (BitVec 64)), Ready i s r as → NextPcInRange s i.length →
    s.checksSegments → i.mnem ≠ .lss → (s.readSelector i.osz as).toNat ≤ 3 →
    ∃ t h, exec i s = .next t ∧ Loaded i s t as { sel := s.readSelector i.osz as, valid := false, hid := h } none

/-- R223: loading SS in protected or compatibility mode, test by test. That a descriptor that is no data segment raises
`#GP(selector)`, that the valid flag becomes 1, and the accessed bit, are the spec's choices (D12, D13, D15). -/
def Obligations.ProtectedSsLoad : Prop :=
  ∀ (i : Instr) (s : State) (r : MemRef) (as : List (BitVec 64)), Ready i s r as → s.mem.wf = true →
    (s.mode = .prot ∨ s.mode = .compat) → i.mnem = .lss →
    let sel := s.readSelector i.osz as
    let gpSel := (Host.Outcome.fault (.gp (some (sel &&& 0xFFFC#16))) : Host.Outcome State Fault Refusal)
    let access := s.translateAll .read .supervisor (s.descBytes sel)
    (sel.toNat ≤ 3 → exec i s = .fault (.gp (some 0#16))) ∧
    (3 < sel.toNat → s.inTable sel = false → exec i s = gpSel) ∧
    (3 < sel.toNat → s.inTable sel = true →
      (∀ code la, access = .error (.fault (.pf code la)) →
        (rpl sel = s.cpl → exec i s = .fault (.pf code la)) ∧
        (rpl sel ≠ s.cpl → exec i s = gpSel ∨ exec i s = .fault (.pf code la))) ∧
      (∀ d, DescriptorRead s sel d →
        ((rpl sel ≠ s.cpl ∨ isWritableData d = false ∨ descDpl d ≠ s.cpl) → exec i s = gpSel) ∧
        (rpl sel = s.cpl → isWritableData d = true → descDpl d = s.cpl →
          (isPresent d = false → exec i s = .fault (.ss (some (sel &&& 0xFFFC#16)))) ∧
          (isPresent d = true → ∀ u, AccessedUpdate s sel d u → NextPcInRange s i.length →
            ∃ t, exec i s = .next t ∧
              Loaded i s t as { sel := sel, valid := true, hid := unpack (withAccessed d) } u))))

/-- R224: loading DS, ES, FS or GS with a non-NULL selector in protected or compatibility mode, test by test. The valid
flag and the accessed bit are the spec's choices (D13, D15). -/
def Obligations.ProtectedDataSegmentLoad : Prop :=
  ∀ (i : Instr) (s : State) (r : MemRef) (as : List (BitVec 64)), Ready i s r as → s.mem.wf = true →
    (s.mode = .prot ∨ s.mode = .compat) → i.mnem ≠ .lss → 3 < (s.readSelector i.osz as).toNat →
    let sel := s.readSelector i.osz as
    let gpSel := (Host.Outcome.fault (.gp (some (sel &&& 0xFFFC#16))) : Host.Outcome State Fault Refusal)
    (s.inTable sel = false → exec i s = gpSel) ∧
    (s.inTable sel = true →
      (∀ code la, s.translateAll .read .supervisor (s.descBytes sel) = .error (.fault (.pf code la)) →
        exec i s = .fault (.pf code la)) ∧
      (∀ d, DescriptorRead s sel d →
        let typeOk := isData d = true ∨ isReadableCode d = true
        let privilegeOk := isData d = true ∨ isNonconformingCode d = true → rpl sel ≤ descDpl d ∧ s.cpl ≤ descDpl d
        (¬typeOk ∨ ¬privilegeOk → exec i s = gpSel) ∧
        (typeOk → privilegeOk →
          (isPresent d = false → exec i s = .fault (.np (sel &&& 0xFFFC#16))) ∧
          (isPresent d = true → ∀ u, AccessedUpdate s sel d u → NextPcInRange s i.length →
            ∃ t, exec i s = .next t ∧
              Loaded i s t as { sel := sel, valid := true, hid := unpack (withAccessed d) } u))))

/-- R225: loading FS or GS with a non-NULL selector in 64-bit mode, test by test (LFS and LGS, `r64` forms among
them). The valid flag, the accessed bit and the 64-bit base are the spec's choices (D13, D15, D30). -/
def Obligations.Long64FsGsLoad : Prop :=
  ∀ (i : Instr) (s : State) (r : MemRef) (as : List (BitVec 64)), Ready i s r as → s.mem.wf = true →
    s.mode = .long64 → (i.mnem = .lfs ∨ i.mnem = .lgs) → 3 < (s.readSelector i.osz as).toNat →
    let sel := s.readSelector i.osz as
    let gpSel := (Host.Outcome.fault (.gp (some (sel &&& 0xFFFC#16))) : Host.Outcome State Fault Refusal)
    let canonicalEntry := s.canonical (s.descAddr sel) = true ∧ s.canonical (s.descAddr sel + 7#64) = true
    (s.inTable sel = false ∨ ¬canonicalEntry → exec i s = gpSel) ∧
    (s.inTable sel = true → canonicalEntry →
      (∀ code la, s.translateAll .read .supervisor (s.descBytes sel) = .error (.fault (.pf code la)) →
        exec i s = .fault (.pf code la)) ∧
      (∀ d, DescriptorRead s sel d →
        let typeOk := isData d = true ∨ isReadableCode d = true
        let privilegeOk := isData d = true ∨ isNonconformingCode d = true → rpl sel ≤ descDpl d ∧ s.cpl ≤ descDpl d
        (¬typeOk ∨ ¬privilegeOk → exec i s = gpSel) ∧
        (typeOk → privilegeOk →
          (isPresent d = false → exec i s = .fault (.np (sel &&& 0xFFFC#16))) ∧
          (isPresent d = true → ∀ u, AccessedUpdate s sel d u → NextPcInRange s i.length →
            ∃ t, exec i s = .next t ∧
              Loaded i s t as { sel := sel, valid := true, hid := unpack (withAccessed d) } u))))

/-- R227: loading SS with a non-NULL selector in 64-bit mode, test by test (LSS, its `r64` form among them). The choices
of R223 apply (D12, D13, D15). -/
def Obligations.Long64SsLoad : Prop :=
  ∀ (i : Instr) (s : State) (r : MemRef) (as : List (BitVec 64)), Ready i s r as → s.mem.wf = true →
    s.mode = .long64 → i.mnem = .lss → 3 < (s.readSelector i.osz as).toNat →
    let sel := s.readSelector i.osz as
    let gpSel := (Host.Outcome.fault (.gp (some (sel &&& 0xFFFC#16))) : Host.Outcome State Fault Refusal)
    let canonicalEntry := s.canonical (s.descAddr sel) = true ∧ s.canonical (s.descAddr sel + 7#64) = true
    (s.inTable sel = false ∨ ¬canonicalEntry → exec i s = gpSel) ∧
    (s.inTable sel = true → canonicalEntry →
      (∀ code la, s.translateAll .read .supervisor (s.descBytes sel) = .error (.fault (.pf code la)) →
        (rpl sel = s.cpl → exec i s = .fault (.pf code la)) ∧
        (rpl sel ≠ s.cpl → exec i s = gpSel ∨ exec i s = .fault (.pf code la))) ∧
      (∀ d, DescriptorRead s sel d →
        ((rpl sel ≠ s.cpl ∨ isWritableData d = false ∨ descDpl d ≠ s.cpl) → exec i s = gpSel) ∧
        (rpl sel = s.cpl → isWritableData d = true → descDpl d = s.cpl →
          (isPresent d = false → exec i s = .fault (.ss (some (sel &&& 0xFFFC#16)))) ∧
          (isPresent d = true → ∀ u, AccessedUpdate s sel d u → NextPcInRange s i.length →
            ∃ t, exec i s = .next t ∧
              Loaded i s t as { sel := sel, valid := true, hid := unpack (withAccessed d) } u))))

/-- R228: loading SS with a NULL selector in 64-bit mode: `#GP(0)` when CPL is 3 or the RPL is not CPL; otherwise it
completes with no descriptor access, selector as read, valid flag 0, the rest of the hidden part free, CPL as it was
(what the permitted case does is the spec's choice, D11). -/
def Obligations.Long64NullSsLoad : Prop :=
  ∀ (i : Instr) (s : State) (r : MemRef) (as : List (BitVec 64)), Ready i s r as → s.mode = .long64 → i.mnem = .lss →
    (s.readSelector i.osz as).toNat ≤ 3 →
    let sel := s.readSelector i.osz as
    (s.cpl = 3#2 ∨ rpl sel ≠ s.cpl → exec i s = .fault (.gp (some 0#16))) ∧
    (s.cpl ≠ 3#2 → rpl sel = s.cpl → NextPcInRange s i.length →
      ∃ t h, exec i s = .next t ∧ Loaded i s t as { sel := sel, valid := false, hid := h } none ∧ t.cpl = s.cpl)

/-- R126: the NULL selectors are the values 0 to 3; 4 to 7 are not NULL. -/
def Obligations.NullSelectorValues : Prop :=
  ∀ sel : BitVec 16, isNull sel = true ↔ sel = 0#16 ∨ sel = 1#16 ∨ sel = 2#16 ∨ sel = 3#16

/-- R157: table, range test and address of a descriptor, and the addresses of its eight bytes (R141). A selector with
TI = 1 is outside the table when LDTR is not valid (R130). In protected mode the addresses are cut to 32 bits (the
model's reading, log entry 11). -/
def Obligations.DescriptorLookup : Prop :=
  ∀ (s : State) (sel : BitVec 16),
    let index := sel.toNat / 8
    let addr (base : BitVec 64) : Prop :=
      s.descAddr sel = if s.mode = .prot then BitVec.ofNat 64 ((base.toNat + 8 * index) % 2 ^ 32)
        else base + BitVec.ofNat 64 (8 * index)
    (sel.getLsbD 2 = false → (s.inTable sel = true ↔ 8 * index + 7 ≤ s.gdtr.limit.toNat) ∧ addr s.gdtr.base) ∧
    (sel.getLsbD 2 = true →
      (s.inTable sel = true ↔ s.ldtr.valid = true ∧ 8 * index + 7 ≤ s.ldtr.limit.toNat) ∧ addr s.ldtr.base) ∧
    (s.descBytes sel).length = 8 ∧
    (∀ k, k < 8 → (s.descBytes sel)[k]? = some
      (if s.mode = .prot then BitVec.ofNat 64 (((s.descAddr sel).toNat + k) % 2 ^ 32)
       else s.descAddr sel + BitVec.ofNat 64 k))

/-! ## Every form: frames and whole-machine rules -/

/-- R123, R134, R234, R132, R129: an instruction that completes changes no general register but its destination, no
segment register but the one its mnemonic names, no flag, and neither MODE, CPL, GDTR, LDTR nor AC_ENABLED. All
thirteen forms. -/
def Obligations.EveryFormLeavesTheRest : Prop :=
  ∀ (i : Instr) (s t : State), exec i s = .next t → SameElsewhere s t i.enc.dest i.mnem.seg

/-- R155, R160, R222, R226, R228: the memory an instruction that completes writes. In real-address and virtual-8086
mode, and with a NULL selector, none. Otherwise, with `d` the descriptor read: none when its accessed bit is 1 or
`SET_ACCESSED` is false; else only the byte at the address `accessedByte` computes, whose bit 0 is set, and that
address enters the record of written code, which R163 and D23 need and which is otherwise as before (log entry 13).
That the accessed bit is written at all is the spec's choice (D15). -/
def Obligations.OnlyTheAccessedByteIsWritten : Prop :=
  ∀ (i : Instr) (s t : State) (r : MemRef) (as : List (BitVec 64)), exec i s = .next t → s.mem.wf = true →
    s.memRef i.enc i.length = some r →
    s.translateAll .read (.level s.cpl) (s.operandBytes r (i.osz.bytes + 2)) = .ok as →
    let sel := s.readSelector i.osz as
    let unwritten := (∀ b, t.byteAt b = s.byteAt b) ∧ t.modifiedCode = s.modifiedCode
    (s.mode = .real ∨ s.mode = .v86 ∨ isNull sel = true → unwritten) ∧
    (s.checksSegments → isNull sel = false → ∀ d, DescriptorRead s sel d →
      (isAccessed d = true ∨ s.cfg.setAccessed = false → unwritten) ∧
      (isAccessed d = false → s.cfg.setAccessed = true → ∀ a, s.accessedByte sel = .ok a →
        t.byteAt a = s.byteAt a ||| 1#8 ∧ (∀ b, b ≠ a → t.byteAt b = s.byteAt b) ∧
          ∀ b, b ∈ t.modifiedCode ↔ b = a ∨ b ∈ s.modifiedCode))

/-- R229, R122, R142, R204: whenever an instruction completes, its destination holds the offset in the first `OSZ/8`
bytes of the operand, with the upper bits as R122 says, and the segment register's selector is the two bytes after
it (R226 and R224: RPL bits included, C3). -/
def Obligations.OffsetAndSelectorGoWhereTheyBelong : Prop :=
  ∀ (i : Instr) (s t : State) (r : MemRef) (as : List (BitVec 64)), exec i s = .next t →
    s.memRef i.enc i.length = some r →
    s.translateAll .read (.level s.cpl) (s.operandBytes r (i.osz.bytes + 2)) = .ok as →
    DestWritten s t i.osz i.enc.dest (BitVec.ofNat 64 (leValue ((as.take i.osz.bytes).map fun a => s.byteAt a.toNat))) ∧
    (t.seg i.mnem.seg).sel = BitVec.ofNat 16 (leValue ((as.drop i.osz.bytes).map fun a => s.byteAt a.toNat))

/-- R235, R133: an instruction that completes leaves `pc` past its own bytes. -/
def Obligations.PcAdvancesByTheLength : Prop :=
  ∀ (i : Instr) (s t : State), exec i s = .next t → t.pc = s.pc + BitVec.ofNat 64 (encode i).length

/-- R284: LSS with destination register 4 replaces the stack segment and the stack pointer together. -/
def Obligations.LssReplacesStackSegmentAndPointer : Prop :=
  ∀ (i : Instr) (s t : State) (r : MemRef) (as : List (BitVec 64)), i.mnem = .lss → i.enc.dest = 4#4 →
    exec i s = .next t → s.memRef i.enc i.length = some r →
    s.translateAll .read (.level s.cpl) (s.operandBytes r (i.osz.bytes + 2)) = .ok as →
    t.ss.sel = s.readSelector i.osz as ∧ DestWritten s t i.osz 4#4 (s.readOffset i.osz as)

/-- R252: in real-address mode the only exceptions are `#UD`, and `#GP` and `#SS` with no error code. -/
def Obligations.RealModeExceptions : Prop :=
  ∀ (i : Instr) (s : State) (f : Fault), s.mode = .real → exec i s = .fault f → f = .ud ∨ f = .gp none ∨ f = .ss none

/-- R253: in virtual-8086 mode the only exceptions are `#UD`, `#GP(0)`, `#SS(0)`, `#PF` and, with checking enabled,
`#AC(0)`. -/
def Obligations.V86ModeExceptions : Prop :=
  ∀ (i : Instr) (s : State) (f : Fault), s.mode = .v86 → exec i s = .fault f →
    f = .ud ∨ f = .gp (some 0#16) ∨ f = .ss (some 0#16) ∨ (∃ code la, f = .pf code la) ∨
      (s.acEnabled = true ∧ f = .ac 0#16)

/-- R251, R254, R255, R258: in protected, compatibility and 64-bit mode `#GP` and `#SS` carry an error code; `#NP` is
never raised by LSS, and `#SS` with a selector only by LSS; every selector code has bits 1 and 0 clear (D17); `#AC(0)`
needs checking enabled and CPL 3. -/
def Obligations.ProtectedModeExceptions : Prop :=
  ∀ (i : Instr) (s : State) (f : Fault), s.checksSegments → exec i s = .fault f →
    f = .ud ∨ (∃ c, f = .gp (some c) ∧ c &&& 3#16 = 0#16) ∨
      (∃ c, f = .ss (some c) ∧ c &&& 3#16 = 0#16 ∧ (i.mnem ≠ .lss → c = 0#16)) ∨
      (∃ c, f = .np c ∧ c &&& 3#16 = 0#16 ∧ i.mnem ≠ .lss) ∨ (∃ code la, f = .pf code la) ∨
      (f = .ac 0#16 ∧ s.acEnabled = true ∧ s.cpl = 3#2)

/-- R132: no form reads a flag: two steps that differ only in the flags register differ only in it. -/
def Obligations.FlagsAreNotRead : Prop :=
  ∀ (s : State) (v : BitVec 32),
    (∀ t, step s = .next t → step { s with flags := v } = .next { t with flags := v }) ∧
    (∀ f, step s = .fault f → step { s with flags := v } = .fault f) ∧
    (∀ x, step s = .refused x → step { s with flags := v } = .refused x)

/-- R222: in real-address and virtual-8086 mode no descriptor table is read: GDTR and LDTR do not enter. -/
def Obligations.RealAndV86ReadNoTable : Prop :=
  ∀ (s : State) (g : Gdtr) (l : Ldtr), s.mode = .real ∨ s.mode = .v86 →
    (∀ t, step s = .next t → step { s with gdtr := g, ldtr := l } = .next { t with gdtr := g, ldtr := l }) ∧
    (∀ f, step s = .fault f → step { s with gdtr := g, ldtr := l } = .fault f) ∧
    (∀ x, step s = .refused x → step { s with gdtr := g, ldtr := l } = .refused x)

/-! ## The invariant -/

/-- The state after reset meets the invariant. The reset values are the model's choice (log entry 2). -/
def Obligations.ResetMeetsInvariant : Prop := Inv State.reset

/-- Every step keeps the invariant: memory canonical, mode, CPL and configuration consistent, SS and the data segment
registers as their loads leave them, no register that does not exist (R120, R129, R147, R149, R223 to R228, R267,
R282). -/
def Obligations.StepKeepsInvariant : Prop := ∀ s t : State, Inv s → step s = .next t → Inv t

/-- R290, R128 to R131, R137: along any run, CS, MODE, CPL, GDTR, LDTR, AC_ENABLED, the flags and the configuration
never change, a byte of memory only gains its bit 0, and the invariant holds from a state that meets it. -/
def Obligations.RunsKeepSystemState : Prop :=
  ∀ s t : State, Inv s → Reaches s t →
    Inv t ∧ t.cs = s.cs ∧ t.mode = s.mode ∧ t.cpl = s.cpl ∧ t.gdtr = s.gdtr ∧ t.ldtr = s.ldtr ∧
      t.acEnabled = s.acEnabled ∧ t.flags = s.flags ∧ t.cfg = s.cfg ∧
      ∀ a, t.byteAt a = s.byteAt a ∨ t.byteAt a = s.byteAt a ||| 1#8

/-- Two memories in canonical form that read the same at every address are the same data (log entry 4). -/
def Obligations.EqualMemoriesAreEqualData : Prop :=
  ∀ m m' : Memory, m.wf = true → m'.wf = true → (∀ a, m.read a = m'.read a) → m = m'

/-! ## Layouts and addresses that the statements above name -/

/-- R144, R145, R182: the operand's segment is the one its override prefix names, or the default of the addressing form;
and the linear address of its byte `k` is, outside `Long64`, base plus offset cut to 32 bits, and in `Long64` base plus
offset for FS and GS and the offset alone for every other segment, an override of CS, DS, ES or SS included (D30). -/
def Obligations.OperandSegmentAndLinearAddress : Prop :=
  ∀ (s : State) (e : Enc) (len : Nat) (r : MemRef), s.memRef e len = some r →
    (∀ g, legacyProblem e.pfx.legacy = none → LegacyPfx.seg g ∈ e.pfx.legacy → r.seg = g) ∧
    ((∀ g, LegacyPfx.seg g ∉ e.pfx.legacy) → r.seg = if r.ssDefault then .ss else .ds) ∧
    (∀ n k, k < n →
      let base := (s.seg r.seg).hid.base
      let byteK (la : BitVec 64) : Prop := (s.operandBytes r n)[k]? = some la
      (s.mode ≠ .long64 → byteK (BitVec.ofNat 64 ((base.toNat + r.ea.toNat + k) % 2 ^ 32))) ∧
      (s.mode = .long64 → r.seg = .fs ∨ r.seg = .gs → byteK (base + r.ea + BitVec.ofNat 64 k)) ∧
      (s.mode = .long64 → r.seg ≠ .fs → r.seg ≠ .gs → byteK (r.ea + BitVec.ofNat 64 k)))

/-- R141: of the value of a list of bytes, byte `k` from the bottom is the byte at the `k`-th address. Little-endian is
the spec's choice (D1). -/
def Obligations.LittleEndianValue : Prop :=
  ∀ (bs : List Byte) (k : Nat) (h : k < bs.length),
    leValue bs / 256 ^ k % 256 = bs[k].toNat ∧ leValue bs < 256 ^ bs.length

/-- R125, R126, R258: the fields of a selector `index ++ TI ++ RPL`, when it is NULL, and the error code it gives (the
spec's choice, D8 and D17). -/
def Obligations.SelectorFormat : Prop :=
  ∀ (index : BitVec 13) (ti : Bool) (p : BitVec 2),
    let sel : BitVec 16 := index ++ BitVec.ofBool ti ++ p
    rpl sel = p ∧ tableIndicator sel = ti ∧ selIndex sel = index.toNat ∧
    (isNull sel = true ↔ index = 0#13 ∧ ti = false) ∧ selectorCode sel = index ++ BitVec.ofBool ti ++ 0#2

/-- R127: the descriptor format, from the fields of its table laid end to end: each predicate and DPL, P and A; what
unpacking puts into the hidden part, the limit scaled by G; what the hidden part then reads as; and that setting the
accessed bit changes nothing else (R160). The layout is the spec's choice (D8). -/
def Obligations.DescriptorFormat : Prop :=
  ∀ (base31_24 : BitVec 8) (g db l avl : Bool) (limit19_16 : BitVec 4) (p : Bool) (dpl : BitVec 2)
    (sBit code ec wr a : Bool) (base23_0 : BitVec 24) (limit15_0 : BitVec 16),
    let bit := BitVec.ofBool
    let access (acc : Bool) : BitVec 8 := bit p ++ dpl ++ bit sBit ++ bit code ++ bit ec ++ bit wr ++ bit acc
    let desc (acc : Bool) : BitVec 64 :=
      base31_24 ++ bit g ++ bit db ++ bit l ++ bit avl ++ limit19_16 ++ access acc ++ base23_0 ++ limit15_0
    let d := desc a
    let h := unpack d
    isData d = (sBit && !code) ∧ isWritableData d = (sBit && !code && wr) ∧ isCode d = (sBit && code) ∧
    isReadableCode d = (sBit && code && wr) ∧ isNonconformingCode d = (sBit && code && !ec) ∧
    descDpl d = dpl ∧ isPresent d = p ∧ isAccessed d = a ∧ withAccessed d = desc true ∧
    h.base = (base31_24 ++ base23_0).setWidth 64 ∧
    h.limit.toNat = (if g then (limit19_16 ++ limit15_0).toNat * 4096 + 4095 else (limit19_16 ++ limit15_0).toNat) ∧
    h.access = access a ∧ h.flags = bit g ++ bit db ++ bit l ++ bit avl ∧
    h.isData = isData d ∧ h.isCode = isCode d ∧ h.writableOrReadable = wr ∧ h.expandDownOrConforming = ec ∧
    h.dpl = dpl ∧ h.present = p ∧ h.big = db

/-- R150: an address is canonical exactly when its bits 63 down to `LINEAR_BITS - 1` are all equal. The definition is
general knowledge, the width a parameter (D27). -/
def Obligations.CanonicalMeansEqualUpperBits : Prop :=
  ∀ (s : State) (a : BitVec 64),
    s.canonical a = true ↔ ∀ j k, s.cfg.linearBits - 1 ≤ j → j < 64 → s.cfg.linearBits - 1 ≤ k → k < 64 →
      a.getLsbD j = a.getLsbD k

/-! ## Fetch, and the refusal of written code -/

/-- R163, R133, R145, R152: in every mode, fetched byte `k` is the byte of memory at the physical address of code offset
`pc + k`, when that byte and those before it can be read through CS: the offset is in the range of the code segment and
inside its limit (0xFFFF in virtual-8086 mode) or, in `Long64`, canonical, with base 0; and its linear address translates
for a read at CPL to memory with no read side effects. What the fetch checks is the model's choice (log entry 21). -/
def Obligations.FetchReadsThroughCs : Prop :=
  ∀ (s : State) (k : Nat) (pa : Nat → BitVec 64), k < 15 →
    let top := if s.mode = .long64 then 2 ^ 64 - 1 else if s.csD then 0xFFFFFFFF else 0xFFFF
    let offset (j : Nat) : Nat := s.pc.toNat % (top + 1) + j
    let la (j : Nat) : BitVec 64 :=
      if s.mode = .long64 then BitVec.ofNat 64 (offset j)
      else BitVec.ofNat 64 ((s.cs.hid.base.toNat + offset j) % 2 ^ 32)
    (∀ j, j ≤ k → offset j ≤ top ∧
      (s.mode = .long64 → s.canonical (la j) = true) ∧
      (s.mode = .v86 → offset j ≤ 0xFFFF) ∧
      (s.mode ≠ .long64 → s.mode ≠ .v86 → offset j ≤ s.cs.hid.limit.toNat) ∧
      s.translate .read (.level s.cpl) (la j) = .ok (pa j) ∧ s.hasSideEffect (pa j) = false) →
    s.fetchBytes[k]? = some (s.byteAt (pa k).toNat)

/-- R163: once a load has set a descriptor's accessed bit, a step whose instruction has its bytes at that address is
refused; and that stays so, since no step takes an address out of the record. The refusal is the spec's choice (D23). -/
def Obligations.MarkedBytesAreNotExecuted : Prop :=
  (∀ (i : Instr) (s t : State) (r : MemRef) (as : List (BitVec 64)) (d : BitVec 64) (a : Nat),
    exec i s = .next t → s.memRef i.enc i.length = some r →
    s.translateAll .read (.level s.cpl) (s.operandBytes r (i.osz.bytes + 2)) = .ok as →
    s.checksSegments → isNull (s.readSelector i.osz as) = false → DescriptorRead s (s.readSelector i.osz as) d →
    isAccessed d = false → s.cfg.setAccessed = true → s.accessedByte (s.readSelector i.osz as) = .ok a →
    a ∈ t.modifiedCode) ∧
  (∀ (s t : State) (a : Nat), step s = .next t → a ∈ s.modifiedCode → a ∈ t.modifiedCode) ∧
  (∀ (s : State) (i : Instr) (rest : List Byte) (a : BitVec 64), decode s.ctx s.fetchBytes = .ok i rest →
    a ∈ s.fetchWindow.1.take i.length → a.toNat ∈ s.modifiedCode → step s = .refused .modifiedCode)

/-! ## Runs over listed bytes -/

/-- R289: how a run ends. It ends well exactly at a reached state whose `pc` is at the offset just past the last listed
byte; in a fault or a refusal only by the step of a reached state that is not there; and it ends in one way only. -/
def Obligations.RunEndsInOneOfThreeWays : Prop :=
  ∀ (s : State) (stop n : Nat),
    (s.pcOffset = stop → runTo stop n s = some (.completed s)) ∧
    (∀ t, runTo stop n s = some (.completed t) → Reaches s t ∧ t.pcOffset = stop) ∧
    (∀ f t, runTo stop n s = some (.faulted f t) → Reaches s t ∧ t.pcOffset ≠ stop ∧ step t = .fault f) ∧
    (∀ r t, runTo stop n s = some (.refused r t) → Reaches s t ∧ t.pcOffset ≠ stop ∧ step t = .refused r) ∧
    (∀ m e e', runTo stop n s = some e → runTo stop m s = some e' → e = e')

/-- R289, R235, R133: every run ends, within as many steps as there are code offsets from `pc` to the top of the range:
no instruction of the group branches, each that completes moves `pc` up, and one that would pass the top is refused. -/
def Obligations.EveryRunEnds : Prop :=
  ∀ (s : State) (stop : Nat), ∃ e, runTo stop (s.codeTop + 1 - s.pcOffset) s = some e

/-- R289, R163: bytes listed at a `pc` where every code byte can be read, each at an address of its own, are the bytes
that stand there, `pc` is there, and nothing else has changed. How listed bytes come to stand in memory is the model's
choice (log entry 37). -/
def Obligations.ListedBytesStandAtPc : Prop :=
  ∀ (s : State) (pc : BitVec 64) (bs : List Byte) (as : List (BitVec 64)), s.mem.wf = true →
    ({ s with pc := pc } : State).codeWindow bs.length ({ s with pc := pc } : State).pcOffset = (as, none) → as.Nodup →
    let t := s.placeCode pc bs
    t.pc = pc ∧ t.codeWindow bs.length t.pcOffset = (as, none) ∧ (as.map fun a => t.byteAt a.toNat) = bs ∧
    (∀ x, (∀ a ∈ as, a.toNat ≠ x) → t.byteAt x = s.byteAt x) ∧ t.mem.wf = true ∧
    (∀ k, t.gpr k = s.gpr k) ∧ (∀ g, t.seg g = s.seg g) ∧ t.mode = s.mode ∧ t.cpl = s.cpl ∧ t.gdtr = s.gdtr ∧
    t.ldtr = s.ldtr ∧ t.acEnabled = s.acEnabled ∧ t.flags = s.flags ∧ t.cfg = s.cfg
end

