-- ==== Sys2Proof/Laws/Decode.lean ====
section
/-! SUPPORT. The small lemmas of the decoder and the encoder: fields of bytes, displacements, prefixes, opcodes and
operands, each read back from what the encoder writes. -/

namespace Sys2Proof

/-! ## Fields of bytes -/

@[simp] theorem hi2_byte233 (a : BitVec 2) (b c : BitVec 3) : hi2 (byte233 a b c) = a := by
  revert a b c; decide

@[simp] theorem mid3_byte233 (a : BitVec 2) (b c : BitVec 3) : mid3 (byte233 a b c) = b := by
  revert a b c; decide

@[simp] theorem lo3_byte233 (a : BitVec 2) (b c : BitVec 3) : lo3 (byte233 a b c) = c := by
  revert a b c; decide

@[simp] theorem byte233_fields (m : Byte) : byte233 (hi2 m) (mid3 m) (lo3 m) = m := by
  revert m; decide

@[simp] theorem isRex_byte (r : Rex) : isRex r.byte = true := by
  rcases r with ⟨_ | _, _ | _, _ | _, _ | _⟩ <;> decide

@[simp] theorem rexOf_byte (r : Rex) : rexOf r.byte = r := by
  rcases r with ⟨_ | _, _ | _, _ | _, _ | _⟩ <;> decide

theorem byte_rexOf (b : Byte) (h : isRex b = true) : (rexOf b).byte = b := by
  revert b; decide

@[simp] theorem legacyOf_byte (p : LegacyPfx) : legacyOf p.byte = some p := by
  rcases p with _ | _ | _ | (_ | _ | _ | _ | _ | _) <;> decide

theorem byte_of_legacyOf {b : Byte} {p : LegacyPfx} (h : legacyOf b = some p) : p.byte = b := by
  unfold legacyOf at h
  repeat' split at h
  all_goals first
    | (cases h; subst_vars; rfl)
    | simp at h

theorem legacyOf_rex (b : Byte) (h : isRex b = true) : legacyOf b = none := by
  revert b; decide

theorem isRepeat_legacyOf (b : Byte) (h : isRepeat b = true) : legacyOf b = none := by
  revert b; decide

@[simp] theorem isRepeat_byte (p : LegacyPfx) : isRepeat p.byte = false := by
  rcases p with _ | _ | _ | (_ | _ | _ | _ | _ | _) <;> decide

theorem isRepeat_rex (b : Byte) (h : isRex b = true) : isRepeat b = false := by
  revert b; decide

@[simp] theorem base16Of_code (b : Base16) : base16Of b.code = b := by cases b <;> decide

@[simp] theorem code_base16Of (rm : BitVec 3) : (base16Of rm).code = rm := by
  revert rm; decide

theorem code_eq_six {b : Base16} : b.code = 6#3 ↔ b = .bp := by cases b <;> decide

/-! ## Displacements -/

@[simp] theorem get16_le16 (d : BitVec 16) (r : List Byte) : get16 (le16 d ++ r) = some (d, r) := by
  simp only [le16, get16, List.cons_append, List.nil_append, Option.some.injEq, Prod.mk.injEq, and_true]
  ext i hi
  simp only [BitVec.getElem_append, BitVec.getElem_extractLsb']
  split
  · simp [BitVec.getLsbD_eq_getElem, hi]
  · rw [show 8 + (i - 8) = i by omega, BitVec.getLsbD_eq_getElem hi]

@[simp] theorem get32_le32 (d : BitVec 32) (r : List Byte) : get32 (le32 d ++ r) = some (d, r) := by
  simp only [le32, get32, List.cons_append, List.nil_append, Option.some.injEq, Prod.mk.injEq, and_true]
  ext i hi
  simp only [BitVec.getElem_append, BitVec.getElem_extractLsb']
  repeat' split
  · simp [BitVec.getLsbD_eq_getElem, hi]
  · rw [show 8 + (i - 8) = i by omega, BitVec.getLsbD_eq_getElem hi]
  · rw [show 16 + (i - 8 - 8) = i by omega, BitVec.getLsbD_eq_getElem hi]
  · rw [show 24 + (i - 8 - 8 - 8) = i by omega, BitVec.getLsbD_eq_getElem hi]

theorem le16_append (b1 b0 : Byte) : le16 (b1 ++ b0) = [b0, b1] := by
  simp only [le16, List.cons.injEq, and_true]
  constructor <;> ext i hi <;> simp only [BitVec.getElem_extractLsb', BitVec.getLsbD_append]
  · simp [hi, BitVec.getLsbD_eq_getElem]
  · simp [hi, BitVec.getLsbD_eq_getElem]

theorem le32_append (b3 b2 b1 b0 : Byte) : le32 (b3 ++ b2 ++ b1 ++ b0) = [b0, b1, b2, b3] := by
  simp only [le32, List.cons.injEq, and_true]
  refine ⟨?_, ?_, ?_, ?_⟩ <;> ext i hi <;>
    simp only [BitVec.getElem_extractLsb', BitVec.getLsbD_append]
  · simp [hi, BitVec.getLsbD_eq_getElem]
  · simp [hi, BitVec.getLsbD_eq_getElem]
  · simp [show ¬(16 + i < 8) by omega, show 16 + i - 8 = 8 + i by omega, hi, BitVec.getLsbD_eq_getElem]
  · simp [show ¬(24 + i < 8) by omega, show 24 + i - 8 = 16 + i by omega, show ¬(16 + i < 8) by omega,
      show 16 + i - 8 = 8 + i by omega, hi, BitVec.getLsbD_eq_getElem]

theorem get16_eq_some {bs r : List Byte} {d : BitVec 16} (h : get16 bs = some (d, r)) : bs = le16 d ++ r := by
  match bs, h with
  | b0 :: b1 :: bs, h =>
    cases h
    rw [le16_append]
    rfl

theorem get32_eq_some {bs r : List Byte} {d : BitVec 32} (h : get32 bs = some (d, r)) : bs = le32 d ++ r := by
  match bs, h with
  | b0 :: b1 :: b2 :: b3 :: bs, h =>
    cases h
    rw [le32_append]
    rfl

@[simp] theorem takeDisp16_bytes (d : Disp16) (r : List Byte) : takeDisp16 d.md (d.bytes ++ r) = some (d, r) := by
  cases d <;> simp [takeDisp16, Disp16.md, Disp16.bytes, get8]

@[simp] theorem takeDisp32_bytes (d : Disp32) (r : List Byte) : takeDisp32 d.md (d.bytes ++ r) = some (d, r) := by
  cases d <;> simp [takeDisp32, Disp32.md, Disp32.bytes, get8]

theorem Disp16.md_eq_zero {d : Disp16} : d.md = 0#2 ↔ d = .none := by cases d <;> simp [Disp16.md]

theorem Disp32.md_eq_zero {d : Disp32} : d.md = 0#2 ↔ d = .none := by cases d <;> simp [Disp32.md]

theorem Disp16.md_ne_three (d : Disp16) : d.md ≠ 3#2 := by cases d <;> simp [Disp16.md]

theorem Disp32.md_ne_three (d : Disp32) : d.md ≠ 3#2 := by cases d <;> simp [Disp32.md]

/-! ## Prefixes -/

/-- The legacy prefixes are read back, in order, when what follows does not begin with another. -/
theorem scanLegacy_append (ps : List LegacyPfx) {bs : List Byte} (h : ∀ b ∈ bs.head?, legacyOf b = none) :
    scanLegacy (ps.map LegacyPfx.byte ++ bs) = (ps, bs) := by
  induction ps with
  | nil =>
    cases bs with
    | nil => rfl
    | cons b bs => simp [scanLegacy, h b (by simp)]
  | cons p ps ih => simp [scanLegacy, ih]

/-- What was scanned is the bytes of the prefixes, and what follows begins with no prefix. -/
theorem scanLegacy_eq (bs : List Byte) :
    bs = (scanLegacy bs).1.map LegacyPfx.byte ++ (scanLegacy bs).2 ∧
      ∀ b ∈ (scanLegacy bs).2.head?, legacyOf b = none := by
  induction bs with
  | nil => simp [scanLegacy]
  | cons b bs ih =>
    unfold scanLegacy
    cases h : legacyOf b with
    | none => simp [h]
    | some p =>
      simp only [List.map_cons, List.cons_append]
      exact ⟨by rw [byte_of_legacyOf h, ← ih.1], ih.2⟩

/-- An opcode is read back. -/
theorem takeOpcode_opcode (m : Mnem) (bs : List Byte) : takeOpcode (m.opcode ++ bs) = .found m bs := by
  cases m <;> simp [takeOpcode, Mnem.opcode]

/-- Bytes that read as an opcode are the opcode bytes of the mnemonic, then the rest. -/
theorem takeOpcode_eq_found {bs rest : List Byte} {m : Mnem} (h : takeOpcode bs = .found m rest) :
    bs = m.opcode ++ rest := by
  unfold takeOpcode at h
  split at h
  · cases h
  · repeat' split at h
    all_goals first
      | (cases h; subst_vars; rfl)
      | cases h

/-- The first byte of an opcode is no prefix and no REX byte. -/
theorem opcode_head (m : Mnem) :
    ∃ b bs, m.opcode = b :: bs ∧ legacyOf b = none ∧ isRepeat b = false ∧ isRex b = false := by
  cases m <;> exact ⟨_, _, rfl, by decide⟩

/-! ## Operands -/

/-- An encodable operand is read back, from ModRM on. -/
theorem takeOperand_encode {a : AddrSize} {o : Operand} (reg : BitVec 3) (rest : List Byte)
   (h : o.wellFormed a = true) :
   ∃ b bs, o.encode reg ++ rest = b :: bs ∧ mid3 b = reg ∧ takeOperand a (hi2 b) (lo3 b) bs = some (o, rest) := by
  rcases o with rm | m | m
  · exact ⟨_, _, rfl, by simp, by simp [takeOperand]⟩
  · have ha : a = .a16 := by cases a <;> simp_all [Operand.wellFormed]
    subst ha
    rcases m with d | ⟨b, d⟩
    · exact ⟨_, _, rfl, by simp, by simp [takeOperand, takeMem16]⟩
    · refine ⟨_, _, rfl, by simp, ?_⟩
      have : ¬ (d.md = 0#2 ∧ b.code = 6#3) := by
        rw [Disp16.md_eq_zero, code_eq_six]
        simp only [Operand.wellFormed, Mem16.wellFormed] at h
        simp at h
        tauto
      simp [takeOperand, takeMem16, this, Disp16.md_ne_three]
  · have ha : a ≠ .a16 := by simp only [Operand.wellFormed, Bool.and_eq_true, bne_iff_ne] at h; exact h.1
    have key : ∀ md rm bs, md ≠ 3#2 →
        takeOperand a md rm bs = (takeMem32 md rm bs).map fun (m, r) => (.mem32 m, r) := by
      intro md rm bs hmd; cases a <;> simp_all [takeOperand]
    have hw : m.wellFormed = true := by simp only [Operand.wellFormed, Bool.and_eq_true] at h; exact h.2
    rcases m with ⟨rm, d⟩ | d | ⟨sc, ix, b, d⟩ | ⟨sc, ix, d⟩
    · refine ⟨_, _, rfl, by simp, ?_⟩
      simp only [Mem32.wellFormed] at hw
      simp at hw
      have : ¬ (d.md = 0#2 ∧ rm = 5#3) := by rw [Disp32.md_eq_zero]; tauto
      rw [key _ _ _ (by simp [Disp32.md_ne_three])]
      simp [takeMem32, hw.1, this]
    · refine ⟨_, _, rfl, by simp, ?_⟩
      rw [key _ _ _ (by simp)]
      simp [takeMem32]
    · refine ⟨_, _, rfl, by simp, ?_⟩
      simp only [Mem32.wellFormed] at hw
      simp at hw
      have : ¬ (d.md = 0#2 ∧ b = 5#3) := by rw [Disp32.md_eq_zero]; tauto
      rw [key _ _ _ (by simp [Disp32.md_ne_three])]
      simp [takeMem32, takeSib, this]
    · refine ⟨_, _, rfl, by simp, ?_⟩
      rw [key _ _ _ (by simp)]
      simp [takeMem32, takeSib]

/-- A 16-bit form's displacement that was read has the `mod` and the bytes it was read from. -/
theorem takeDisp16_eq_some {md : BitVec 2} {bs r} {d} (hm : md ≠ 3#2) (h : takeDisp16 md bs = some (d, r)) :
    d.md = md ∧ bs = d.bytes ++ r := by
  unfold takeDisp16 at h
  split at h
  · simp at h; obtain ⟨rfl, rfl⟩ := h; simp_all [Disp16.md, Disp16.bytes]
  split at h
  · rename_i h1
    rcases bs with _ | ⟨b, bs⟩
    · simp [get8] at h
    simp [get8] at h; obtain ⟨rfl, rfl⟩ := h; simp_all [Disp16.md, Disp16.bytes]
  · have : md = 2#2 := by revert md; decide
    simp only [Option.map_eq_some_iff] at h
    obtain ⟨⟨x, y⟩, h1, h2⟩ := h
    simp at h2; obtain ⟨rfl, rfl⟩ := h2
    simp [this, Disp16.md, Disp16.bytes, get16_eq_some h1]

/-- A 32-bit form's displacement that was read has the `mod` and the bytes it was read from. -/
theorem takeDisp32_eq_some {md : BitVec 2} {bs r} {d} (hm : md ≠ 3#2) (h : takeDisp32 md bs = some (d, r)) :
    d.md = md ∧ bs = d.bytes ++ r := by
  unfold takeDisp32 at h
  split at h
  · simp at h; obtain ⟨rfl, rfl⟩ := h; simp_all [Disp32.md, Disp32.bytes]
  split at h
  · rename_i h1
    rcases bs with _ | ⟨b, bs⟩
    · simp [get8] at h
    simp [get8] at h; obtain ⟨rfl, rfl⟩ := h; simp_all [Disp32.md, Disp32.bytes]
  · have : md = 2#2 := by revert md; decide
    simp only [Option.map_eq_some_iff] at h
    obtain ⟨⟨x, y⟩, h1, h2⟩ := h
    simp at h2; obtain ⟨rfl, rfl⟩ := h2
    simp [this, Disp32.md, Disp32.bytes, get32_eq_some h1]

/-- An operand that was read is encodable, and its encoding is the bytes it was read from. -/
theorem takeOperand_eq_some {a : AddrSize} {o : Operand} {b : Byte} {bs rest : List Byte}
   (h : takeOperand a (hi2 b) (lo3 b) bs = some (o, rest)) :
   o.wellFormed a = true ∧ b :: bs = o.encode (mid3 b) ++ rest := by
  unfold takeOperand at h
  split at h
  · rename_i hm
    simp at h; obtain ⟨rfl, rfl⟩ := h
    refine ⟨rfl, ?_⟩
    simp [Operand.encode, ← hm]
  · rename_i hm
    have k16 : ∀ m r, takeMem16 (hi2 b) (lo3 b) bs = some (m, r) →
        m.wellFormed = true ∧ b :: bs = (Operand.mem16 m).encode (mid3 b) ++ r := by
      intro m r h
      unfold takeMem16 at h
      split at h
      · rename_i hc
        simp only [Option.map_eq_some_iff] at h
        obtain ⟨⟨x, y⟩, h1, h2⟩ := h
        simp at h2; obtain ⟨rfl, rfl⟩ := h2
        refine ⟨rfl, ?_⟩
        simp [Operand.encode, get16_eq_some h1, ← hc.1, ← hc.2]
      · rename_i hc
        simp only [Option.map_eq_some_iff] at h
        obtain ⟨⟨x, y⟩, h1, h2⟩ := h
        simp at h2; obtain ⟨rfl, rfl⟩ := h2
        obtain ⟨h3, h4⟩ := takeDisp16_eq_some hm h1
        refine ⟨?_, ?_⟩
        · rw [← h3, Disp16.md_eq_zero, ← code_base16Of (lo3 b), code_eq_six] at hc
          simp only [Mem16.wellFormed]; simp; tauto
        · simp [Operand.encode, h3, h4]
    have k32 : ∀ m r, takeMem32 (hi2 b) (lo3 b) bs = some (m, r) →
        m.wellFormed = true ∧ b :: bs = (Operand.mem32 m).encode (mid3 b) ++ r := by
      intro m r h
      unfold takeMem32 at h
      split at h
      · rename_i h4
        unfold takeSib at h
        split at h
        · simp at h
        · rename_i b2 bs2
          split at h
          · rename_i hc
            simp only [Option.map_eq_some_iff] at h
            obtain ⟨⟨x, y⟩, h1, h2⟩ := h
            simp at h2; obtain ⟨rfl, rfl⟩ := h2
            refine ⟨rfl, ?_⟩
            simp only [Operand.encode, get32_eq_some h1]
            rw [← hc.1, ← hc.2, ← h4]; simp
          · rename_i hc
            simp only [Option.map_eq_some_iff] at h
            obtain ⟨⟨x, y⟩, h1, h2⟩ := h
            simp at h2; obtain ⟨rfl, rfl⟩ := h2
            obtain ⟨h5, h6⟩ := takeDisp32_eq_some hm h1
            refine ⟨?_, ?_⟩
            · rw [← h5, Disp32.md_eq_zero] at hc
              simp only [Mem32.wellFormed]; simp; tauto
            · simp only [Operand.encode]; rw [h5, ← h4, h6]; simp
      split at h
      · rename_i hc
        simp only [Option.map_eq_some_iff] at h
        obtain ⟨⟨x, y⟩, h1, h2⟩ := h
        simp at h2; obtain ⟨rfl, rfl⟩ := h2
        refine ⟨rfl, ?_⟩
        simp only [Operand.encode, get32_eq_some h1]
        rw [← hc.1, ← hc.2]; simp
      · rename_i hn hc
        simp only [Option.map_eq_some_iff] at h
        obtain ⟨⟨x, y⟩, h1, h2⟩ := h
        simp at h2; obtain ⟨rfl, rfl⟩ := h2
        obtain ⟨h5, h6⟩ := takeDisp32_eq_some hm h1
        refine ⟨?_, ?_⟩
        · rw [← h5, Disp32.md_eq_zero] at hc
          simp only [Mem32.wellFormed]; simp; tauto
        · simp only [Operand.encode]; rw [h5, h6]; simp
    cases a <;> simp only [Option.map_eq_some_iff] at h <;> obtain ⟨⟨x, y⟩, h1, h2⟩ := h <;>
      simp at h2 <;> obtain ⟨rfl, rfl⟩ := h2
    · simpa [Operand.wellFormed] using k16 _ _ h1
    · simpa [Operand.wellFormed] using k32 _ _ h1
    · simpa [Operand.wellFormed] using k32 _ _ h1

/-- The segment override of prefixes with one override at most is that one (R182, R184). -/
theorem override_eq_some {p : Pfx} {g : Seg} (h : p.legacy.countP LegacyPfx.isSeg ≤ 1) (hg : .seg g ∈ p.legacy) :
    p.override = some g := by
  obtain ⟨ps, rx⟩ := p
  simp only [Pfx.override] at h hg ⊢
  induction ps with
  | nil => cases hg
  | cons q ps ih =>
    rcases q with _ | _ | _ | g'
    · simp [LegacyPfx.isSeg] at h hg ⊢; exact ih h hg
    · simp [LegacyPfx.isSeg] at h hg ⊢; exact ih h hg
    · simp [LegacyPfx.isSeg] at h hg ⊢; exact ih h hg
    · have h0 : ps.countP LegacyPfx.isSeg = 0 := by simpa [List.countP_cons, LegacyPfx.isSeg] using h
      rcases List.mem_cons.1 hg with h1 | h1
      · cases h1; simp
      · exact absurd rfl (List.countP_eq_zero.1 h0 _ h1)

/-- Prefixes with no override have none. -/
theorem override_eq_none {p : Pfx} (h : ∀ g, LegacyPfx.seg g ∉ p.legacy) : p.override = none := by
  simp only [Pfx.override, List.findSome?_eq_none_iff]
  intro q hq
  rcases q with _ | _ | _ | g
  · rfl
  · rfl
  · rfl
  · exact absurd hq (h g)

/-- The prefixes that R184 leaves are at most four: an override, `66`, `67`, LOCK. -/
theorem length_of_legacyProblem (ps : List LegacyPfx) (h : legacyProblem ps = none) : ps.length ≤ 4 := by
  unfold legacyProblem at h
  split at h
  · simp at h
  split at h
  · simp at h
  rename_i h1 h2
  simp only [Bool.or_eq_true, decide_eq_true_eq, not_or, not_lt] at h1 h2
  have : ps.length = ps.countP LegacyPfx.isSeg + ps.count .opSize + ps.count .addrSize + ps.count .lock := by
    clear h1 h2
    induction ps with
    | nil => rfl
    | cons p ps ih => rcases p with _|_|_|_ <;> simp [ih, List.countP_cons, LegacyPfx.isSeg] <;> omega
  omega

/-! ## Lengths -/

theorem Operand.length_encode (reg : BitVec 3) (o : Operand) : (o.encode reg).length = o.length := by
  rcases o with _ | m | m
  · rfl
  · rcases m with _ | ⟨_, d⟩
    · rfl
    · cases d <;> rfl
  · rcases m with ⟨_, d⟩ | _ | ⟨_, _, _, d⟩ | _
    · cases d <;> rfl
    · rfl
    · cases d <;> rfl
    · rfl

theorem Mnem.length_opcode (m : Mnem) : m.opcode.length = m.opcodeBytes := by cases m <;> rfl

/-- `L` is the number of bytes of the encoding (R186). -/
theorem length_encode (i : Instr) : (encode i).length = i.length := by
  simp only [encode, List.length_append, List.length_map, Mnem.length_opcode, Operand.length_encode, Instr.length,
    Enc.length]
  cases i.enc.pfx.rex <;> rfl

end Sys2Proof
end

