-- ==== Sys2Proof/Laws/State.lean ====
section
/-! SUPPORT. One lemma per field per update of the state: `setSeg`, `markAccessed`, `commit`, and the register file
after a write. Later proofs use these and unfold no record update. -/

namespace Sys2Proof.Machine

/-! ## setSeg -/

@[simp] theorem setSeg_regs (s : State) (g : Seg) (v : SegReg) : (s.setSeg g v).regs = s.regs := by
  cases g <;> rfl

@[simp] theorem setSeg_pc (s : State) (g : Seg) (v : SegReg) : (s.setSeg g v).pc = s.pc := by
  cases g <;> rfl

@[simp] theorem setSeg_mode (s : State) (g : Seg) (v : SegReg) : (s.setSeg g v).mode = s.mode := by
  cases g <;> rfl

@[simp] theorem setSeg_cpl (s : State) (g : Seg) (v : SegReg) : (s.setSeg g v).cpl = s.cpl := by
  cases g <;> rfl

@[simp] theorem setSeg_gdtr (s : State) (g : Seg) (v : SegReg) : (s.setSeg g v).gdtr = s.gdtr := by
  cases g <;> rfl

@[simp] theorem setSeg_ldtr (s : State) (g : Seg) (v : SegReg) : (s.setSeg g v).ldtr = s.ldtr := by
  cases g <;> rfl

@[simp] theorem setSeg_acEnabled (s : State) (g : Seg) (v : SegReg) : (s.setSeg g v).acEnabled = s.acEnabled := by
  cases g <;> rfl

@[simp] theorem setSeg_flags (s : State) (g : Seg) (v : SegReg) : (s.setSeg g v).flags = s.flags := by
  cases g <;> rfl

@[simp] theorem setSeg_mem (s : State) (g : Seg) (v : SegReg) : (s.setSeg g v).mem = s.mem := by
  cases g <;> rfl

@[simp] theorem setSeg_cfg (s : State) (g : Seg) (v : SegReg) : (s.setSeg g v).cfg = s.cfg := by
  cases g <;> rfl

@[simp] theorem setSeg_draws (s : State) (g : Seg) (v : SegReg) : (s.setSeg g v).draws = s.draws := by
  cases g <;> rfl

@[simp] theorem setSeg_modifiedCode (s : State) (g : Seg) (v : SegReg) : (s.setSeg g v).modifiedCode = s.modifiedCode := by
  cases g <;> rfl

theorem setSeg_seg (s : State) (g g' : Seg) (v : SegReg) :
    (s.setSeg g v).seg g' = if g' = g then v else s.seg g' := by
  cases g <;> cases g' <;> rfl

@[simp] theorem setSeg_seg_same (s : State) (g : Seg) (v : SegReg) : (s.setSeg g v).seg g = v := by
  cases g <;> rfl

theorem setSeg_seg_other (s : State) (g g' : Seg) (v : SegReg) (h : g' ≠ g) : (s.setSeg g v).seg g' = s.seg g' := by
  rw [setSeg_seg, if_neg h]

/-! ## markAccessed -/

@[simp] theorem markAccessed_regs (s : State) (u : Option Nat) : (s.markAccessed u).regs = s.regs := by
  cases u <;> rfl

@[simp] theorem markAccessed_pc (s : State) (u : Option Nat) : (s.markAccessed u).pc = s.pc := by
  cases u <;> rfl

@[simp] theorem markAccessed_mode (s : State) (u : Option Nat) : (s.markAccessed u).mode = s.mode := by
  cases u <;> rfl

@[simp] theorem markAccessed_cpl (s : State) (u : Option Nat) : (s.markAccessed u).cpl = s.cpl := by
  cases u <;> rfl

@[simp] theorem markAccessed_gdtr (s : State) (u : Option Nat) : (s.markAccessed u).gdtr = s.gdtr := by
  cases u <;> rfl

@[simp] theorem markAccessed_ldtr (s : State) (u : Option Nat) : (s.markAccessed u).ldtr = s.ldtr := by
  cases u <;> rfl

@[simp] theorem markAccessed_acEnabled (s : State) (u : Option Nat) : (s.markAccessed u).acEnabled = s.acEnabled := by
  cases u <;> rfl

@[simp] theorem markAccessed_flags (s : State) (u : Option Nat) : (s.markAccessed u).flags = s.flags := by
  cases u <;> rfl

@[simp] theorem markAccessed_cfg (s : State) (u : Option Nat) : (s.markAccessed u).cfg = s.cfg := by
  cases u <;> rfl

@[simp] theorem markAccessed_draws (s : State) (u : Option Nat) : (s.markAccessed u).draws = s.draws := by
  cases u <;> rfl

@[simp] theorem markAccessed_cs (s : State) (u : Option Nat) : (s.markAccessed u).cs = s.cs := by
  cases u <;> rfl

@[simp] theorem markAccessed_ds (s : State) (u : Option Nat) : (s.markAccessed u).ds = s.ds := by
  cases u <;> rfl

@[simp] theorem markAccessed_es (s : State) (u : Option Nat) : (s.markAccessed u).es = s.es := by
  cases u <;> rfl

@[simp] theorem markAccessed_fs (s : State) (u : Option Nat) : (s.markAccessed u).fs = s.fs := by
  cases u <;> rfl

@[simp] theorem markAccessed_gs (s : State) (u : Option Nat) : (s.markAccessed u).gs = s.gs := by
  cases u <;> rfl

@[simp] theorem markAccessed_ss (s : State) (u : Option Nat) : (s.markAccessed u).ss = s.ss := by
  cases u <;> rfl

@[simp] theorem markAccessed_seg (s : State) (u : Option Nat) (g : Seg) : (s.markAccessed u).seg g = s.seg g := by
  cases g <;> simp [State.seg]

@[simp] theorem markAccessed_none (s : State) : s.markAccessed none = s := rfl

@[simp] theorem markAccessed_some_mem (s : State) (a : Nat) :
    (s.markAccessed (some a)).mem = s.mem.write a (s.byteAt a ||| 1#8) := rfl

@[simp] theorem markAccessed_some_modifiedCode (s : State) (a : Nat) :
    (s.markAccessed (some a)).modifiedCode = a :: s.modifiedCode := rfl

/-! ## commit -/

section commit

variable (s : State) (g : Seg) (o : OpSize) (d : BitVec 4) (off : BitVec 64) (n : SegLoad) (len : Nat)

@[simp] theorem commit_regs : (s.commit g o d off n len).regs = s.writeReg o d off := rfl

@[simp] theorem commit_pc : (s.commit g o d off n len).pc = s.pc + BitVec.ofNat 64 len := rfl

@[simp] theorem commit_draws :
    (s.commit g o d off n len).draws = if n.drawn || s.drawsUpper o then s.draws + 1 else s.draws := rfl

@[simp] theorem commit_mem : (s.commit g o d off n len).mem = (s.markAccessed n.accessed).mem := by
  simp [State.commit]

@[simp] theorem commit_modifiedCode :
    (s.commit g o d off n len).modifiedCode = (s.markAccessed n.accessed).modifiedCode := by
  simp [State.commit]

@[simp] theorem commit_mode : (s.commit g o d off n len).mode = s.mode := by
  simp [State.commit]

@[simp] theorem commit_cpl : (s.commit g o d off n len).cpl = s.cpl := by
  simp [State.commit]

@[simp] theorem commit_gdtr : (s.commit g o d off n len).gdtr = s.gdtr := by
  simp [State.commit]

@[simp] theorem commit_ldtr : (s.commit g o d off n len).ldtr = s.ldtr := by
  simp [State.commit]

@[simp] theorem commit_acEnabled : (s.commit g o d off n len).acEnabled = s.acEnabled := by
  simp [State.commit]

@[simp] theorem commit_flags : (s.commit g o d off n len).flags = s.flags := by
  simp [State.commit]

@[simp] theorem commit_cfg : (s.commit g o d off n len).cfg = s.cfg := by
  simp [State.commit]

theorem commit_seg (g' : Seg) :
    (s.commit g o d off n len).seg g' = if g' = g then n.reg else s.seg g' := by
  have h : (s.commit g o d off n len).seg g' = ((s.markAccessed n.accessed).setSeg g n.reg).seg g' := by
    cases g' <;> rfl
  rw [h, setSeg_seg, markAccessed_seg]

@[simp] theorem commit_seg_same : (s.commit g o d off n len).seg g = n.reg := by
  rw [commit_seg, if_pos rfl]

theorem commit_seg_other (g' : Seg) (h : g' ≠ g) : (s.commit g o d off n len).seg g' = s.seg g' := by
  rw [commit_seg, if_neg h]

/-- The destination register after an instruction. -/
@[simp] theorem commit_gpr_same : (s.commit g o d off n len).gpr d = s.narrowWrite o (s.gpr d) off := by
  simp [State.gpr, State.writeReg]

/-- Every other general register after an instruction (R123). -/
theorem commit_gpr_other (i : BitVec 4) (h : i ≠ d) : (s.commit g o d off n len).gpr i = s.gpr i := by
  have : d.toNat ≠ i.toNat := fun e => h (BitVec.eq_of_toNat_eq e.symm)
  simp [State.gpr, State.writeReg, this]

end commit

end Sys2Proof.Machine
end

