-- ==== Sys2Proof/Laws/Memory.lean ====
section
/-! SUPPORT. Memory: what reading a byte after a write gives, and that every memory operation keeps the canonical
form. -/

namespace Sys2Proof.Machine

theorem wfFrom_mono {lo lo' : Nat} {m : Memory} (h : lo' ≤ lo) (hw : m.wfFrom lo = true) : m.wfFrom lo' = true := by
  cases m with
  | nil => rfl
  | cons c m =>
    obtain ⟨k, b⟩ := c
    simp only [Memory.wfFrom, Bool.and_eq_true, decide_eq_true_eq] at hw ⊢
    exact ⟨⟨⟨h.trans hw.1.1.1, hw.1.1.2⟩, hw.1.2⟩, hw.2⟩

/-- Below the lowest listed address memory reads as unlisted. -/
theorem read_below {lo a : Nat} {m : Memory} (hw : m.wfFrom lo = true) (h : a < lo) : m.read a = unlistedByte := by
  induction m generalizing lo with
  | nil => rfl
  | cons c m ih =>
    obtain ⟨k, b⟩ := c
    simp only [Memory.wfFrom, Bool.and_eq_true, decide_eq_true_eq] at hw
    rw [Memory.read, if_neg (by omega)]
    exact ih hw.2 (by omega)

/-- Reading after a write, in canonical memory. -/
theorem read_write {lo : Nat} {m : Memory} (hw : m.wfFrom lo = true) (a x : Nat) (v : Byte) :
    (m.write a v).read x = if x = a then v else m.read x := by
  induction m generalizing lo with
  | nil =>
    simp only [Memory.write, Memory.read]
    split <;> rename_i hv
    · split <;> simp_all [Memory.read]
    · simp only [Memory.read, eq_comm]
  | cons c m ih =>
    obtain ⟨k, b⟩ := c
    have hw' := hw
    simp only [Memory.wfFrom, Bool.and_eq_true, decide_eq_true_eq] at hw
    simp only [Memory.write]
    split
    · rename_i hlt
      have hx : ∀ y, y = a → Memory.read ((k, b) :: m) y = unlistedByte := by
        rintro y rfl
        rw [Memory.read, if_neg (by omega)]
        exact read_below hw.2 (by omega)
      split <;> rename_i hv
      · split <;> rename_i hxa
        · rw [hx x hxa, hv]
        · rfl
      · rw [Memory.read]
        simp only [eq_comm (a := x)]
    · split
      · rename_i _ hak
        subst hak
        split <;> rename_i hv
        · split <;> rename_i hxa
          · rw [hxa, hv]; exact read_below hw.2 (by omega)
          · rw [Memory.read, if_neg (fun h => hxa h.symm)]
        · simp only [Memory.read, eq_comm (a := x)]
          split <;> rfl
      · rename_i h1 h2
        simp only [Memory.read]
        split
        · rename_i hkx
          rw [if_neg (by omega)]
        · exact ih hw.2

/-- A write keeps the canonical form, above any bound that is not above the address. -/
theorem wfFrom_write {lo : Nat} {m : Memory} (hw : m.wfFrom lo = true) {a : Nat} (v : Byte) (hlo : lo ≤ a)
    (ha : a < 2 ^ 64) : (m.write a v).wfFrom lo = true := by
  induction m generalizing lo with
  | nil =>
    simp only [Memory.write]
    split <;> simp_all [Memory.wfFrom]
  | cons c m ih =>
    obtain ⟨k, b⟩ := c
    have hw' := hw
    simp only [Memory.wfFrom, Bool.and_eq_true, decide_eq_true_eq] at hw
    simp only [Memory.write]
    split
    · split
      · exact hw'
      · simp only [Memory.wfFrom, Bool.and_eq_true, decide_eq_true_eq]
        exact ⟨⟨⟨hlo, ha⟩, by simpa using ‹_›⟩, ⟨⟨by omega, hw.1.1.2⟩, hw.1.2⟩, hw.2⟩
    · split
      · rename_i hak
        split
        · exact wfFrom_mono (by omega) hw.2
        · simp only [Memory.wfFrom, Bool.and_eq_true, decide_eq_true_eq]
          exact ⟨⟨⟨hlo, ha⟩, by simpa using ‹_›⟩, hak ▸ hw.2⟩
      · simp only [Memory.wfFrom, Bool.and_eq_true, decide_eq_true_eq]
        exact ⟨hw.1, ih hw.2 (by omega)⟩

/-- A write at an address of the address space keeps the canonical form. -/
theorem wf_write {m : Memory} (hw : m.wf = true) {a : Nat} (v : Byte) (ha : a < 2 ^ 64) : (m.write a v).wf = true :=
  wfFrom_write hw v (Nat.zero_le a) ha

/-- The accessed-bit update changes one byte: it sets bit 0 there (R160). -/
theorem markAccessed_byteAt {s : State} (hw : s.mem.wf = true) (u : Option Nat) (x : Nat) :
    (s.markAccessed u).byteAt x = if u = some x then s.byteAt x ||| 1#8 else s.byteAt x := by
  cases u with
  | none => simp
  | some a =>
    have h := read_write (v := s.byteAt a ||| 1#8) hw a x
    by_cases hx : x = a
    · subst hx
      simpa [State.byteAt] using h
    · rw [if_neg (by simpa using fun e => hx e.symm)]
      simpa [State.byteAt, hx] using h

/-- The accessed-bit update keeps the canonical form. -/
theorem markAccessed_wf {s : State} (hw : s.mem.wf = true) (u : Option Nat) (hu : ∀ a, u = some a → a < 2 ^ 64) :
    (s.markAccessed u).mem.wf = true := by
  cases u with
  | none => exact hw
  | some a => exact wf_write hw _ (hu a rfl)

/-- Storing code keeps the canonical form. -/
theorem storeCode_wf {s : State} (hw : s.mem.wf = true) (as : List (BitVec 64)) (bs : List Byte) :
    (s.storeCode as bs).mem.wf = true := by
  induction as generalizing s bs with
  | nil => simpa [State.storeCode] using hw
  | cons a as ih =>
    cases bs with
    | nil => simpa [State.storeCode] using hw
    | cons b bs => exact ih (wf_write hw _ a.isLt) bs

/-- Memory at reset is canonical. -/
theorem reset_mem_wf : State.reset.mem.wf = true := rfl

end Sys2Proof.Machine
end

