-- ==== Sys2Proof/Laws/Exec.lean ====
section
/-! SUPPORT. What each shared operation can do, said once: `exec` over `loadFarPointer`, the encoding and operand
checks, translation, the descriptor reads and each case of the segment load. -/

namespace Sys2Proof.Machine

/-! ## Checks that may end an instruction -/

theorem bind_eq_ok {α β : Type} {x : Check α} {f : α → Check β} {b : β} :
    (x >>= f) = .ok b ↔ ∃ a, x = .ok a ∧ f a = .ok b := by
  cases x <;> simp [bind, Except.bind]

theorem bind_eq_error {α β : Type} {x : Check α} {f : α → Check β} {e : Stop} :
    (x >>= f) = .error e ↔ x = .error e ∨ ∃ a, x = .ok a ∧ f a = .error e := by
  cases x <;> simp [bind, Except.bind]

@[simp] theorem raise_ne_ok {α : Type} (f : Fault) (a : α) : (raise f : Check α) ≠ .ok a := by simp [raise]

@[simp] theorem refuse_ne_ok {α : Type} (r : Refusal) (a : α) : (refuse r : Check α) ≠ .ok a := by simp [refuse]

@[simp] theorem finish_eq_next {c : Check State} {t : State} : finish c = .next t ↔ c = .ok t := by
  rcases c with (_ | _) | _ <;> simp [finish]

@[simp] theorem finish_eq_fault {c : Check State} {f : Fault} : finish c = .fault f ↔ c = .error (.fault f) := by
  rcases c with (_ | _) | _ <;> simp [finish]

@[simp] theorem finish_eq_refused {c : Check State} {r : Refusal} :
    finish c = .refused r ↔ c = .error (.refuse r) := by
  rcases c with (_ | _) | _ <;> simp [finish]

/-- Every form is `loadFarPointer` of its mnemonic, operand size and operands (R200, R236 to R248). -/
theorem exec_eq (i : Instr) (s : State) : exec i s = finish (s.loadFarPointer i.mnem i.osz i.enc) := by
  cases i <;> rfl

@[simp] theorem formOf_self (i : Instr) : formOf i.mnem i.osz i.enc = i := by cases i <;> rfl

/-! ## The encoding check -/

theorem checkEncoding_eq_ok {i : Instr} {s : State} :
    s.checkEncoding i.mnem i.osz i.enc = .ok () ↔ Executable i s := by
  unfold State.checkEncoding
  rw [formOf_self]
  constructor
  · intro h
    split at h
    · simp at h
    · split at h
      · simp at h
      · split at h
        · rename_i h1 h2 h3
          simp only [State.undefinedOpcode, Bool.or_eq_true, Bool.and_eq_true, beq_iff_eq, not_or] at h2
          exact ⟨h3, by simpa using h2.1.1, by simpa using h2.1.2, h2.2⟩
        · simp at h
  · rintro ⟨h1, h2, h3, h4⟩
    have hv : s.vexClaims i.mnem i.enc = false := by
      simp only [State.vexClaims, h3, Bool.or_false]
      by_cases hl : s.mode = .long64
      · simp [hl, show i.mnem.isLdsLes = false by simpa using fun h => h4 ⟨hl, h⟩]
      · simp [hl]
    have hu : s.undefinedOpcode i.mnem i.enc = false := by
      simp only [State.undefinedOpcode, h2, h3, Bool.or_false, Bool.false_or]
      simpa using fun hl => by simpa using fun h => h4 ⟨hl, h⟩
    simp [hv, hu, h1]

/-! ## Translation -/

theorem translate_error {s : State} {k : AccessKind} {p : Privilege} {la : BitVec 64} {e : Stop}
    (h : s.translate k p la = .error e) : s.mode ≠ .real ∧ ∃ code, e = .fault (.pf code la) := by
  unfold State.translate at h
  split at h
  · simp at h
  · rename_i hm
    split at h
    · simp at h
    · split at h
      · simp at h
      · exact ⟨hm, _, (Except.error.inj h).symm⟩

/-- A translation that fails is a page fault, never in real-address mode (R152). -/
theorem translateAll_error {s : State} {k : AccessKind} {p : Privilege} {las : List (BitVec 64)} {e : Stop}
    (h : s.translateAll k p las = .error e) : s.mode ≠ .real ∧ ∃ code la, e = .fault (.pf code la) := by
  induction las generalizing e with
  | nil => simp [State.translateAll] at h
  | cons la las ih =>
    simp only [State.translateAll] at h
    split at h
    · rename_i e' he
      obtain ⟨hm, c, hc⟩ := translate_error he
      cases h
      exact ⟨hm, c, la, hc⟩
    · split at h
      · rename_i e' he
        cases h
        exact ih he
      · simp at h

/-- In real-address mode translation is the identity (R152). -/
theorem translateAll_real {s : State} (hm : s.mode = .real) (k : AccessKind) (p : Privilege) (las : List (BitVec 64)) :
    s.translateAll k p las = .ok las := by
  induction las with
  | nil => rfl
  | cons la las ih => simp [State.translateAll, State.translate, hm, ih]

theorem refuseSideEffect_eq_ok {s : State} {as bs : List (BitVec 64)} :
    s.refuseSideEffect as = .ok bs ↔ bs = as ∧ ∀ a ∈ as, s.hasSideEffect a = false := by
  unfold State.refuseSideEffect
  split
  · rename_i h
    simp only [List.any_eq_true] at h
    obtain ⟨a, ha, hs⟩ := h
    simp only [refuse_ne_ok, false_iff, not_and]
    exact fun _ hall => by simp [hall a ha] at hs
  · rename_i h
    simp only [List.any_eq_true, not_exists, not_and, Bool.not_eq_true] at h
    exact ⟨fun hh => ⟨(Except.ok.inj hh).symm, h⟩, fun hh => by rw [hh.1]⟩

theorem refuseSideEffect_error {s : State} {as : List (BitVec 64)} {e : Stop}
    (h : s.refuseSideEffect as = .error e) : e = .refuse .sideEffectMemory := by
  unfold State.refuseSideEffect at h
  split at h
  · exact (Except.error.inj h).symm
  · simp at h

/-! ## The operand checks -/

theorem checkOperand_eq_ok {s : State} {r : MemRef} {o : OpSize} {as : List (BitVec 64)} :
    s.checkOperand r o = .ok as ↔ OperandReadable s r o as := by
  unfold State.checkOperand
  rw [bind_eq_ok]
  constructor
  · rintro ⟨_, hseg, hrest⟩
    split at hrest
    · simp at hrest
    rename_i hw
    simp only [State.checkAccess] at hrest
    split at hrest
    · split at hrest <;> simp at hrest
    rename_i ps hps
    split at hrest
    · simp at hrest
    rename_i hal
    obtain ⟨rfl, hpl⟩ := refuseSideEffect_eq_ok.1 hrest
    refine ⟨?_, ?_, by simpa using hw, by simpa using hal, hps, hpl⟩
    · intro hl
      simp only [State.checkSegment, if_pos hl] at hseg
      split at hseg
      · rename_i h
        simpa using h
      · simp at hseg
    · intro hl
      simp only [State.checkSegment, if_neg hl] at hseg
      split at hseg
      · simp at hseg
      split at hseg
      · simp at hseg
      split at hseg
      · simp at hseg
      rename_i h1 h2 h3
      exact ⟨by simpa using h1, by simpa using h2, by simpa using h3⟩
  · intro h
    refine ⟨(), ?_, ?_⟩
    · unfold State.checkSegment
      split
      · rename_i hl
        obtain ⟨h1, h2⟩ := h.canonical hl
        have h2' : s.canonical (s.operandLinear r + BitVec.ofNat 64 (o.bytes + 2 - 1)) = true := h2
        simp only [h1, h2', Bool.and_self, if_true]
      · rename_i hl
        obtain ⟨h1, h2, h3⟩ := h.segmented hl
        simp [h1, h2, h3]
    · simp only [h.noWrap, Bool.false_eq_true, if_false, State.checkAccess, h.translated, h.aligned]
      exact refuseSideEffect_eq_ok.2 ⟨rfl, h.plainMemory⟩

/-! ## The descriptor -/

theorem readDescriptor_eq_ok {s : State} {sel : BitVec 16} {d : BitVec 64} :
    s.readDescriptor sel = .ok d ↔ DescriptorRead s sel d := by
  unfold State.readDescriptor DescriptorRead
  simp only [bind_eq_ok, refuseSideEffect_eq_ok]
  constructor
  · rintro ⟨as, h1, bs, ⟨rfl, h2⟩, h3⟩
    exact ⟨bs, h1, h2, (Except.ok.inj h3).symm⟩
  · rintro ⟨as, h1, h2, rfl⟩
    exact ⟨as, h1, as, ⟨rfl, h2⟩, rfl⟩

/-- A descriptor read that fails is a page fault, or a refusal of memory with side effects. -/
theorem readDescriptor_error {s : State} {sel : BitVec 16} {e : Stop} (h : s.readDescriptor sel = .error e) :
    (s.mode ≠ .real ∧ ∃ code la, e = .fault (.pf code la)) ∨ e = .refuse .sideEffectMemory := by
  unfold State.readDescriptor at h
  rcases bind_eq_error.1 h with h | ⟨as, _, h⟩
  · exact .inl (translateAll_error h)
  · rcases bind_eq_error.1 h with h | ⟨bs, _, h⟩
    · exact .inr (refuseSideEffect_error h)
    · simp [pure, Except.pure] at h

theorem accessedByte_eq_ok {s : State} {sel : BitVec 16} {a : Nat} :
    s.accessedByte sel = .ok a ↔ ∃ as, s.translateAll .rmw .supervisor (s.descBytes sel) = .ok as ∧
      (∀ x ∈ as, s.hasSideEffect x = false) ∧ a = (as.getD 5 0#64).toNat := by
  unfold State.accessedByte
  split
  · rename_i h
    simp [h]
  · rename_i as h
    simp only [bind_eq_ok, refuseSideEffect_eq_ok, h, Except.ok.injEq]
    constructor
    · rintro ⟨bs, ⟨rfl, h2⟩, h3⟩
      exact ⟨bs, rfl, h2, (Except.ok.inj h3).symm⟩
    · rintro ⟨bs, rfl, h2, rfl⟩
      exact ⟨as, ⟨rfl, h2⟩, rfl⟩

theorem accessedByte_error {s : State} {sel : BitVec 16} {e : Stop} (h : s.accessedByte sel = .error e) :
    e = .refuse .accessedBitFault ∨ e = .refuse .sideEffectMemory := by
  unfold State.accessedByte at h
  split at h
  · exact .inl (Except.error.inj h).symm
  · rcases bind_eq_error.1 h with h | ⟨bs, _, h⟩
    · exact .inr (refuseSideEffect_error h)
    · simp [pure, Except.pure] at h

/-- What a load that passed its tests answers (R160, R223 to R225, R227). -/
theorem loadDescriptor_eq_ok {s : State} {sel : BitVec 16} {d : BitVec 64} {n : SegLoad} :
    s.loadDescriptor sel d = .ok n ↔
      n.reg = { sel := sel, valid := true, hid := unpack (withAccessed d) } ∧ AccessedUpdate s sel d n.accessed ∧
        n.drawn = false := by
  obtain ⟨reg, acc, dr⟩ := n
  unfold State.loadDescriptor AccessedUpdate
  simp only [Bool.or_eq_true, Bool.not_eq_true']
  by_cases hc : isAccessed d = true ∨ s.cfg.setAccessed = false
  · simp only [if_pos hc, Except.ok.injEq, SegLoad.mk.injEq]
    exact ⟨fun ⟨a, b, c⟩ => ⟨a.symm, b.symm, c.symm⟩, fun ⟨a, b, c⟩ => ⟨a.symm, b.symm, c.symm⟩⟩
  · simp only [if_neg hc]
    cases hb : s.accessedByte sel with
    | error e =>
      simp only [reduceCtorEq, false_iff, not_and]
      rintro - ⟨as, h1, h2, rfl⟩
      have := accessedByte_eq_ok.2 ⟨as, h1, h2, rfl⟩
      simp [hb] at this
    | ok a =>
      simp only [Except.ok.injEq, SegLoad.mk.injEq]
      obtain ⟨as, h1, h2, rfl⟩ := accessedByte_eq_ok.1 hb
      constructor
      · rintro ⟨rfl, rfl, rfl⟩
        exact ⟨rfl, ⟨as, h1, h2, rfl⟩, rfl⟩
      · rintro ⟨rfl, ⟨bs, h3, -, rfl⟩, rfl⟩
        rw [h1] at h3
        cases h3
        exact ⟨rfl, rfl, rfl⟩

theorem loadDescriptor_error {s : State} {sel : BitVec 16} {d : BitVec 64} {e : Stop}
    (h : s.loadDescriptor sel d = .error e) : e = .refuse .accessedBitFault ∨ e = .refuse .sideEffectMemory := by
  unfold State.loadDescriptor at h
  simp only at h
  split at h
  · simp at h
  · split at h
    · rename_i e' he
      cases h
      exact accessedByte_error he
    · simp at h

/-! ## The segment load -/

/-- The tests an SS load passes after the table-limit test (R223, R227). -/
theorem loadSs_eq_ok {s : State} {sel : BitVec 16} {n : SegLoad} :
    s.loadSs sel = .ok n ↔ ∃ d, DescriptorRead s sel d ∧ rpl sel = s.cpl ∧ isWritableData d = true ∧
      descDpl d = s.cpl ∧ isPresent d = true ∧ s.loadDescriptor sel d = .ok n := by
  unfold State.loadSs
  cases hr : s.readDescriptor sel with
  | error e =>
    simp only
    constructor
    · intro h
      split at h <;> simp at h
    · rintro ⟨d, hd, -⟩
      rw [readDescriptor_eq_ok.2 hd] at hr
      cases hr
  | ok d =>
    simp only
    constructor
    · intro h
      split at h
      · simp at h
      split at h
      · simp at h
      rename_i h1 h2
      simp only [Bool.or_eq_true, bne_iff_ne, Bool.not_eq_true', not_or, not_not] at h1
      exact ⟨d, readDescriptor_eq_ok.1 hr, h1.1.1, by simpa using h1.1.2, h1.2, by simpa using h2, h⟩
    · rintro ⟨d', hd, h1, h2, h3, h4, h5⟩
      rw [readDescriptor_eq_ok.2 hd] at hr
      cases hr
      simp [h1, h2, h3, h4, h5]

/-- The tests a DS, ES, FS or GS load passes after the address tests (R224, R225). -/
theorem loadData_eq_ok {s : State} {sel : BitVec 16} {n : SegLoad} :
    s.loadData sel = .ok n ↔ ∃ d, DescriptorRead s sel d ∧ (isData d = true ∨ isReadableCode d = true) ∧
      s.privilegeFails sel d = false ∧ isPresent d = true ∧ s.loadDescriptor sel d = .ok n := by
  unfold State.loadData
  cases hr : s.readDescriptor sel with
  | error e =>
    simp only [reduceCtorEq, false_iff, not_exists, not_and]
    intro d hd
    rw [readDescriptor_eq_ok.2 hd] at hr
    cases hr
  | ok d =>
    simp only
    constructor
    · intro h
      split at h
      · simp at h
      split at h
      · simp at h
      rename_i h1 h2
      simp only [Bool.or_eq_true, Bool.not_eq_true', not_or] at h1
      exact ⟨d, readDescriptor_eq_ok.1 hr, by simpa only [Bool.not_eq_false, Bool.or_eq_true] using h1.1, by simpa using h1.2,
        by simpa using h2, h⟩
    · rintro ⟨d', hd, h1, h2, h3, h4⟩
      rw [readDescriptor_eq_ok.2 hd] at hr
      cases hr
      have : (isData d || isReadableCode d) = true := by simpa using h1
      simp [this, h2, h3, h4]

/-! ## The whole instruction -/

theorem checkNextPc_eq_ok {s : State} {len : Nat} : s.checkNextPc len = .ok () ↔ NextPcInRange s len := by
  unfold State.checkNextPc NextPcInRange
  split <;> rename_i h
  · simpa using h
  · simpa using h

theorem operandRef_eq_ok {s : State} {m : Mnem} {e : Enc} {r : MemRef} :
    s.operandRef m e = .ok r ↔ s.memRef e (e.length m) = some r := by
  unfold State.operandRef
  cases s.memRef e (e.length m) <;> simp

/-- Everything an instruction can do when it answers a next state. -/
theorem exec_eq_next {i : Instr} {s t : State} :
    exec i s = .next t ↔ ∃ r as n, Ready i s r as ∧ s.newSegment i.mnem.seg (s.readSelector i.osz as) = .ok n ∧
      NextPcInRange s i.length ∧
      t = s.commit i.mnem.seg i.osz i.enc.dest (s.readOffset i.osz as) n i.length := by
  rw [exec_eq, finish_eq_next]
  unfold State.loadFarPointer
  simp only [bind_eq_ok, operandRef_eq_ok, checkOperand_eq_ok]
  constructor
  · rintro ⟨_, h1, r, h2, as, h3, n, h4, _, h5, h6⟩
    exact ⟨r, as, n, ⟨checkEncoding_eq_ok.1 h1, h2, h3⟩, h4, checkNextPc_eq_ok.1 h5, (Except.ok.inj h6).symm⟩
  · rintro ⟨r, as, n, h, h4, h5, rfl⟩
    exact ⟨(), checkEncoding_eq_ok.2 h.executable, r, h.address, as, h.readable, n, h4, (),
      checkNextPc_eq_ok.2 h5, rfl⟩

/-- What an instruction that reaches the segment load does is what the load does, and then the completion. -/
theorem exec_of_ready {i : Instr} {s : State} {r : MemRef} {as : List (BitVec 64)} (h : Ready i s r as) :
    exec i s = finish (do
      let n ← s.newSegment i.mnem.seg (s.readSelector i.osz as)
      s.checkNextPc i.length
      return s.commit i.mnem.seg i.osz i.enc.dest (s.readOffset i.osz as) n i.length) := by
  rw [exec_eq]
  have h1 := checkEncoding_eq_ok.2 h.executable
  have h2 : s.operandRef i.mnem i.enc = .ok r := operandRef_eq_ok.2 h.address
  have h3 := checkOperand_eq_ok.2 h.readable
  unfold State.loadFarPointer
  simp only [h1, h2, h3, bind, Except.bind]
  rfl

/-- A load that stops the instruction stops it with the same stop. -/
theorem exec_fault_of_newSegment {i : Instr} {s : State} {r : MemRef} {as : List (BitVec 64)} (h : Ready i s r as)
    {f : Fault} (hf : s.newSegment i.mnem.seg (s.readSelector i.osz as) = raise f) : exec i s = .fault f := by
  rw [exec_of_ready h, hf]
  rfl

/-- A load that answers, with `pc + L` in range, completes the instruction. -/
theorem exec_next_of_newSegment {i : Instr} {s : State} {r : MemRef} {as : List (BitVec 64)} (h : Ready i s r as)
    {n : SegLoad} (hn : s.newSegment i.mnem.seg (s.readSelector i.osz as) = .ok n) (hp : NextPcInRange s i.length) :
    exec i s = .next (s.commit i.mnem.seg i.osz i.enc.dest (s.readOffset i.osz as) n i.length) :=
  exec_eq_next.2 ⟨r, as, n, h, hn, hp, rfl⟩

/-! ## Cases, for the frames and the invariant -/

/-- What an executable instruction does: the operand checks, the load, the completion. -/
theorem exec_of_executable {i : Instr} {s : State} {r : MemRef} (h : Executable i s)
    (hr : s.memRef i.enc i.length = some r) :
    exec i s = finish (do
      let as ← s.checkOperand r i.osz
      let n ← s.newSegment i.mnem.seg (s.readSelector i.osz as)
      s.checkNextPc i.length
      return s.commit i.mnem.seg i.osz i.enc.dest (s.readOffset i.osz as) n i.length) := by
  rw [exec_eq]
  have h1 := checkEncoding_eq_ok.2 h
  have h2 : s.operandRef i.mnem i.enc = .ok r := operandRef_eq_ok.2 hr
  unfold State.loadFarPointer
  simp only [h1, h2, bind, Except.bind]
  rfl

/-- An operand check that stops the instruction stops it with the same stop. -/
theorem exec_of_checkOperand_error {i : Instr} {s : State} {r : MemRef} (h : Executable i s)
    (hr : s.memRef i.enc i.length = some r) {e : Stop} (he : s.checkOperand r i.osz = .error e) : exec i s = finish (.error e) := by
  rw [exec_of_executable h hr, he]; rfl

/-- The NULL selectors are those up to 3 (R126). -/
theorem isNull_iff (sel : BitVec 16) : isNull sel = true ↔ sel.toNat ≤ 3 := by
  unfold isNull
  rw [beq_iff_eq, ← BitVec.toNat_inj]
  simp [BitVec.extractLsb'_toNat, Nat.shiftRight_eq_div_pow]
  have := sel.isLt
  omega

/-- An instruction writes its destination as R122 and R229 say. -/
theorem destWritten_commit (s : State) (g : Seg) (o : OpSize) (d : BitVec 4) (off : BitVec 64) (n : SegLoad)
    (len : Nat) : DestWritten s (s.commit g o d off n len) o d off := by
  unfold DestWritten
  have hg := commit_gpr_same s g o d off n len
  cases o
  · simp only [State.x16, State.x64, hg, State.narrowWrite]
    refine ⟨?_, ?_⟩
    · ext i hi; simp only [BitVec.getElem_setWidth, BitVec.getLsbD_append, if_pos hi, BitVec.getLsbD_setWidth]; simp [hi]
    · ext i hi
      simp only [BitVec.getElem_extractLsb', BitVec.getLsbD_append, BitVec.getLsbD_extractLsb']
      by_cases h : 16 + i < 32
      · simp [h, show ¬ (16 + i < 16) by omega, show i < 16 by omega]
      · simp [h]
  · simp only [State.x32, State.x64, hg, State.narrowWrite]
    refine ⟨trivial, ?_⟩
    intro hm
    rw [if_pos hm]
    ext i hi; rw [BitVec.getElem_append]
    by_cases h2 : i < 32 <;> simp [BitVec.getElem_setWidth, h2]
  · simp only [State.x64, hg, State.narrowWrite]
    ext i hi; rw [BitVec.getElem_append]
    split
    · simp [BitVec.getElem_setWidth, BitVec.getLsbD_eq_getElem hi]
    · rw [BitVec.getElem_extractLsb', show 32 + (i - 32) = i by omega, BitVec.getLsbD_eq_getElem hi]

/-- What an instruction leaves, in canonical memory (steps 6 to 8 of R200). -/
theorem loaded_commit {i : Instr} {s : State} {as : List (BitVec 64)} {n : SegLoad}
    (hw : s.mem.wf = true ∨ n.accessed = none) :
    Loaded i s (s.commit i.mnem.seg i.osz i.enc.dest (s.readOffset i.osz as) n i.length) as n.reg n.accessed := by
  refine ⟨by simp, destWritten_commit _ _ _ _ _ _ _, rfl, ?_⟩
  intro a
  have : ∀ t : State, t.mem = (s.markAccessed n.accessed).mem → t.byteAt a = (s.markAccessed n.accessed).byteAt a := by
    intro t h; simp [State.byteAt, h]
  rw [this _ (commit_mem ..)]
  rcases hw with hw | hw
  · exact markAccessed_byteAt hw _ _
  · simp [hw]

theorem not_real_of_checksSegments {s : State} (h : s.checksSegments) : ¬ (s.mode = .real ∨ s.mode = .v86) := by
  rcases h with h | h | h <;> simp [h]

/-- Everything a segment load can answer, by mode and selector (R222 to R228). -/
theorem newSegment_cases {s : State} {g : Seg} {sel : BitVec 16} {n : SegLoad} (h : s.newSegment g sel = .ok n) :
   ((s.mode = .real ∨ s.mode = .v86) ∧ n = s.newSegmentReal g sel) ∨
   (s.checksSegments ∧ isNull sel = true ∧ g ≠ .ss ∧ n = s.newSegmentNull sel) ∨
   (s.mode = .long64 ∧ isNull sel = true ∧ g = .ss ∧ s.cpl ≠ 3#2 ∧ rpl sel = s.cpl ∧
     n = { reg := { sel := sel, valid := false, hid := Config.nullSsHidden s.draws }, accessed := none,
           drawn := true }) ∨
   (s.checksSegments ∧ isNull sel = false ∧ s.inTable sel = true ∧
     ((g = .ss ∧ s.loadSs sel = .ok n) ∨ (g ≠ .ss ∧ s.loadData sel = .ok n))) := by
  unfold State.newSegment at h
  have hc : ∀ m, s.mode = m → (m = .prot ∨ m = .compat ∨ m = .long64) → s.checksSegments := by
    rintro m rfl h; exact h
  split at h
  · rename_i hm; left; exact ⟨.inl hm, (Except.ok.inj h).symm⟩
  · rename_i hm; left; exact ⟨.inr hm, (Except.ok.inj h).symm⟩
  · rename_i hm
    split at h
    · unfold State.newSegmentSsProt at h
      split at h; · simp at h
      split at h; · simp at h
      rename_i h1 h2 h3
      right; right; right; exact ⟨hc _ hm (by simp), by simpa using h2, by simpa using h3, .inl ⟨h1, h⟩⟩
    · split at h
      · right; left; exact ⟨hc _ hm (by simp), by assumption, by assumption, (Except.ok.inj h).symm⟩
      · unfold State.newSegmentDataProt at h
        split at h; · simp at h
        rename_i h1 h2 h3
        right; right; right; exact ⟨hc _ hm (by simp), by simpa using h2, by simpa using h3, .inr ⟨h1, h⟩⟩
  · rename_i hm
    split at h
    · unfold State.newSegmentSsProt at h
      split at h; · simp at h
      split at h; · simp at h
      rename_i h1 h2 h3
      right; right; right; exact ⟨hc _ hm (by simp), by simpa using h2, by simpa using h3, .inl ⟨h1, h⟩⟩
    · split at h
      · right; left; exact ⟨hc _ hm (by simp), by assumption, by assumption, (Except.ok.inj h).symm⟩
      · unfold State.newSegmentDataProt at h
        split at h; · simp at h
        rename_i h1 h2 h3
        right; right; right; exact ⟨hc _ hm (by simp), by simpa using h2, by simpa using h3, .inr ⟨h1, h⟩⟩
  · rename_i hm
    split at h
    · split at h
      · unfold State.newSegmentSsLongNull at h
        split at h; · simp at h
        rename_i h1 h2 h3
        simp at h3
        right; right; left; exact ⟨hm, h2, h1, h3.1, h3.2, (Except.ok.inj h).symm⟩
      · unfold State.newSegmentSsLong at h
        split at h; · simp at h
        split at h; · simp at h
        rename_i h1 h2 h3 h4
        right; right; right; exact ⟨hc _ hm (by simp), by simpa using h2, by simpa using h4, .inl ⟨h1, h⟩⟩
    · split at h
      · right; left; exact ⟨hc _ hm (by simp), by assumption, by assumption, (Except.ok.inj h).symm⟩
      · unfold State.newSegmentFsGsLong at h
        split at h; · simp at h
        split at h; · simp at h
        rename_i h1 h2 h3 h4
        right; right; right; exact ⟨hc _ hm (by simp), by simpa using h2, by simpa using h3, .inr ⟨h1, h⟩⟩

/-- Every load stores the selector it was given. -/
theorem newSegment_sel {s : State} {g : Seg} {sel : BitVec 16} {n : SegLoad} (h : s.newSegment g sel = .ok n) :
    n.reg.sel = sel := by
  rcases newSegment_cases h with ⟨h1, rfl⟩ | ⟨h1, h2, h3, rfl⟩ | ⟨_, h2, _, _, _, rfl⟩ | ⟨h1, h2, _, ⟨_, h⟩ | ⟨_, h⟩⟩
  · rfl
  · rfl
  · rfl
  · obtain ⟨d', hd', _, _, _, _, hl⟩ := loadSs_eq_ok.1 h
    rw [(loadDescriptor_eq_ok.1 hl).1]
  · obtain ⟨d', hd', _, _, _, hl⟩ := loadData_eq_ok.1 h
    rw [(loadDescriptor_eq_ok.1 hl).1]

/-- The descriptor of a selector is one. -/
theorem descriptorRead_unique {s : State} {sel : BitVec 16} {d d' : BitVec 64} (h : DescriptorRead s sel d)
    (h' : DescriptorRead s sel d') : d = d' := by
  obtain ⟨as, h1, h2, rfl⟩ := h
  obtain ⟨as', h1', h2', rfl⟩ := h'
  rw [h1] at h1'; cases h1'; rfl

/-- The operand's address and its bytes' addresses are determined. -/
theorem ready_unique {i : Instr} {s : State} {r r' : MemRef} {as as' : List (BitVec 64)} (h : Ready i s r as)
    (hr : s.memRef i.enc i.length = some r')
    (ha : s.translateAll .read (.level s.cpl) (s.operandBytes r' (i.osz.bytes + 2)) = .ok as') : r = r' ∧ as = as' := by
  have := h.address; rw [hr] at this; cases this
  have := h.readable.translated; rw [ha] at this; cases this
  exact ⟨rfl, rfl⟩

/-- The hidden copy of a descriptor has its type, DPL and P (R124, R127, R160). -/
theorem unpack_withAccessed (d : BitVec 64) : let h := unpack (withAccessed d)
   h.isData = isData d ∧ h.isCode = isCode d ∧ h.writableOrReadable = d.getLsbD 41 ∧
     h.expandDownOrConforming = d.getLsbD 42 ∧ h.present = isPresent d ∧ h.dpl = descDpl d := by
  have g : ∀ k, k < 8 → k ≠ 0 → (unpack (withAccessed d)).access.getLsbD k = d.getLsbD (40 + k) := by
    intro k hk h0
    simp only [unpack, withAccessed, BitVec.getLsbD_extractLsb', BitVec.getLsbD_or]
    interval_cases k <;> simp at h0 ⊢
  have g4 := g 4 (by decide) (by decide)
  have g3 := g 3 (by decide) (by decide)
  have g2 := g 2 (by decide) (by decide)
  have g1 := g 1 (by decide) (by decide)
  have g7 := g 7 (by decide) (by decide)
  refine ⟨?_, ?_, g1, g2, g7, ?_⟩
  · simp only [Hidden.isData, Hidden.isCodeOrData, g4, g3, isData]
  · simp only [Hidden.isCode, Hidden.isCodeOrData, g4, g3, isCode]
  · ext i hi
    simp only [Hidden.dpl, descDpl, BitVec.getElem_extractLsb']
    have : i = 0 ∨ i = 1 := by omega
    rcases this with rfl | rfl
    · exact g 5 (by decide) (by decide)
    · exact g 6 (by decide) (by decide)

/-- The accessed-bit update is at an address of the address space. -/
theorem accessedUpdate_lt {s : State} {sel : BitVec 16} {d : BitVec 64} {n : Option Nat} (h : AccessedUpdate s sel d n) :
    ∀ a, n = some a → a < 2^64 := by
  intro a ha
  subst ha
  unfold AccessedUpdate at h
  split at h
  · cases h
  · obtain ⟨as, _, _, h⟩ := h; cases h; exact BitVec.isLt _

/-- A step that answers a next state executes an instruction. -/
theorem exec_of_step_eq_next {s t : State} (h : step s = .next t) : ∃ i, exec i s = .next t := by
  unfold step at h
  split at h
  · split at h
    · cases h
    · exact ⟨_, h⟩
  · unfold State.truncatedFetch at h; split at h <;> cases h
  · cases h

end Sys2Proof.Machine
end

