-- ==== Sys2Proof/Laws/PerInstr.lean ====
section
/-! SUPPORT. Statements made per instruction. `EncodeLength`: the length of the encoding, counted part by part
(R186). -/

namespace Sys2Proof.Laws.EncodeLength

/-- The encoding of the instruction has the length of R186: prefixes, opcode bytes, ModRM and what follows it. -/
def Statement (i : Instr) : Prop :=
  (encode i).length = i.enc.pfx.legacy.length + (if i.enc.pfx.rex.isSome then 1 else 0)
    + (if i.mnem = .lds ∨ i.mnem = .les then 1 else 2) + i.enc.rm.length

/-- The statement, whatever the form. -/
theorem general (i : Instr) : Statement i := by
  unfold Statement
  rw [length_encode, Instr.length, Enc.length]
  cases i.mnem <;> rfl

theorem lds16 (e : Enc) : Statement (.lds16 e) := general _
theorem lds32 (e : Enc) : Statement (.lds32 e) := general _
theorem lss16 (e : Enc) : Statement (.lss16 e) := general _
theorem lss32 (e : Enc) : Statement (.lss32 e) := general _
theorem lss64 (e : Enc) : Statement (.lss64 e) := general _
theorem les16 (e : Enc) : Statement (.les16 e) := general _
theorem les32 (e : Enc) : Statement (.les32 e) := general _
theorem lfs16 (e : Enc) : Statement (.lfs16 e) := general _
theorem lfs32 (e : Enc) : Statement (.lfs32 e) := general _
theorem lfs64 (e : Enc) : Statement (.lfs64 e) := general _
theorem lgs16 (e : Enc) : Statement (.lgs16 e) := general _
theorem lgs32 (e : Enc) : Statement (.lgs32 e) := general _
theorem lgs64 (e : Enc) : Statement (.lgs64 e) := general _

end Sys2Proof.Laws.EncodeLength
end

