-- ==== Sys2Proof/Laws/Run.lean ====
section
/-! SUPPORT. Runs: what one step adds to a run, that more steps do not change how a run ended, and what placing listed
bytes leaves alone. -/

namespace Sys2Proof.Machine

/-! ## storeCode: one lemma per field -/

@[simp] theorem storeCode_nil (s : State) (bs : List Byte) : s.storeCode [] bs = s := by
  cases bs <;> rfl

@[simp] theorem storeCode_cons_nil (s : State) (a : BitVec 64) (as : List (BitVec 64)) :
    s.storeCode (a :: as) [] = s := rfl

/-- A field that one stored byte leaves alone is left alone by all. -/
theorem storeCode_keeps {α : Type} (f : State → α) (h : ∀ s m c, f { s with mem := m, modifiedCode := c } = f s)
    (s : State) (as : List (BitVec 64)) (bs : List Byte) : f (s.storeCode as bs) = f s := by
  induction as generalizing s bs with
  | nil => rw [storeCode_nil]
  | cons a as ih =>
    cases bs with
    | nil => rfl
    | cons b bs => exact (ih _ bs).trans (h s _ _)

section storeCode

variable (s : State) (as : List (BitVec 64)) (bs : List Byte)

@[simp] theorem storeCode_regs : (s.storeCode as bs).regs = s.regs := storeCode_keeps (·.regs) (fun _ _ _ => rfl) s as bs
@[simp] theorem storeCode_cs : (s.storeCode as bs).cs = s.cs := storeCode_keeps (·.cs) (fun _ _ _ => rfl) s as bs
@[simp] theorem storeCode_ds : (s.storeCode as bs).ds = s.ds := storeCode_keeps (·.ds) (fun _ _ _ => rfl) s as bs
@[simp] theorem storeCode_es : (s.storeCode as bs).es = s.es := storeCode_keeps (·.es) (fun _ _ _ => rfl) s as bs
@[simp] theorem storeCode_fs : (s.storeCode as bs).fs = s.fs := storeCode_keeps (·.fs) (fun _ _ _ => rfl) s as bs
@[simp] theorem storeCode_gs : (s.storeCode as bs).gs = s.gs := storeCode_keeps (·.gs) (fun _ _ _ => rfl) s as bs
@[simp] theorem storeCode_ss : (s.storeCode as bs).ss = s.ss := storeCode_keeps (·.ss) (fun _ _ _ => rfl) s as bs
@[simp] theorem storeCode_pc : (s.storeCode as bs).pc = s.pc := storeCode_keeps (·.pc) (fun _ _ _ => rfl) s as bs
@[simp] theorem storeCode_mode : (s.storeCode as bs).mode = s.mode := storeCode_keeps (·.mode) (fun _ _ _ => rfl) s as bs
@[simp] theorem storeCode_cpl : (s.storeCode as bs).cpl = s.cpl := storeCode_keeps (·.cpl) (fun _ _ _ => rfl) s as bs
@[simp] theorem storeCode_gdtr : (s.storeCode as bs).gdtr = s.gdtr := storeCode_keeps (·.gdtr) (fun _ _ _ => rfl) s as bs
@[simp] theorem storeCode_ldtr : (s.storeCode as bs).ldtr = s.ldtr := storeCode_keeps (·.ldtr) (fun _ _ _ => rfl) s as bs
@[simp] theorem storeCode_acEnabled : (s.storeCode as bs).acEnabled = s.acEnabled :=
  storeCode_keeps (·.acEnabled) (fun _ _ _ => rfl) s as bs
@[simp] theorem storeCode_flags : (s.storeCode as bs).flags = s.flags := storeCode_keeps (·.flags) (fun _ _ _ => rfl) s as bs
@[simp] theorem storeCode_cfg : (s.storeCode as bs).cfg = s.cfg := storeCode_keeps (·.cfg) (fun _ _ _ => rfl) s as bs
@[simp] theorem storeCode_draws : (s.storeCode as bs).draws = s.draws := storeCode_keeps (·.draws) (fun _ _ _ => rfl) s as bs

end storeCode

/-- Storing bytes changes memory only at the addresses they go to. -/
theorem storeCode_byteAt_other {s : State} (hw : s.mem.wf = true) {as : List (BitVec 64)} (bs : List Byte) {x : Nat}
    (hx : ∀ a ∈ as, a.toNat ≠ x) : (s.storeCode as bs).byteAt x = s.byteAt x := by
  induction as generalizing s bs with
  | nil => rw [storeCode_nil]
  | cons a as ih =>
    cases bs with
    | nil => rfl
    | cons b bs =>
      have hw' : (s.mem.write a.toNat b).wf = true := wf_write hw b a.isLt
      rw [State.storeCode, ih (s := { s with mem := s.mem.write a.toNat b, modifiedCode := _ }) hw' bs
        (fun y hy => hx y (List.mem_cons_of_mem _ hy))]
      have h := read_write (v := b) hw a.toNat x
      rw [if_neg (fun e => hx a List.mem_cons_self e.symm)] at h
      exact h

/-! ## The code offsets -/

/-- The code offset that `pc` holds is in the range of the code segment. -/
theorem pcOffset_le_codeTop (s : State) : s.pcOffset ≤ s.codeTop :=
  Nat.lt_succ_iff.1 (Nat.mod_lt _ (Nat.succ_pos _))

/-- The number of code offsets divides the number of values of `pc`, so that adding to `pc` adds to the offset. -/
theorem codeTop_succ_dvd (s : State) : (s.codeTop + 1) ∣ 2 ^ 64 := by
  unfold State.codeTop
  cases s.mode <;> simp <;> split <;> decide

/-- A window that nothing stopped has as many bytes as were asked for. -/
theorem codeWindow_length {s : State} {n o : Nat} {as : List (BitVec 64)} (h : s.codeWindow n o = (as, none)) :
    as.length = n := by
  induction n generalizing o as with
  | zero =>
    obtain ⟨rfl, -⟩ := Prod.mk.inj h
    rfl
  | succ n ih =>
    unfold State.codeWindow at h
    split at h
    · cases (Prod.mk.inj h).2
    · obtain ⟨rfl, h2⟩ := Prod.mk.inj h
      simp [ih (Prod.ext rfl h2)]

/-! ## Runs -/

/-- Reaching begins with a step. -/
theorem reaches_head {s t u : State} (h : step s = .next t) (hr : Reaches t u) : Reaches s u := by
  induction hr with
  | refl => exact .tail (.refl _) h
  | tail _ h' ih => exact .tail ih h'

/-- A run whose listed bytes are behind it has ended well, whatever steps are left. -/
theorem runTo_at_stop {stop : Nat} {s : State} (h : s.pcOffset = stop) (n : Nat) :
    runTo stop n s = some (.completed s) := by
  cases n <;> simp [runTo, h]

/-- A run that has not ended follows its next step. -/
theorem runTo_succ {stop : Nat} {s : State} (h : s.pcOffset ≠ stop) (n : Nat) :
    runTo stop (n + 1) s =
      match step s with
      | .next t => runTo stop n t
      | .fault f => some (.faulted f s)
      | .refused r => some (.refused r s) := by
  cases hs : step s <;> simp only [runTo, if_neg h, hs]

/-- A run that has ended stays as it ended when more steps are allowed. -/
theorem runTo_mono {stop n : Nat} {s : State} {e : RunEnd} (h : runTo stop n s = some e) (m : Nat) :
    runTo stop (n + m) s = some e := by
  induction n generalizing s with
  | zero =>
    by_cases hs : s.pcOffset = stop
    · rw [runTo_at_stop hs] at h ⊢; exact h
    · simp [runTo, hs] at h
  | succ n ih =>
    by_cases hs : s.pcOffset = stop
    · rw [runTo_at_stop hs] at h ⊢; exact h
    · rw [show n + 1 + m = (n + m) + 1 by omega]
      rw [runTo_succ hs] at h ⊢
      cases hstep : step s with
      | next t => simp only [hstep] at h ⊢; exact ih h
      | fault f => simpa only [hstep] using h
      | refused r => simpa only [hstep] using h

end Sys2Proof.Machine
end

