-- ==== Sys2Proof/Tests/Slice0.lean ====
section
/-! SUPPORT. Tests: ill-formed terms refused, one written-out word decoded per form, single steps of the spec's
vectors (95_test_vectors.md), and a witness for the hypotheses of every statement. -/

namespace Sys2Proof.Tests

-- The theorems below are checked one after another: each in a thread of its own would need more threads than there are.
set_option Elab.async false

open Sys2Proof.Machine

/-! ## Small terms and states -/

/-- No prefixes. -/
def noPfx : Pfx := { legacy := [], rex := none }

/-- A REX prefix alone. -/
def rexPfx (w r x b : Bool) : Pfx := { legacy := [], rex := some { w := w, r := r, x := x, b := b } }

/-- Legacy prefixes alone. -/
def legPfx (ps : List LegacyPfx) : Pfx := { legacy := ps, rex := none }

/-- `[BX]` at `ASZ` 16, destination register 0. -/
def bx (p : Pfx) : Enc := { pfx := p, reg := 0#3, rm := .mem16 (.based .bx .none) }

/-- `[EBX]` or `[RBX]`, destination register 0. -/
def ebx (p : Pfx) : Enc := { pfx := p, reg := 0#3, rm := .mem32 (.base 3#3 .none) }

/-- Real-address mode, `CS.D` 0. -/
def cReal : Ctx := { mode := .real, csD := false }

/-- Protected mode, `CS.D` 1. -/
def cProt : Ctx := { mode := .prot, csD := true }

/-- 64-bit mode. -/
def cLong : Ctx := { mode := .long64, csD := true }

/-- Bytes stored from an address on. -/
def putBytes (s : State) (a : Nat) : List Nat → State
  | [] => s
  | b :: bs => putBytes { s with mem := s.mem.write a (BitVec.ofNat 8 b) } (a + 1) bs

/-- A general register set. -/
def setReg (s : State) (k : Fin 16) (v : Nat) : State :=
  { s with regs := s.regs.set k { upper := BitVec.ofNat 32 (v / 2 ^ 32), lower := BitVec.ofNat 32 v } }

/-- The segment register that a descriptor of the table loads. -/
def segOf (sel : BitVec 16) (d : BitVec 64) : SegReg := { sel := sel, valid := true, hid := unpack d }

/-- ENV-R of 95_test_vectors.md section 2. -/
def envR : State :=
  { State.reset with regs := Vector.replicate 16 { upper := 0#32, lower := 0#32 }, cs := SegReg.atReset 0#16 0#64, pc := 0#64 }

/-- ENV-V. -/
def envV : State := { envR with mode := .v86, cpl := 3#2 }

/-- The descriptor table of ENV-P: its eleven entries, as bytes. -/
def gdtBytes : List Nat :=
  [0, 0, 0, 0, 0, 0, 0, 0] ++ [0xFF, 0xFF, 0, 0, 0, 0x9B, 0xCF, 0] ++ [0xFF, 0xFF, 0, 0, 0, 0x93, 0xCF, 0]
    ++ [0xFF, 0xFF, 0, 0, 0x20, 0xF3, 0x40, 0] ++ [0xFF, 0xFF, 0, 0, 0, 0x91, 0xCF, 0]
    ++ [0xFF, 0xFF, 0, 0, 0, 0x13, 0xCF, 0] ++ [0xFF, 0xFF, 0, 0, 0, 0x99, 0xCF, 0]
    ++ [0xFF, 0xFF, 0, 0, 0, 0x9F, 0xCF, 0] ++ [0xFF, 0xFF, 0, 0, 0, 0x92, 0xCF, 0]
    ++ [0, 0, 0, 0, 0, 0x82, 0, 0] ++ [0xFF, 0xFF, 0, 0, 0, 0xF3, 0xCF, 0]

/-- ENV-P with the CS and the data segment registers given. -/
def envProt (cpl : BitVec 2) (cs d : SegReg) : State :=
  putBytes { envR with mode := .prot, cpl := cpl, gdtr := { base := 0x10000#64, limit := 0x57#16 },
                       cs := cs, ds := d, es := d, fs := d, gs := d, ss := d } 0x10000 gdtBytes

/-- ENV-P at CPL 0. -/
def envP : State := envProt 0#2 (segOf 8#16 0x00CF9B000000FFFF#64) (segOf 0x10#16 0x00CF93000000FFFF#64)

/-- ENV-P at CPL 3. -/
def envP3 : State := envProt 3#2 (segOf 0x3B#16 0x00CF9F000000FFFF#64) (segOf 0x53#16 0x00CFF3000000FFFF#64)

/-- ENV-L at CPL 0. -/
def envL : State := { envP with mode := .long64 }

/-- ENV-L at CPL 3. -/
def envL3 : State := { envP3 with mode := .long64 }

/-- The common setup of the segment-load vectors: EBX = 0x3000, a pointer there with this selector, EAX = 0xAAAAAAAA. -/
def pointer (s : State) (sel : Nat) : State :=
  putBytes (setReg (setReg s 0 0xAAAAAAAA) 3 0x3000) 0x3000
    [sel % 256, sel / 256, 0xFE, 0xCA, sel % 256, sel / 256]

/-- Some property holds of the next state of a step. -/
def stepGives (s : State) (p : State → Bool) : Bool :=
  match step s with
  | .next t => p t
  | .fault _ => false
  | .refused _ => false

/-- A step from a state with these code bytes at `pc`, in a segment with base 0. -/
def run (s : State) (code : List Nat) (p : State → Bool) : Bool := stepGives (putBytes s s.pc.toNat code) p

/-- A step ends in this fault. -/
def faults (s : State) (code : List Nat) (f : Fault) : Bool :=
  match step (putBytes s s.pc.toNat code) with
  | .fault g => g == f
  | .next _ => false
  | .refused _ => false

/-- An operand's physical addresses: `n` bytes from `a` on. -/
def bytesFrom (a n : Nat) : List (BitVec 64) := (List.range n).map fun k => BitVec.ofNat 64 (a + k)

/-- The instruction reaches the segment load, with `pc + L` in range, as a test. -/
def meets (i : Instr) (s : State) (r : MemRef) (as : List (BitVec 64)) : Bool :=
  decide (s.checkEncoding i.mnem i.osz i.enc = .ok ()) && decide (s.memRef i.enc i.length = some r)
    && decide (s.checkOperand r i.osz = .ok as) && decide (s.checkNextPc i.length = .ok ())

theorem ready_of_meets {i : Instr} {s : State} {r : MemRef} {as : List (BitVec 64)} (h : meets i s r as = true) :
    Ready i s r as ∧ NextPcInRange s i.length := by
  simp only [meets, Bool.and_eq_true, decide_eq_true_eq] at h
  exact ⟨⟨checkEncoding_eq_ok.1 h.1.1.1, h.1.1.2, checkOperand_eq_ok.1 h.1.2⟩, checkNextPc_eq_ok.1 h.2⟩

/-! ## Ill-formed terms are refused -/

theorem test_wellFormed_good : Instr.wellFormed cReal (.lds16 (bx noPfx)) = true ∧
    Instr.wellFormed cProt (.lss32 (ebx noPfx)) = true ∧
    Instr.wellFormed cLong (.lfs64 (ebx (rexPfx true false false false))) = true := by decide +kernel

theorem test_wellFormed_override_twice :
    Instr.wellFormed cReal (.lds16 (bx (legPfx [.seg .es, .seg .ds]))) = false := by decide +kernel

theorem test_wellFormed_prefix_twice :
    Instr.wellFormed cReal (.lds32 (bx (legPfx [.opSize, .opSize]))) = false ∧
    Instr.wellFormed cProt (.lds32 { ebx (legPfx [.addrSize, .addrSize]) with rm := .mem16 (.based .bx .none) }) = false ∧
    Instr.wellFormed cReal (.lds16 (bx (legPfx [.lock, .lock]))) = false := by decide +kernel

theorem test_wellFormed_rex_outside_long64 :
    Instr.wellFormed cProt (.lss32 (ebx (rexPfx false false false false))) = false := by decide +kernel

theorem test_wellFormed_bp_without_displacement :
    Instr.wellFormed cReal (.lds16 { bx noPfx with rm := .mem16 (.based .bp .none) }) = false := by decide +kernel

theorem test_wellFormed_base_four :
    Instr.wellFormed cProt (.lss32 { ebx noPfx with rm := .mem32 (.base 4#3 .none) }) = false := by decide +kernel

theorem test_wellFormed_base_five_without_displacement :
    Instr.wellFormed cProt (.lss32 { ebx noPfx with rm := .mem32 (.base 5#3 .none) }) = false ∧
    Instr.wellFormed cProt (.lss32 { ebx noPfx with rm := .mem32 (.sib 0#2 0#3 5#3 .none) }) = false := by decide +kernel

theorem test_wellFormed_wrong_address_size :
    Instr.wellFormed cProt (.lss32 (bx noPfx)) = false ∧ Instr.wellFormed cReal (.lds16 (ebx noPfx)) = false := by decide +kernel

theorem test_wellFormed_wrong_operand_size :
    Instr.wellFormed cReal (.lds32 (bx noPfx)) = false ∧
    Instr.wellFormed cProt (.lss64 (ebx noPfx)) = false ∧
    Instr.wellFormed cLong (.lfs64 (ebx (rexPfx false false false false))) = false := by decide +kernel

/-! ## Decoding: a word written out for every form (95_test_vectors.md section 3, and the rows of sections 4 and 5) -/

/-- V-D01 `LDS SI,[BX]`. -/
theorem test_decode_lds16 : decode cReal [0xC5#8, 0x37#8] = .ok (.lds16 { bx noPfx with reg := 6#3 }) [] := by decide +kernel

/-- V-D05 `LDS ESI,[BX]`. -/
theorem test_decode_lds32 :
    decode cReal [0x66#8, 0xC5#8, 0x37#8] = .ok (.lds32 { bx (legPfx [.opSize]) with reg := 6#3 }) [] := by decide +kernel

/-- V-D23 `LSS AX,[RBX]`. -/
theorem test_decode_lss16 :
    decode cLong [0x66#8, 0x0F#8, 0xB2#8, 0x03#8] = .ok (.lss16 (ebx (legPfx [.opSize]))) [] := by decide +kernel

/-- V-D12 `LSS ESP,[ESP+4]`: SIB 24 is base 4 with no index. -/
theorem test_decode_lss32 :
    decode cProt [0x0F#8, 0xB2#8, 0x64#8, 0x24#8, 0x04#8] =
      .ok (.lss32 { pfx := noPfx, reg := 4#3, rm := .mem32 (.sib 0#2 4#3 4#3 (.d8 4#8)) }) [] := by decide +kernel

/-- V-D20 `LSS R12,[RSP+0x10]`. -/
theorem test_decode_lss64 :
    decode cLong [0x4C#8, 0x0F#8, 0xB2#8, 0x64#8, 0x24#8, 0x10#8] =
      .ok (.lss64 { pfx := rexPfx true true false false, reg := 4#3, rm := .mem32 (.sib 0#2 4#3 4#3 (.d8 0x10#8)) }) [] := by
  decide +kernel

/-- V-D04 `LES AX,[BP+8]`. -/
theorem test_decode_les16 :
    decode cReal [0xC4#8, 0x46#8, 0x08#8] =
      .ok (.les16 { bx noPfx with rm := .mem16 (.based .bp (.d8 8#8)) }) [] := by decide +kernel

/-- V-D09 `LES EAX,[BX]`. -/
theorem test_decode_les32 :
    decode cProt [0x67#8, 0xC4#8, 0x07#8] = .ok (.les32 (bx (legPfx [.addrSize]))) [] := by decide +kernel

/-- The bytes of V-R08, `LFS DX,ES:[BX]`. -/
theorem test_decode_lfs16 :
    decode cReal [0x26#8, 0x0F#8, 0xB4#8, 0x17#8] = .ok (.lfs16 { bx (legPfx [.seg .es]) with reg := 2#3 }) [] := by decide +kernel

/-- V-D15 `LFS EAX,[ECX*4+0x1000]`: SIB base 101 with `mod` 00. -/
theorem test_decode_lfs32 :
    decode cProt [0x0F#8, 0xB4#8, 0x04#8, 0x8D#8, 0x00#8, 0x10#8, 0x00#8, 0x00#8] =
      .ok (.lfs32 { ebx noPfx with rm := .mem32 (.sibNoBase 2#2 1#3 0x1000#32) }) [] := by decide +kernel

/-- V-D26 `LFS RAX,[R13+0]`. -/
theorem test_decode_lfs64 :
    decode cLong [0x49#8, 0x0F#8, 0xB4#8, 0x45#8, 0x00#8] =
      .ok (.lfs64 { ebx (rexPfx true false false true) with rm := .mem32 (.base 5#3 (.d8 0#8)) }) [] := by decide +kernel

/-- The bytes of V-R07, `LGS AX,[BX]`. -/
theorem test_decode_lgs16 : decode cReal [0x0F#8, 0xB5#8, 0x07#8] = .ok (.lgs16 (bx noPfx)) [] := by decide +kernel

/-- V-D19 `LGS R9D,[R10+8]`. -/
theorem test_decode_lgs32 :
    decode cLong [0x45#8, 0x0F#8, 0xB5#8, 0x4A#8, 0x08#8] =
      .ok (.lgs32 { pfx := rexPfx false true false true, reg := 1#3, rm := .mem32 (.base 2#3 (.d8 8#8)) }) [] := by decide +kernel

/-- V-D22 `LGS RAX,[0x5000]`: SIB 25 is neither base nor index. -/
theorem test_decode_lgs64 :
    decode cLong [0x48#8, 0x0F#8, 0xB5#8, 0x04#8, 0x25#8, 0x00#8, 0x50#8, 0x00#8, 0x00#8] =
      .ok (.lgs64 { ebx (rexPfx true false false false) with rm := .mem32 (.sibNoBase 0#2 4#3 0x5000#32) }) [] := by decide +kernel

/-- V-D37 to V-D40: the refused prefixes. -/
theorem test_decode_refused :
    decode cProt [0xF3#8, 0x0F#8, 0xB4#8, 0x03#8] = .rejected .repeatPfx ∧
    decode cProt [0x26#8, 0x3E#8, 0xC5#8, 0x03#8] = .rejected .severalOverrides ∧
    decode cProt [0x66#8, 0x66#8, 0xC5#8, 0x03#8] = .rejected .repeatedPfx ∧
    decode cLong [0x48#8, 0x66#8, 0x0F#8, 0xB2#8, 0x03#8] = .rejected .misplacedRex ∧
    decode cProt [0x0F#8, 0xB3#8, 0x03#8] = .rejected .notInGroup := by decide +kernel

/-- The table's words, decoded and run as the first instruction after reset: `[BX+SI]` into register 0. -/
theorem test_table_words :
    decodeTableWord 16 0xC500 = some (.lds16 { bx noPfx with rm := .mem16 (.based .bxSi .none) }) ∧
    decodeTableWord 16 0xC400 = some (.les16 { bx noPfx with rm := .mem16 (.based .bxSi .none) }) ∧
    decodeTableWord 24 0x0FB200 = some (.lss16 { bx noPfx with rm := .mem16 (.based .bxSi .none) }) ∧
    decodeTableWord 24 0x0FB400 = some (.lfs16 { bx noPfx with rm := .mem16 (.based .bxSi .none) }) ∧
    decodeTableWord 24 0x0FB500 = some (.lgs16 { bx noPfx with rm := .mem16 (.based .bxSi .none) }) := by decide +kernel

theorem test_fetch_words :
    stepGives (State.reset.withFetchWord 16 0xC500) (fun t => t.pc == 0xFFF2#64) = true ∧
    stepGives (State.reset.withFetchWord 16 0xC400) (fun t => t.pc == 0xFFF2#64) = true ∧
    stepGives (State.reset.withFetchWord 24 0x0FB200) (fun t => t.pc == 0xFFF3#64) = true ∧
    stepGives (State.reset.withFetchWord 24 0x0FB400) (fun t => t.pc == 0xFFF3#64) = true ∧
    stepGives (State.reset.withFetchWord 24 0x0FB500) (fun t => t.pc == 0xFFF3#64) = true := by decide +kernel

/-! ## Single steps, from the spec's vectors -/

/-- V-R01: the operand's last byte is at the limit. -/
theorem test_lds16_limit : run (putBytes (setReg envR 3 0xFFFC) 0xFFFC [0x11, 0x22, 0, 0]) [0xC5, 0x37] (fun t =>
    t.x16 6#4 == 0x2211#16 && t.ds.sel == 0#16 && t.ds.hid.base == 0#64 && t.pc == 2#64) = true := by decide +kernel

/-- V-R06: destination and address register are one; selector 3 is no NULL selector here. -/
theorem test_lds16_same_register : run (putBytes (setReg envR 3 0x100) 0x100 [0xFF, 0xFF, 3, 0]) [0xC5, 0x1F] (fun t =>
    t.x16 3#4 == 0xFFFF#16 && t.ds.sel == 3#16 && t.ds.valid && t.ds.hid.base == 0x30#64) = true := by decide +kernel

/-- V-R05: six bytes that end at the limit. -/
theorem test_lds32_real : run (putBytes (setReg (setReg envR 6 0x99999999) 3 0xFFFA) 0xFFFA
    [0x11, 0x22, 0x33, 0x44, 0x55, 0x66]) [0x66, 0xC5, 0x37] (fun t =>
    t.x32 6#4 == 0x44332211#32 && t.ds.sel == 0x6655#16 && t.ds.hid.base == 0x66550#64 && t.pc == 3#64) = true := by
  decide +kernel

/-- V-P06: data, RPL above DPL though CPL is not (conflict C2). -/
theorem test_lds32_rpl : faults (pointer envP 0x13) [0xC5, 0x03] (.gp (some 0x10#16)) = true := by decide +kernel

/-- Program D, ENV-P: `LSS SP,[EBX]`. -/
theorem test_lss16_prot : run (putBytes (setReg envP 3 0x200) 0x200 [0x00, 0x40, 0x10, 0x00]) [0x66, 0x0F, 0xB2, 0x23]
    (fun t => t.x32 4#4 == 0x4000#32 && t.ss == segOf 0x10#16 0x00CF93000000FFFF#64 && t.pc == 4#64) = true := by
  decide +kernel

/-- V-S19: the accessed bit is set in memory and in the hidden copy. -/
theorem test_lss32_accessed : run (pointer envP 0x40) [0x0F, 0xB2, 0x03] (fun t =>
    t.ss == segOf 0x40#16 0x00CF93000000FFFF#64 && t.byteAt 0x10045 == 0x93#8 && t.x32 0#4 == 0xCAFE0040#32) = true := by
  decide +kernel

/-- V-S12: not present. -/
theorem test_lss32_not_present : faults (pointer envP 0x28) [0x0F, 0xB2, 0x03] (.ss (some 0x28#16)) = true := by
  decide +kernel

/-- V-L43. -/
theorem test_lss64 : run (putBytes (setReg envL 3 0x5000) 0x5000 [0x00, 0xF0, 0xFF, 0xFF, 0xFF, 0x7F, 0, 0, 0x10, 0])
    [0x48, 0x0F, 0xB2, 0x23] (fun t => t.x64 4#4 == 0x7FFFFFFFF000#64 && t.ss.sel == 0x10#16 && t.ss.valid) = true := by
  decide +kernel

/-- Program C, third instruction: a NULL selector, into register 12. -/
theorem test_lss64_null : run (putBytes (setReg envL 4 0x7000) 0x7010 [0x00, 0x80, 0, 0, 0, 0, 0, 0, 0, 0])
    [0x4C, 0x0F, 0xB2, 0x64, 0x24, 0x10] (fun t =>
    t.x64 12#4 == 0x8000#64 && t.ss.sel == 0#16 && !t.ss.valid && t.x64 4#4 == 0x7000#64) = true := by decide +kernel

/-- V-R03: default segment SS. -/
theorem test_les16_ss : faults (setReg envR 5 0xFFFE) [0xC4, 0x46, 0x00] (.ss none) = true := by decide +kernel

/-- V-M13: aligned to 2, which is all a 16-bit form needs. -/
theorem test_les16_aligned : run (putBytes (setReg { envP3 with acEnabled := true } 3 0x3002) 0x3002 [0x22, 0x11, 0x53, 0])
    [0x66, 0xC4, 0x03] (fun t => t.x16 0#4 == 0x1122#16 && t.es.sel == 0x53#16 && t.pc == 3#64) = true := by decide +kernel

/-- V-M01: a DS with base 0x200000 and limit 0xFFFF. -/
theorem test_les32_base : run (putBytes (setReg { envP with ds := segOf 0x18#16 0x0040F3200000FFFF#64 } 3 0xFFFA) 0x20FFFA
    [0x44, 0x33, 0x22, 0x11, 0x10, 0]) [0xC4, 0x03] (fun t => t.x32 0#4 == 0x11223344#32 && t.es.sel == 0x10#16) = true := by
  decide +kernel

/-- V-P15: privilege before present. -/
theorem test_les32_order : faults (pointer envP3 0x2B) [0xC4, 0x03] (.gp (some 0x28#16)) = true := by decide +kernel

/-- V-R08: an ES override, selector FFFF. -/
theorem test_lfs16_override : run (putBytes (setReg { envR with es := SegReg.atReset 0x1000#16 0x10000#64 } 3 0x20) 0x10020
    [0x78, 0x56, 0xFF, 0xFF]) [0x26, 0x0F, 0xB4, 0x17] (fun t =>
    t.x16 2#4 == 0x5678#16 && t.fs.sel == 0xFFFF#16 && t.fs.hid.base == 0xFFFF0#64 && t.pc == 4#64) = true := by
  decide +kernel

/-- V-L44: RIP-relative. -/
theorem test_lfs32_rip : run (putBytes { envL with pc := 0x400000#64 } 0x400017 [0x77, 0, 0, 0, 0x10, 0])
    [0x0F, 0xB4, 0x05, 0x10, 0, 0, 0] (fun t => t.x64 0#4 == 0x77#64 && t.fs.sel == 0x10#16 && t.pc == 0x400007#64) = true := by
  decide +kernel

/-- V-P20: readable conforming code is exempt from the privilege test. -/
theorem test_lfs32_conforming : run (pointer envP3 0x3B) [0x0F, 0xB4, 0x03] (fun t =>
    t.fs == segOf 0x3B#16 0x00CF9F000000FFFF#64) = true := by decide +kernel

/-- Program C, first instruction. -/
theorem test_lfs64 : run (putBytes (setReg envL 3 0x6000) 0x6000 [0x00, 0x10, 0, 0, 0, 0x80, 0xFF, 0xFF, 0x18, 0])
    [0x48, 0x0F, 0xB4, 0x03] (fun t =>
    t.x64 0#4 == 0xFFFF800000001000#64 && t.fs.sel == 0x18#16 && t.fs.hid.base == 0x200000#64) = true := by decide +kernel

/-- V-M27. -/
theorem test_lfs64_unaligned :
    faults (setReg { envL3 with acEnabled := true } 3 0x3004) [0x48, 0x0F, 0xB4, 0x03] (.ac 0#16) = true := by decide +kernel

/-- V-R07: bits 31 to 16 of the destination are kept. -/
theorem test_lgs16_upper : run (putBytes (setReg (setReg envR 0 0x12340000) 3 0x100) 0x100 [0xCD, 0xAB, 0, 0])
    [0x0F, 0xB5, 0x07] (fun t => t.x32 0#4 == 0x1234ABCD#32 && t.gs.sel == 0#16) = true := by decide +kernel

/-- V-L41: bits 63 to 16 are kept. -/
theorem test_lgs16_long : run (putBytes (setReg (setReg envL 1 0x1111111111111111) 3 0x5040) 0x5040 [0xEF, 0xBE, 0, 0])
    [0x66, 0x0F, 0xB5, 0x0B] (fun t => t.x64 1#4 == 0x111111111111BEEF#64 && !t.gs.valid) = true := by decide +kernel

/-- Program C, second instruction: the upper half is cleared; a NULL selector with no RPL test. -/
theorem test_lgs32_null : run (putBytes (setReg (setReg envL 9 0xFFFFFFFFFFFFFFFF) 10 0x6010) 0x6020
    [0xEF, 0xCD, 0xAB, 0x89, 1, 0]) [0x45, 0x0F, 0xB5, 0x4A, 0x10] (fun t =>
    t.x64 9#4 == 0x89ABCDEF#64 && t.gs.sel == 1#16 && !t.gs.valid && t.pc == 5#64) = true := by decide +kernel

/-- V-P23: TI is 1 and LDTR is not valid. -/
theorem test_lgs32_ldt : faults (pointer envP 0x0C) [0x0F, 0xB5, 0x03] (.gp (some 0x0C#16)) = true := by decide +kernel

/-- V-L42: a non-canonical offset is copied. -/
theorem test_lgs64 : run (putBytes (setReg envL 2 0x5000) 0x5010 [1, 0, 0, 0, 0, 0, 0, 0x80, 0x50, 0])
    [0x4C, 0x0F, 0xB5, 0x4A, 0x10] (fun t =>
    t.x64 9#4 == 0x8000000000000001#64 && t.gs == segOf 0x50#16 0x00CFF3000000FFFF#64) = true := by decide +kernel

/-! ## Witnesses: the hypotheses of every statement can be met, each clause apart -/

/-- A small real-address state: BX = 0x100, every form of the operand there readable. -/
def realState : State := setReg envR 3 0x100

/-- The same in virtual-8086 mode. -/
def v86State : State := setReg envV 3 0x100

/-- The operand `[BX]` of `realState`. -/
def refReal : MemRef := { ea := 0x100#64, asz := .a16, ssDefault := false, override := none }

/-- The operand `[EBX]` of `pointer`. -/
def refProt : MemRef := { ea := 0x3000#64, asz := .a32, ssDefault := false, override := none }

/-- The operand `[RBX]` of `pointer`. -/
def refLong : MemRef := { refProt with asz := .a64 }

/-- The ten forms of 16 and 32 bits, at a 16-bit default. -/
def tenForms : List Instr :=
  [.lds16 (bx noPfx), .lds32 (bx (legPfx [.opSize])), .les16 (bx noPfx), .les32 (bx (legPfx [.opSize]))]
    ++ [.lss16 (bx noPfx), .lss32 (bx (legPfx [.opSize])), .lfs16 (bx noPfx), .lfs32 (bx (legPfx [.opSize]))]
    ++ [.lgs16 (bx noPfx), .lgs32 (bx (legPfx [.opSize]))]

/-- REX.W alone. -/
def rexW : Pfx := rexPfx true false false false

/-- `LSS EAX,[EBX]`. -/
def lss : Instr := .lss32 (ebx noPfx)

/-- `LDS EAX,[EBX]`. -/
def lds : Instr := .lds32 (ebx noPfx)

/-- `LFS EAX,[RBX]`. -/
def lfs : Instr := .lfs32 (ebx noPfx)

/-- The pointer of the `r64` forms: EBX = 0x3000, an eight-byte offset there, then this selector. -/
def pointer64 (s : State) (sel : Nat) : State :=
  putBytes (setReg s 3 0x3000) 0x3000 [1, 2, 3, 4, 5, 6, 7, 8, sel % 256, sel / 256]

/-- ENV-P in compatibility mode. -/
def envC : State := { envP with mode := .compat }

/-- A page that faults for one access kind and privilege. -/
def faultPage (s : State) (first last : Nat) (k : AccessKind) (p : Privilege) : State :=
  { s with cfg := { s.cfg with translate := [{ first := first, last := last, kind := k, priv := p, result := .fault 5#32 }] } }

/-- DecodeOfEncodeIsTheInstruction. -/
theorem witness_wellFormed : (Instr.lds16 (bx noPfx)).wellFormed cReal = true ∧
    (Instr.lgs64 (ebx rexW)).wellFormed cLong = true := by decide +kernel

/-- EncodeOfDecodeIsTheBytes, DecodedLengthIsAtMostThirteen: the shortest and a longest instruction. -/
theorem witness_decode_lengths :
    decode cReal [0xC5#8, 0x37#8] = .ok (.lds16 { bx noPfx with reg := 6#3 }) [] ∧
    (Instr.lds16 { bx noPfx with reg := 6#3 }).length = 2 ∧
    decode cLong [0x66#8, 0x67#8, 0xF0#8, 0x26#8, 0x40#8, 0x0F#8, 0xB4#8, 0x84#8, 0x00#8, 1#8, 2#8, 3#8, 4#8] =
      .ok (.lfs16 { pfx := { legacy := [.opSize, .addrSize, .lock, .seg .es],
                             rex := some { w := false, r := false, x := false, b := false } },
                    reg := 0#3, rm := .mem32 (.sib 0#2 0#3 0#3 (.d32 0x04030201#32)) }) [] := by decide +kernel

/-- SixtyFourBitFormsNeedRexWInLong64. -/
theorem witness_r64_form : decode cLong [0x48#8, 0x0F#8, 0xB4#8, 0x03#8] = .ok (.lfs64 (ebx rexW)) [] ∧
    (Instr.lfs64 (ebx rexW)).osz = .w64 := by decide +kernel

/-- DestinationRegisterNumber: register 9 by REX.R in `Long64` (`LGS R9D,[R11]`), register 1 without a REX prefix. -/
theorem witness_destination_number :
    decode cLong [0x45#8, 0x0F#8, 0xB5#8, 0x0B#8] =
      .ok (.lgs32 { ebx (rexPfx false true false true) with reg := 1#3 }) [] ∧
    (Instr.lgs32 { ebx (rexPfx false true false true) with reg := 1#3 }).enc.dest = 9#4 ∧
    decode cLong [0x0F#8, 0xB5#8, 0x0B#8] = .ok (.lgs32 { ebx noPfx with reg := 1#3 }) [] ∧
    (Instr.lgs32 { ebx noPfx with reg := 1#3 }).enc.dest = 1#4 := by decide +kernel

/-- UnsettledPrefixesAreRefused, clause by clause. -/
theorem witness_unsettled_prefixes :
    (legacyProblem [] = none ∧ isRepeat 0xF2#8 = true ∧ legacyProblem [.opSize, .lock, .seg .gs] = none
      ∧ isRepeat 0xF3#8 = true) ∧
    (1 < [LegacyPfx.opSize, .opSize].count .opSize ∧ 1 < [LegacyPfx.addrSize, .lock, .addrSize].count .addrSize ∧
      1 < [LegacyPfx.seg .es, .seg .es].countP LegacyPfx.isSeg) ∧
    (cLong.mode = .long64 ∧ legacyProblem [.seg .cs] = none) ∧
    decode cLong [0x48#8, 0xF3#8, 0x0F#8, 0xB2#8, 0x03#8] = .rejected .repeatPfx ∧
    decode cLong [0x41#8, 0x48#8, 0x0F#8, 0xB2#8, 0x03#8] = .rejected .misplacedRex := by decide +kernel

/-- OperandSizeTable: every row, with and without `66`. -/
theorem witness_operand_size :
    opSize cReal noPfx = .w16 ∧ opSize cReal (legPfx [.opSize]) = .w32 ∧
    opSize { mode := .v86, csD := true } noPfx = .w16 ∧ opSize { mode := .prot, csD := false } noPfx = .w16 ∧
    opSize { mode := .compat, csD := false } (legPfx [.opSize]) = .w32 ∧ opSize cProt noPfx = .w32 ∧
    opSize cProt (legPfx [.opSize]) = .w16 ∧ opSize cLong { rexW with legacy := [.opSize] } = .w64 ∧
    opSize cLong noPfx = .w32 ∧ opSize cLong (legPfx [.opSize]) = .w16 := by decide +kernel

/-- AddressSizeTable: every row, with and without `67`. -/
theorem witness_address_size :
    addrSize cReal noPfx = .a16 ∧ addrSize cReal (legPfx [.addrSize]) = .a32 ∧
    addrSize { mode := .compat, csD := false } noPfx = .a16 ∧ addrSize { mode := .prot, csD := false } (legPfx [.addrSize]) = .a32 ∧
    addrSize cProt noPfx = .a32 ∧ addrSize cProt (legPfx [.addrSize]) = .a16 ∧ addrSize cLong noPfx = .a64 ∧
    addrSize cLong (legPfx [.addrSize]) = .a32 := by decide +kernel

/-- StepExecutesDecodedInstruction: the three clauses. -/
theorem witness_step_clauses :
    (decode realState.ctx (putBytes realState 0 [0xC5, 0x37]).fetchBytes =
        .ok (.lds16 { bx noPfx with reg := 6#3 }) (List.replicate 13 0#8) ∧
      (putBytes realState 0 [0xC5, 0x37]).codeIsModified 2 = false) ∧
    ({ putBytes realState 0 [0xC5, 0x37] with modifiedCode := [1] } : State).codeIsModified 2 = true ∧
    decode realState.ctx realState.fetchBytes = .rejected .notInGroup := by decide +kernel

/-- StepRunsTheEncodedInstruction. -/
theorem witness_step_encoded :
    (Instr.lds16 { bx noPfx with reg := 6#3 }).wellFormed (putBytes realState 0 [0xC5, 0x37]).ctx = true ∧
    (putBytes realState 0 [0xC5, 0x37]).fetchBytes =
      encode (.lds16 { bx noPfx with reg := 6#3 }) ++ List.replicate 13 0#8 ∧
    (putBytes realState 0 [0xC5, 0x37]).codeIsModified (Instr.lds16 { bx noPfx with reg := 6#3 }).length = false := by
  decide +kernel

/-- RealModeFetchReadsThroughCs, at the last offset and at the first. -/
theorem witness_real_fetch :
    State.reset.mode = .real ∧ State.reset.csD = false ∧ State.reset.cfg.sideEffect = [] ∧
    State.reset.pc.toNat % 65536 + 14 ≤ 0xFFFF ∧
    State.reset.pc.toNat % 65536 + 14 ≤ State.reset.cs.hid.limit.toNat ∧
    envR.mode = .real ∧ envR.csD = false ∧ envR.cfg.sideEffect = [] ∧ envR.pc.toNat % 65536 + 0 ≤ 0xFFFF := by
  decide +kernel

/-- The outcome is this fault, as a test. -/
def isFault (o : Host.Outcome State Fault Refusal) (f : Fault) : Bool :=
  match o with
  | .fault g => g == f
  | .next _ => false
  | .refused _ => false

theorem eq_fault_of {o : Host.Outcome State Fault Refusal} {f : Fault} (h : isFault o f = true) : o = .fault f := by
  cases o <;> simp_all [isFault]

/-- StepFaultsOnlyByExec. -/
theorem witness_step_fault : step (putBytes (setReg envR 3 0xFFFD) 0 [0xC5, 0x37]) = .fault (.gp none) :=
  eq_fault_of (by decide +kernel)

/-- BadEncodingRaisesUd: LOCK, a register source, LDS in `Long64`, none of them on a `VEX_CAPABLE` processor. -/
theorem witness_bad_encoding :
    (envP.cfg.vexCapable = false ∧ (ebx (legPfx [.lock])).pfx.hasLock = true) ∧
    (Operand.register 0#3).isRegister = true ∧ (envL.cfg.vexCapable = false ∧ envL.mode = .long64 ∧ lds.mnem = .lds) := by
  decide +kernel

/-- VexCapableRefusesLdsLes: the three clauses, each alternative; `LDS EAX,[EBX]` in protected mode completes. -/
theorem witness_vex :
    (({ envL with cfg := { envL.cfg with vexCapable := true } } : State).cfg.vexCapable = true ∧ lds.mnem = .lds ∧
      ({ envL with cfg := { envL.cfg with vexCapable := true } } : State).mode = .long64) ∧
    (Instr.les32 { ebx noPfx with rm := .register 7#3 }).enc.rm.isRegister = true ∧
    (envP.cfg.vexCapable = false ∧ lss.mnem ≠ .lds ∧ lss.mnem ≠ .les) ∧
    (envP.mode ≠ .long64 ∧ lds.enc.rm.isRegister = false ∧
      run { pointer envP 0x10 with cfg := { envP.cfg with vexCapable := true } } [0xC5, 0x03] (fun _ => true) = true) := by
  decide +kernel

/-- SixteenBitAddressTable: the three displacements, the `disp8` negative. -/
theorem witness_disp16 :
    (Disp16.none = .none ∧ (0#16 = 0#16)) ∧ (∃ x, Disp16.d8 0x80#8 = .d8 x ∧ 0xFF80#16 = x.signExtend 16) ∧
    Disp16.d16 0xFFFF#16 = .d16 0xFFFF#16 := ⟨by decide, ⟨_, rfl, by decide⟩, rfl⟩

/-- ThirtyTwoBitAddressForms. -/
theorem witness_mem32 :
    envP.mode ≠ .long64 ∧ noPfx.rex = none ∧ addrSize envP.ctx noPfx = .a32 ∧
    (∃ x, Disp32.d8 0x80#8 = .d8 x ∧ 0xFFFFFF80#32 = x.signExtend 32) ∧ 7#3 ≠ 4#3 :=
  ⟨by decide +kernel, rfl, by decide +kernel, ⟨_, rfl, by decide⟩, by decide⟩

/-- LongModeAddressForms: with a REX prefix and without; an index that REX.X makes register 12, and no index. -/
theorem witness_mem64 :
    envL.mode = .long64 ∧ rexW.rex = some { w := true, r := false, x := false, b := false } ∧ noPfx.rex = none ∧
    (∃ y, Disp32.d32 0x80000000#32 = .d32 y ∧ 0xFFFFFFFF80000000#64 = y.signExtend 64) ∧
    BitVec.ofBool true ++ 4#3 ≠ 4#4 ∧ BitVec.ofBool false ++ 4#3 = 4#4 :=
  ⟨by decide +kernel, rfl, rfl, ⟨_, rfl, by decide⟩, by decide, by decide⟩

theorem executable_of {i : Instr} {s : State} (h : s.checkEncoding i.mnem i.osz i.enc = .ok ()) : Executable i s :=
  checkEncoding_eq_ok.1 h

/-- A segment register holding a NULL selector. -/
def nullSeg : SegReg := { segOf 0#16 0#64 with valid := false }

/-- NullSegmentOperandRaisesGp, through DS and through GS. -/
theorem witness_null_segment :
    (Executable lds { pointer envP 0x10 with ds := nullSeg } ∧
      ({ pointer envP 0x10 with ds := nullSeg } : State).memRef lds.enc lds.length = some refProt ∧
      ({ pointer envP 0x10 with ds := nullSeg } : State).mode = .prot ∧ refProt.seg = .ds ∧
      (({ pointer envP 0x10 with ds := nullSeg } : State).seg refProt.seg).valid = false) ∧
    (Executable (.lds32 (ebx (legPfx [.seg .gs]))) { pointer envC 0x10 with gs := nullSeg } ∧
      ({ pointer envC 0x10 with gs := nullSeg } : State).mode = .compat ∧
      ({ refProt with override := some .gs } : MemRef).seg = .gs) :=
  ⟨⟨executable_of (by decide +kernel), by decide +kernel⟩, executable_of (by decide +kernel), by decide +kernel⟩

/-- OperandOutsideLimitFaults: one byte past the limit, in real-address, virtual-8086 and protected mode. -/
theorem witness_outside_limit :
    (Executable (.lds16 (bx noPfx)) (setReg envR 3 0xFFFD) ∧
      (setReg envR 3 0xFFFD).memRef (bx noPfx) 2 = some { refReal with ea := 0xFFFD#64 } ∧
      (setReg envR 3 0xFFFD).nullSegment .ds = false ∧
      (setReg envR 3 0xFFFD).ds.hid.limit.toNat < ({ refReal with ea := 0xFFFD#64 } : MemRef).ea.toNat + 2 + 1) ∧
    (Executable (.lds16 (bx noPfx)) (setReg envV 3 0xFFFD) ∧ (setReg envV 3 0xFFFD).mode = .v86 ∧
      0xFFFF < ({ refReal with ea := 0xFFFD#64 } : MemRef).ea.toNat + 2 + 1) ∧
    (Executable lds (setReg envP 3 0xFFFFFFFB) ∧ envP.ds.hid.expandDownOrConforming = false ∧
      envP.ds.hid.limit.toNat < (0xFFFFFFFB#64 : BitVec 64).toNat + 4 + 1) :=
  ⟨⟨executable_of (by decide +kernel), by decide +kernel⟩, ⟨executable_of (by decide +kernel), by decide +kernel⟩,
    executable_of (by decide +kernel), by decide +kernel⟩

/-- An expand-down data segment with limit 0x2FFF, and with limit 0x3000. -/
def downSeg (d : BitVec 64) : State := { pointer envP 0x10 with ds := segOf 0x10#16 d }

/-- OperandOutsideLimitFaults for an expand-down segment: an offset at the limit, and one past the upper bound. -/
theorem witness_expand_down :
    (Executable lds (downSeg 0x0040970000003000#64) ∧
      (downSeg 0x0040970000003000#64).memRef lds.enc lds.length = some refProt ∧
      (downSeg 0x0040970000003000#64).mode = .prot ∧ (downSeg 0x0040970000003000#64).ds.hid.isData = true ∧
      (downSeg 0x0040970000003000#64).ds.hid.expandDownOrConforming = true ∧
      refProt.ea.toNat ≤ (downSeg 0x0040970000003000#64).ds.hid.limit.toNat) ∧
    (Executable lds (setReg (downSeg 0x0000970000002FFF#64) 3 0xFFFB) ∧
      (downSeg 0x0000970000002FFF#64).ds.hid.big = false ∧ 0xFFFF < (0xFFFB#64 : BitVec 64).toNat + 4 + 1) :=
  ⟨⟨executable_of (by decide +kernel), by decide +kernel⟩, executable_of (by decide +kernel), by decide +kernel⟩

/-- ExecuteOnlyCsRaisesGp. -/
theorem witness_execute_only :
    Executable (.lds32 (ebx (legPfx [.seg .cs]))) { pointer envP 0x10 with cs := segOf 0x30#16 0x00CF99000000FFFF#64 } ∧
    ({ refProt with override := some .cs } : MemRef).seg = .cs ∧
    (segOf 0x30#16 0x00CF99000000FFFF#64).hid.isCode = true ∧
    (segOf 0x30#16 0x00CF99000000FFFF#64).hid.writableOrReadable = false :=
  ⟨executable_of (by decide +kernel), by decide +kernel⟩

/-- NonCanonicalOperandFaults: the first byte (V-M18) and only the last byte (V-M19); the overrides and defaults of
the four clauses. -/
theorem witness_non_canonical :
    (Executable lfs (setReg envL 3 0x800000000000) ∧
      (setReg envL 3 0x800000000000).memRef lfs.enc lfs.length = some { refLong with ea := 0x800000000000#64 } ∧
      envL.mode = .long64 ∧ envL.canonical 0x800000000000#64 = false) ∧
    (envL.canonical 0x7FFFFFFFFFFB#64 = true ∧ envL.canonical (0x7FFFFFFFFFFB#64 + BitVec.ofNat 64 (4 + 1)) = false) ∧
    (Executable (.lfs32 (ebx (legPfx [.seg .gs]))) envL ∧ (legPfx [.seg .gs]).override = some .gs) ∧
    (Executable (.lfs32 { ebx noPfx with rm := .mem32 (.base 5#3 (.d8 0#8)) }) envL ∧
      Mem32.ssDefault noPfx (.base 5#3 (.d8 0#8)) = true ∧ Mem32.ssDefault noPfx (.base 3#3 .none) = false) ∧
    (Executable (.lfs32 (ebx (legPfx [.seg .ss]))) envL ∧ (legPfx [.seg .ss]).override = some .ss) :=
  ⟨⟨executable_of (by decide +kernel), by decide +kernel⟩, by decide +kernel,
    ⟨executable_of (by decide +kernel), by decide +kernel⟩, ⟨executable_of (by decide +kernel), by decide +kernel⟩,
    executable_of (by decide +kernel), by decide +kernel⟩

/-- ENV-L with FS based 16 below the top of the linear range, EBX = 0xC. -/
def fsTop : State := setReg { envL with fs := { envL.fs with hid := { envL.fs.hid with base := 0xFFFFFFFFFFFFFFF0#64 } } } 3 0xC

/-- The operand `FS:[RBX]` of `fsTop`. -/
def refFsTop : MemRef := { refLong with ea := 0xC#64, override := some .fs }

/-- WrappingOperandIsRefused: at 16 bits (V-M09), at 64 bits (V-M26) and past the top of the linear range by FS. -/
theorem witness_wraps :
    (Executable (.les32 (bx (legPfx [.addrSize]))) (setReg envP 3 0xFFFD) ∧
      (setReg envP 3 0xFFFD).memRef (bx (legPfx [.addrSize])) 3 = some { refReal with ea := 0xFFFD#64 } ∧
      (setReg envP 3 0xFFFD).checkSegment { refReal with ea := 0xFFFD#64 } (4 + 2) = .ok () ∧
      (0xFFFD#64 : BitVec 64).toNat + 4 + 1 > 0xFFFF) ∧
    (Executable lfs (setReg envL 3 0xFFFFFFFFFFFFFFFC) ∧
      (setReg envL 3 0xFFFFFFFFFFFFFFFC).checkSegment { refLong with ea := 0xFFFFFFFFFFFFFFFC#64 } (4 + 2) = .ok () ∧
      (0xFFFFFFFFFFFFFFFC#64 : BitVec 64).toNat + 4 + 1 > 2 ^ 64 - 1) ∧
    (Executable (.lfs32 (ebx (legPfx [.seg .fs]))) fsTop ∧
      fsTop.memRef (ebx (legPfx [.seg .fs])) 4 = some refFsTop ∧ fsTop.checkSegment refFsTop (4 + 2) = .ok () ∧
      fsTop.mode = .long64 ∧ (fsTop.linear refFsTop.seg refFsTop.ea).toNat + 4 + 1 > 2 ^ 64 - 1) :=
  ⟨⟨executable_of (by decide +kernel), by decide +kernel⟩, ⟨executable_of (by decide +kernel), by decide +kernel⟩,
    executable_of (by decide +kernel), by decide +kernel⟩

/-- ENV-P at CPL 3 with alignment checking, EBX one less than a multiple of 4. -/
def unalignedState : State := setReg { envP3 with acEnabled := true } 3 0x3003

/-- The operand of `unalignedState`. -/
def refUnaligned : MemRef := { refProt with ea := 0x3003#64 }

/-- AlignmentAndPageFaults: the operand unaligned, the page faulting, and both. -/
theorem witness_alignment_and_page :
    (Executable lds unalignedState ∧ unalignedState.memRef lds.enc lds.length = some refUnaligned ∧
      unalignedState.checkSegment refUnaligned (4 + 2) = .ok () ∧ unalignedState.wraps refUnaligned (4 + 2) = false ∧
      unalignedState.mode ≠ .real ∧ unalignedState.acEnabled = true ∧ unalignedState.cpl = 3#2 ∧
      (unalignedState.linear refUnaligned.seg refUnaligned.ea).toNat % 4 ≠ 0 ∧
      unalignedState.translateAll .read (.level 3#2) (unalignedState.operandBytes refUnaligned (4 + 2)) =
        .ok (bytesFrom 0x3003 6)) ∧
    (Executable lds (faultPage (pointer envP 0x10) 0x3000 0x3FFF .read (.level 0#2)) ∧ envP.acEnabled = false ∧
      (faultPage (pointer envP 0x10) 0x3000 0x3FFF .read (.level 0#2)).translateAll .read (.level 0#2)
        (bytesFrom 0x3000 6) = .error (.fault (.pf 5#32 0x3000#64))) ∧
    (Executable lds (faultPage unalignedState 0x3000 0x3FFF .read (.level 3#2)) ∧
      (faultPage unalignedState 0x3000 0x3FFF .read (.level 3#2)).translateAll .read (.level 3#2)
        (bytesFrom 0x3003 6) = .error (.fault (.pf 5#32 0x3003#64))) :=
  ⟨⟨executable_of (by decide +kernel), by decide +kernel⟩, ⟨executable_of (by decide +kernel), by decide +kernel⟩,
    executable_of (by decide +kernel), by decide +kernel⟩

/-- RealAndV86LoadCompletes, for each of the ten forms, in both modes. -/
theorem witness_real_and_v86_load : ∀ i ∈ tenForms,
    (Ready i realState refReal (bytesFrom 0x100 (i.osz.bytes + 2)) ∧ NextPcInRange realState i.length ∧
      realState.mode = .real) ∧
    (Ready i v86State refReal (bytesFrom 0x100 (i.osz.bytes + 2)) ∧ NextPcInRange v86State i.length ∧
      v86State.mode = .v86) := by
  have h : ∀ i ∈ tenForms, meets i realState refReal (bytesFrom 0x100 (i.osz.bytes + 2)) = true ∧
      meets i v86State refReal (bytesFrom 0x100 (i.osz.bytes + 2)) = true := by decide +kernel
  exact fun i hi => ⟨⟨(ready_of_meets (h i hi).1).1, (ready_of_meets (h i hi).1).2, rfl⟩,
    (ready_of_meets (h i hi).2).1, (ready_of_meets (h i hi).2).2, rfl⟩

/-- The instruction reaches the load, and these hold of the selector it read. -/
def Reach (i : Instr) (s : State) (r : MemRef) (as : List (BitVec 64)) (sel : BitVec 16) : Prop :=
  Ready i s r as ∧ NextPcInRange s i.length ∧ s.readSelector i.osz as = sel

theorem reach_of {i : Instr} {s : State} {r : MemRef} {as : List (BitVec 64)} {sel : BitVec 16}
    (h : (meets i s r as && s.readSelector i.osz as == sel) = true) : Reach i s r as sel := by
  simp only [Bool.and_eq_true, beq_iff_eq] at h
  exact ⟨(ready_of_meets h.1).1, (ready_of_meets h.1).2, h.2⟩

/-- NullDataSelectorLoads: selector 0 in protected mode, 3 in compatibility and in 64-bit mode. -/
theorem witness_null_data :
    Reach lds (pointer envP 0) refProt (bytesFrom 0x3000 6) 0#16 ∧
    Reach lds (pointer envC 3) refProt (bytesFrom 0x3000 6) 3#16 ∧
    Reach lfs (pointer envL 3) refLong (bytesFrom 0x3000 6) 3#16 ∧ lds.mnem ≠ .lss ∧ lfs.mnem ≠ .lss ∧
    envP.checksSegments ∧ envC.checksSegments ∧ envL.checksSegments :=
  ⟨reach_of (by decide +kernel), reach_of (by decide +kernel), reach_of (by decide +kernel), by decide, by decide,
    .inl rfl, .inr (.inl rfl), .inr (.inr rfl)⟩

/-- ProtectedSsLoad: the NULL selectors 0 and 3, the first selector outside the table, and a page fault on the table
with the RPL equal and not equal to CPL. -/
theorem witness_ss_prot_refusals :
    Reach lss (pointer envP 0) refProt (bytesFrom 0x3000 6) 0#16 ∧
    Reach lss (pointer envC 3) refProt (bytesFrom 0x3000 6) 3#16 ∧
    (Reach lss (pointer envP 0x58) refProt (bytesFrom 0x3000 6) 0x58#16 ∧ (pointer envP 0x58).inTable 0x58#16 = false) ∧
    (Reach lss (faultPage (pointer envP 0x10) 0x10000 0x10FFF .read .supervisor) refProt (bytesFrom 0x3000 6) 0x10#16 ∧
      envP.inTable 0x10#16 = true ∧ rpl 0x10#16 = envP.cpl ∧
      (faultPage (pointer envP 0x10) 0x10000 0x10FFF .read .supervisor).translateAll .read .supervisor
        (envP.descBytes 0x10#16) = .error (.fault (.pf 5#32 0x10010#64))) ∧
    (Reach lss (faultPage (pointer envP 0x13) 0x10000 0x10FFF .read .supervisor) refProt (bytesFrom 0x3000 6) 0x13#16 ∧
      rpl 0x13#16 ≠ envP.cpl) ∧ lss.mnem = .lss ∧ (pointer envP 0x10).mem.wf = true :=
  ⟨reach_of (by decide +kernel), reach_of (by decide +kernel), ⟨reach_of (by decide +kernel), by decide +kernel⟩,
    ⟨reach_of (by decide +kernel), by decide +kernel⟩, ⟨reach_of (by decide +kernel), by decide⟩, by decide,
    by decide +kernel⟩

theorem descriptor_of {s : State} {sel : BitVec 16} {d : BitVec 64} (h : s.readDescriptor sel = .ok d) :
    DescriptorRead s sel d := readDescriptor_eq_ok.1 h

theorem update_of {s : State} {sel : BitVec 16} {d : BitVec 64} {n : SegLoad} (h : s.loadDescriptor sel d = .ok n) :
    AccessedUpdate s sel d n.accessed := (loadDescriptor_eq_ok.1 h).2.1

/-- ProtectedSsLoad: each descriptor test failing, the segment not present, a load with the accessed bit 1, and one
that sets it. -/
theorem witness_ss_prot_loads :
    (Reach lss (pointer envP 0x13) refProt (bytesFrom 0x3000 6) 0x13#16 ∧
      DescriptorRead (pointer envP 0x13) 0x13#16 0x00CF93000000FFFF#64 ∧ rpl 0x13#16 ≠ envP.cpl) ∧
    (DescriptorRead (pointer envP 0x20) 0x20#16 0x00CF91000000FFFF#64 ∧ isWritableData 0x00CF91000000FFFF#64 = false) ∧
    (DescriptorRead (pointer envP 0x18) 0x18#16 0x0040F3200000FFFF#64 ∧ descDpl 0x0040F3200000FFFF#64 ≠ envP.cpl) ∧
    (Reach lss (pointer envP 0x28) refProt (bytesFrom 0x3000 6) 0x28#16 ∧
      DescriptorRead (pointer envP 0x28) 0x28#16 0x00CF13000000FFFF#64 ∧ isPresent 0x00CF13000000FFFF#64 = false) ∧
    (Reach lss (pointer envP 0x10) refProt (bytesFrom 0x3000 6) 0x10#16 ∧
      DescriptorRead (pointer envP 0x10) 0x10#16 0x00CF93000000FFFF#64 ∧ rpl 0x10#16 = envP.cpl ∧
      isWritableData 0x00CF93000000FFFF#64 = true ∧ descDpl 0x00CF93000000FFFF#64 = envP.cpl ∧
      isPresent 0x00CF93000000FFFF#64 = true ∧
      AccessedUpdate (pointer envP 0x10) 0x10#16 0x00CF93000000FFFF#64 none) ∧
    (Reach lss (pointer envC 0x40) refProt (bytesFrom 0x3000 6) 0x40#16 ∧
      DescriptorRead (pointer envC 0x40) 0x40#16 0x00CF92000000FFFF#64 ∧
      AccessedUpdate (pointer envC 0x40) 0x40#16 0x00CF92000000FFFF#64 (some 0x10045)) :=
  ⟨⟨reach_of (by decide +kernel), descriptor_of (by decide +kernel), by decide⟩,
    ⟨descriptor_of (by decide +kernel), by decide⟩, ⟨descriptor_of (by decide +kernel), by decide⟩,
    ⟨reach_of (by decide +kernel), descriptor_of (by decide +kernel), by decide⟩,
    ⟨reach_of (by decide +kernel), descriptor_of (by decide +kernel), by decide, by decide, by decide, by decide,
      update_of (n := { reg := segOf 0x10#16 0x00CF93000000FFFF#64, accessed := none, drawn := false })
        (by decide +kernel)⟩,
    reach_of (by decide +kernel), descriptor_of (by decide +kernel),
    update_of (n := { reg := segOf 0x40#16 0x00CF93000000FFFF#64, accessed := some 0x10045, drawn := false })
      (by decide +kernel)⟩

/-- ProtectedDataSegmentLoad: outside the table; a page fault; a wrong type; a failing privilege test; not present; a
data segment; readable conforming code, whatever the privilege. -/
theorem witness_data_prot :
    (Reach lds (pointer envP 4) refProt (bytesFrom 0x3000 6) 4#16 ∧ envP.inTable 4#16 = false) ∧
    (Reach lds (faultPage (pointer envP 0x10) 0x10000 0x10FFF .read .supervisor) refProt (bytesFrom 0x3000 6) 0x10#16 ∧
      envP.inTable 0x10#16 = true) ∧
    (DescriptorRead (pointer envP 0x48) 0x48#16 0x0000820000000000#64 ∧
      ¬(isData 0x0000820000000000#64 = true ∨ isReadableCode 0x0000820000000000#64 = true)) ∧
    (DescriptorRead (pointer envP 0x13) 0x13#16 0x00CF93000000FFFF#64 ∧ isData 0x00CF93000000FFFF#64 = true ∧
      ¬rpl 0x13#16 ≤ descDpl 0x00CF93000000FFFF#64) ∧
    (DescriptorRead (pointer envP 0x28) 0x28#16 0x00CF13000000FFFF#64 ∧ isPresent 0x00CF13000000FFFF#64 = false) ∧
    (Reach lds (pointer envP 0x1B) refProt (bytesFrom 0x3000 6) 0x1B#16 ∧
      DescriptorRead (pointer envP 0x1B) 0x1B#16 0x0040F3200000FFFF#64 ∧ rpl 0x1B#16 ≤ descDpl 0x0040F3200000FFFF#64 ∧
      envP.cpl ≤ descDpl 0x0040F3200000FFFF#64 ∧ isPresent 0x0040F3200000FFFF#64 = true ∧
      AccessedUpdate (pointer envP 0x1B) 0x1B#16 0x0040F3200000FFFF#64 none) ∧
    (Reach lds (pointer envP3 0x3B) refProt (bytesFrom 0x3000 6) 0x3B#16 ∧
      DescriptorRead (pointer envP3 0x3B) 0x3B#16 0x00CF9F000000FFFF#64 ∧ isReadableCode 0x00CF9F000000FFFF#64 = true ∧
      ¬(isData 0x00CF9F000000FFFF#64 = true ∨ isNonconformingCode 0x00CF9F000000FFFF#64 = true)) ∧
    (pointer envP3 0x3B).mem.wf = true :=
  ⟨⟨reach_of (by decide +kernel), by decide +kernel⟩, ⟨reach_of (by decide +kernel), by decide +kernel⟩,
    ⟨descriptor_of (by decide +kernel), by decide⟩, ⟨descriptor_of (by decide +kernel), by decide⟩,
    ⟨descriptor_of (by decide +kernel), by decide⟩,
    ⟨reach_of (by decide +kernel), descriptor_of (by decide +kernel), by decide, by decide, by decide,
      update_of (n := { reg := segOf 0x1B#16 0x0040F3200000FFFF#64, accessed := none, drawn := false })
        (by decide +kernel)⟩,
    ⟨reach_of (by decide +kernel), descriptor_of (by decide +kernel), by decide, by decide⟩, by decide +kernel⟩

/-- ENV-L with the GDTR of V-L28: the entry of selector 0x40 is at the first non-canonical address. -/
def farTable : State := { envL with gdtr := { base := 0x00007FFFFFFFFFC0#64, limit := 0xFFFF#16 } }

/-- Long64FsGsLoad: LFS and LGS of 64 bits and LFS of 32, completing; an entry that is not canonical; not present. -/
theorem witness_fs_gs_long :
    (Reach (.lfs64 (ebx rexW)) (pointer64 envL 0x18) refLong (bytesFrom 0x3000 10) 0x18#16 ∧
      Reach (.lgs64 (ebx rexW)) (pointer64 envL 0x18) refLong (bytesFrom 0x3000 10) 0x18#16 ∧
      envL.canonical (envL.descAddr 0x18#16) = true ∧ envL.canonical (envL.descAddr 0x18#16 + 7#64) = true ∧
      envL.inTable 0x18#16 = true ∧ DescriptorRead (pointer64 envL 0x18) 0x18#16 0x0040F3200000FFFF#64 ∧
      AccessedUpdate (pointer64 envL 0x18) 0x18#16 0x0040F3200000FFFF#64 none ∧
      (pointer64 envL 0x18).mem.wf = true) ∧
    (Reach lfs (pointer farTable 0x40) refLong (bytesFrom 0x3000 6) 0x40#16 ∧ farTable.inTable 0x40#16 = true ∧
      ¬(farTable.canonical (farTable.descAddr 0x40#16) = true ∧
        farTable.canonical (farTable.descAddr 0x40#16 + 7#64) = true)) ∧
    (Reach lfs (pointer envL 0x28) refLong (bytesFrom 0x3000 6) 0x28#16 ∧
      DescriptorRead (pointer envL 0x28) 0x28#16 0x00CF13000000FFFF#64 ∧ isPresent 0x00CF13000000FFFF#64 = false) :=
  ⟨⟨reach_of (by decide +kernel), reach_of (by decide +kernel), by decide +kernel, by decide +kernel, by decide +kernel,
      descriptor_of (by decide +kernel),
      update_of (n := { reg := segOf 0x18#16 0x0040F3200000FFFF#64, accessed := none, drawn := false })
        (by decide +kernel), by decide +kernel⟩,
    ⟨reach_of (by decide +kernel), by decide +kernel, by decide +kernel⟩,
    reach_of (by decide +kernel), descriptor_of (by decide +kernel), by decide⟩

/-- Long64SsLoad: LSS of 64 bits completing; an entry that is not canonical; a page fault; not present. -/
theorem witness_ss_long :
    (Reach (.lss64 (ebx rexW)) (pointer64 envL 0x10) refLong (bytesFrom 0x3000 10) 0x10#16 ∧
      envL.inTable 0x10#16 = true ∧ envL.descCanonical 0x10#16 = true ∧
      DescriptorRead (pointer64 envL 0x10) 0x10#16 0x00CF93000000FFFF#64 ∧
      AccessedUpdate (pointer64 envL 0x10) 0x10#16 0x00CF93000000FFFF#64 none ∧
      (pointer64 envL 0x10).mem.wf = true) ∧
    (Reach lss (pointer farTable 0x40) refLong (bytesFrom 0x3000 6) 0x40#16 ∧ farTable.descCanonical 0x40#16 = false) ∧
    (Reach lss (faultPage (pointer envL 0x10) 0x10000 0x10FFF .read .supervisor) refLong (bytesFrom 0x3000 6) 0x10#16 ∧
      envL.descCanonical 0x10#16 = true) ∧
    (Reach lss (pointer envL 0x28) refLong (bytesFrom 0x3000 6) 0x28#16 ∧
      DescriptorRead (pointer envL 0x28) 0x28#16 0x00CF13000000FFFF#64) :=
  ⟨⟨reach_of (by decide +kernel), by decide +kernel, by decide +kernel, descriptor_of (by decide +kernel),
      update_of (n := { reg := segOf 0x10#16 0x00CF93000000FFFF#64, accessed := none, drawn := false })
        (by decide +kernel), by decide +kernel⟩,
    ⟨reach_of (by decide +kernel), by decide +kernel⟩, ⟨reach_of (by decide +kernel), by decide +kernel⟩,
    reach_of (by decide +kernel), descriptor_of (by decide +kernel)⟩

/-- Long64NullSsLoad: permitted (CPL 2, selector 2); CPL 3; RPL not CPL. -/
theorem witness_null_ss_long :
    (Reach lss (pointer { envL with cpl := 2#2 } 2) refLong (bytesFrom 0x3000 6) 2#16 ∧ (2#2 : BitVec 2) ≠ 3#2 ∧
      rpl 2#16 = 2#2) ∧
    (Reach lss (pointer envL3 3) refLong (bytesFrom 0x3000 6) 3#16 ∧ envL3.cpl = 3#2) ∧
    (Reach lss (pointer envL 1) refLong (bytesFrom 0x3000 6) 1#16 ∧ rpl 1#16 ≠ envL.cpl) :=
  ⟨⟨reach_of (by decide +kernel), by decide, by decide⟩, ⟨reach_of (by decide +kernel), by decide +kernel⟩,
    reach_of (by decide +kernel), by decide +kernel⟩

/-- DescriptorLookup: both tables, at the limit exactly and one short of it. -/
theorem witness_descriptor_lookup :
    ((0x50#16).getLsbD 2 = false ∧ 8 * ((0x50#16).toNat / 8) + 7 ≤ envP.gdtr.limit.toNat ∧
      ¬8 * ((0x58#16).toNat / 8) + 7 ≤ envP.gdtr.limit.toNat) ∧
    ((0x0C#16).getLsbD 2 = true ∧ envP.ldtr.valid = false) := by decide +kernel

/-- The frames: every form answers a next state, the ten in real-address mode and the three of 64 bits. -/
theorem witness_frames :
    (∀ i ∈ tenForms, ∃ t, exec i realState = .next t) ∧ (∃ t, exec (.lfs64 (ebx rexW)) (pointer64 envL 0x18) = .next t) ∧
    (∃ t, exec (.lgs64 (ebx rexW)) (pointer64 envL 0x18) = .next t) ∧
    (∃ t, exec (.lss64 (ebx rexW)) (pointer64 envL 0x10) = .next t) := by
  have next : ∀ {o : Host.Outcome State Fault Refusal},
      (match o with | .next _ => true | .fault _ => false | .refused _ => false) = true → ∃ t, o = .next t := by
    intro o h
    cases o <;> simp_all
  refine ⟨fun i hi => next ?_, next (by decide +kernel), next (by decide +kernel), next (by decide +kernel)⟩
  revert i
  decide +kernel

/-- OnlyTheAccessedByteIsWritten, OffsetAndSelectorGoWhereTheyBelong: the operand's address and bytes, memory
canonical, for a load that marks its descriptor (the byte computed), for one that does not, and for a NULL one. -/
theorem witness_memory_frame :
    ((match exec lss (pointer envP 0x40) with | .next _ => true | .fault _ => false | .refused _ => false) = true ∧
      (pointer envP 0x40).mem.wf = true ∧ (pointer envP 0x40).memRef lss.enc lss.length = some refProt ∧
      (pointer envP 0x40).translateAll .read (.level envP.cpl) ((pointer envP 0x40).operandBytes refProt (4 + 2)) =
        .ok (bytesFrom 0x3000 6) ∧
      (pointer envP 0x40).readSelector .w32 (bytesFrom 0x3000 6) = 0x40#16 ∧ isNull 0x40#16 = false ∧
      isAccessed 0x00CF92000000FFFF#64 = false ∧ envP.cfg.setAccessed = true ∧
      (pointer envP 0x40).accessedByte 0x40#16 = .ok 0x10045) ∧
    ((match exec lss (pointer envP 0x10) with | .next _ => true | .fault _ => false | .refused _ => false) = true ∧
      isAccessed 0x00CF93000000FFFF#64 = true) ∧
    ((match exec lds (pointer envP 0) with | .next _ => true | .fault _ => false | .refused _ => false) = true ∧
      isNull ((pointer envP 0).readSelector .w32 (bytesFrom 0x3000 6)) = true) := by decide +kernel

/-- OperandSegmentAndLinearAddress: an ES override and none in protected mode, FS and CS overrides in `Long64`. -/
theorem witness_operand_segment :
    (envP.memRef (ebx (legPfx [.opSize, .seg .es])) 4 = some { refProt with ea := 0#64, override := some .es } ∧
      legacyProblem [.opSize, .seg .es] = none ∧ LegacyPfx.seg .es ∈ [LegacyPfx.opSize, .seg .es] ∧ envP.mode ≠ .long64) ∧
    (envP.memRef (ebx noPfx) 3 = some { refProt with ea := 0#64 } ∧ ∀ g, LegacyPfx.seg g ∉ noPfx.legacy) ∧
    (fsTop.memRef (ebx (legPfx [.seg .fs])) 4 = some refFsTop ∧ refFsTop.seg = .fs ∧ fsTop.mode = .long64) ∧
    (fsTop.memRef (ebx (legPfx [.seg .cs])) 4 = some { refFsTop with override := some .cs } ∧
      ({ refFsTop with override := some .cs } : MemRef).seg = .cs) :=
  ⟨by decide +kernel, ⟨by decide +kernel, fun _ h => by cases h⟩, by decide +kernel, by decide +kernel⟩

/-- DescriptorFormat: index 3 of the table of 95_test_vectors.md section 2 (0x0040F3200000FFFF), field by field. -/
theorem witness_descriptor_format :
    (unpack 0x0040F3200000FFFF#64).base = 0x200000#64 ∧ (unpack 0x0040F3200000FFFF#64).limit = 0xFFFF#32 ∧
    descDpl 0x0040F3200000FFFF#64 = 3#2 ∧ isWritableData 0x0040F3200000FFFF#64 = true ∧
    (unpack 0x00CF93000000FFFF#64).limit = 0xFFFFFFFF#32 := by decide +kernel

/-- CanonicalMeansEqualUpperBits, LittleEndianValue: the edges at `LINEAR_BITS` = 48, and a two-byte value. -/
theorem witness_canonical_and_little_endian :
    envL.cfg.linearBits = 48 ∧ envL.canonical 0x00007FFFFFFFFFFF#64 = true ∧ envL.canonical 0x0000800000000000#64 = false ∧
    envL.canonical 0xFFFF800000000000#64 = true ∧ leValue [0x34#8, 0x12#8] = 0x1234 ∧ 1 < [0x34#8, 0x12#8].length := by
  decide +kernel

/-- FetchReadsThroughCs: the whole window, in each of the five modes, and up to the last offset in virtual-8086 mode. -/
theorem witness_fetch :
    ∀ s ∈ [realState, v86State, { v86State with pc := 0xFFF1#64 }, envP, envC, envL],
      let top := if s.mode = .long64 then 2 ^ 64 - 1 else if s.csD then 0xFFFFFFFF else 0xFFFF
      let offset (j : Nat) : Nat := s.pc.toNat % (top + 1) + j
      let la (j : Nat) : BitVec 64 :=
        if s.mode = .long64 then BitVec.ofNat 64 (offset j)
        else BitVec.ofNat 64 ((s.cs.hid.base.toNat + offset j) % 2 ^ 32)
      ∀ j, j ≤ 14 → offset j ≤ top ∧ (s.mode = .long64 → s.canonical (la j) = true) ∧
        (s.mode = .v86 → offset j ≤ 0xFFFF) ∧
        (s.mode ≠ .long64 → s.mode ≠ .v86 → offset j ≤ s.cs.hid.limit.toNat) ∧
        s.translate .read (.level s.cpl) (la j) = .ok (BitVec.ofNat 64 (s.pc.toNat + j)) ∧
        s.hasSideEffect (BitVec.ofNat 64 (s.pc.toNat + j)) = false := by decide +kernel

/-- MarkedBytesAreNotExecuted: the third clause (witness_memory_frame meets the first, witness_invariant steps). -/
theorem witness_marked_code :
    (1#64 ∈ (putBytes realState 0 [0xC5, 0x37]).fetchWindow.1.take 2) ∧
    (1#64 : BitVec 64).toNat ∈ ({ putBytes realState 0 [0xC5, 0x37] with modifiedCode := [1] } : State).modifiedCode := by
  decide +kernel

/-- RunEndsInOneOfThreeWays, EveryRunEnds: `LDS SI,[BX]` listed at 0 runs to its end, with the pc past it; a register
source ends in `#UD`; a byte outside the group is refused (R289). -/
theorem witness_run_ends :
    (match realState.runListed 0#64 [0xC5#8, 0x37#8] 1 with
      | some (.completed t) => t.pc == 2#64
      | some (.faulted _ _) | some (.refused _ _) | none => false) = true ∧
    (match realState.runListed 0#64 [0xC5#8, 0xC0#8] 1 with
      | some (.faulted f t) => f == .ud && t.pc == 0#64
      | some (.completed _) | some (.refused _ _) | none => false) = true ∧
    (match realState.runListed 0#64 [0x90#8] 1 with
      | some (.refused r t) => r == .undecodable .notInGroup && t.pc == 0#64
      | some (.completed _) | some (.faulted _ _) | none => false) = true := by decide +kernel

/-- ListedBytesStandAtPc: eight bytes at 0x7C00, and up to the last offset of a 16-bit code segment. -/
theorem witness_listed_bytes :
    envR.mem.wf = true ∧
    ({ envR with pc := 0x7C00#64 } : State).codeWindow 8 ({ envR with pc := 0x7C00#64 } : State).pcOffset =
      (bytesFrom 0x7C00 8, none) ∧ (bytesFrom 0x7C00 8).Nodup ∧
    ({ envR with pc := 0xFFF8#64 } : State).codeWindow 8 ({ envR with pc := 0xFFF8#64 } : State).pcOffset =
      (bytesFrom 0xFFF8 8, none) ∧ (bytesFrom 0xFFF8 8).Nodup := by decide +kernel

/-- LssReplacesStackSegmentAndPointer. -/
theorem witness_lss_stack :
    (Instr.lss32 { ebx noPfx with reg := 4#3 }).mnem = .lss ∧ (Instr.lss32 { ebx noPfx with reg := 4#3 }).enc.dest = 4#4 ∧
    (match exec (.lss32 { ebx noPfx with reg := 4#3 }) (pointer envP 0x10) with
      | .next _ => true | .fault _ => false | .refused _ => false) = true ∧
    (pointer envP 0x10).memRef { ebx noPfx with reg := 4#3 } 3 = some refProt ∧
    (pointer envP 0x10).translateAll .read (.level envP.cpl) ((pointer envP 0x10).operandBytes refProt (4 + 2)) =
        .ok (bytesFrom 0x3000 6) := by decide +kernel

/-- RealModeExceptions, V86ModeExceptions: each exception that can be raised there. -/
theorem witness_real_and_v86_exceptions :
    (exec (.lds16 { bx noPfx with rm := .register 0#3 }) realState = .fault .ud ∧
      exec (.lds16 (bx noPfx)) (setReg envR 3 0xFFFD) = .fault (.gp none) ∧
      exec (.les16 { bx noPfx with rm := .mem16 (.based .bp (.d8 0#8)) }) (setReg envR 5 0xFFFE) = .fault (.ss none)) ∧
    (exec (.lds16 (bx noPfx)) (setReg envV 3 0xFFFD) = .fault (.gp (some 0#16)) ∧
      exec (.les16 { bx noPfx with rm := .mem16 (.based .bp (.d8 0#8)) }) (setReg envV 5 0xFFFE) =
        .fault (.ss (some 0#16)) ∧
      exec (.lds16 (bx noPfx)) (faultPage v86State 0x100 0x1FF .read (.level 3#2)) = .fault (.pf 5#32 0x100#64) ∧
      exec (.lds16 (bx noPfx)) (setReg { envV with acEnabled := true } 3 0x101) = .fault (.ac 0#16)) :=
  ⟨⟨eq_fault_of (by decide +kernel), eq_fault_of (by decide +kernel), eq_fault_of (by decide +kernel)⟩,
    eq_fault_of (by decide +kernel), eq_fault_of (by decide +kernel), eq_fault_of (by decide +kernel),
    eq_fault_of (by decide +kernel)⟩

/-- ProtectedModeExceptions: each exception that can be raised there. -/
theorem witness_protected_exceptions :
    envP.mode = .prot ∧ exec (.lds32 (ebx (legPfx [.lock]))) envP = .fault .ud ∧
    exec lds (pointer envP 0x13) = .fault (.gp (some 0x10#16)) ∧ exec lss (pointer envP 0x28) = .fault (.ss (some 0x28#16)) ∧
    exec lds (pointer envP 0x28) = .fault (.np 0x28#16) ∧
    exec lds (faultPage (pointer envP 0x10) 0x3000 0x3FFF .read (.level 0#2)) = .fault (.pf 5#32 0x3000#64) ∧
    exec lds unalignedState = .fault (.ac 0#16) :=
  ⟨rfl, eq_fault_of (by decide +kernel), eq_fault_of (by decide +kernel), eq_fault_of (by decide +kernel),
    eq_fault_of (by decide +kernel), eq_fault_of (by decide +kernel), eq_fault_of (by decide +kernel)⟩

/-- FlagsAreNotRead, RealAndV86ReadNoTable: a step with each of the three outcomes, in real-address mode. -/
theorem witness_three_outcomes :
    realState.mode = .real ∧ run realState [0xC5, 0x37] (fun _ => true) = true ∧
    faults realState [0xC5, 0xC0] .ud = true ∧ (match step realState with | .refused r => r == .undecodable .notInGroup | .next _ => false | .fault _ => false) = true := by
  decide +kernel

theorem dataSegConsistent_of {s : State} {g : SegReg} (h : (g.hid.isData && g.hid.present && decide (s.cpl ≤ g.hid.dpl)
    && decide (rpl g.sel ≤ g.hid.dpl)) = true) : DataSegConsistent s g := by
  simp only [Bool.and_eq_true, decide_eq_true_eq] at h
  exact fun _ _ => ⟨.inl h.1.1.1, h.1.1.2, fun _ => ⟨h.1.2, h.2⟩⟩

/-- ENV-P with `LSS EAX,[EBX]` at `pc`, where the pointer's selector is 0x40. -/
def runState : State := putBytes (pointer envP 0x40) 0 [0x0F, 0xB2, 0x03]

/-- StepKeepsInvariant, RunsKeepSystemState: a protected-mode state that meets the invariant and takes a step. -/
theorem witness_invariant : Inv runState ∧ ∃ t, step runState = .next t ∧ Reaches runState t := by
  have next : ∀ {o : Host.Outcome State Fault Refusal},
      (match o with | .next _ => true | .fault _ => false | .refused _ => false) = true → ∃ t, o = .next t := by
    intro o h
    cases o <;> simp_all
  refine ⟨⟨by decide +kernel, ⟨by decide +kernel, by decide +kernel, by decide +kernel⟩,
    ⟨fun _ _ => by decide +kernel, by decide +kernel⟩, dataSegConsistent_of (by decide +kernel),
    dataSegConsistent_of (by decide +kernel), dataSegConsistent_of (by decide +kernel),
    dataSegConsistent_of (by decide +kernel), fun h => ?_⟩, ?_⟩
  · exact absurd h (by decide +kernel)
  · obtain ⟨t, h⟩ := next (o := step runState) (by decide +kernel)
    exact ⟨t, h, .tail (.refl _) h⟩

/-- EqualMemoriesAreEqualData: two memories made by different writes. -/
theorem witness_equal_memories :
    Memory.wf (Memory.write (Memory.write (Memory.write [] 5 1#8) 3 2#8) 5 0#8) = true ∧
    Memory.wf (Memory.write [] 3 2#8) = true ∧
    ∀ a, Memory.read (Memory.write (Memory.write (Memory.write [] 5 1#8) 3 2#8) 5 0#8) a =
      Memory.read (Memory.write [] 3 2#8) a := ⟨by decide +kernel, by decide +kernel, fun _ => rfl⟩

end Sys2Proof.Tests
end

section
/-! PROOFS. The statements of spec/10_state.md: the state's invariant and frame, that the flags do not enter, canonical
memory, and the formats of selectors and descriptors, each after the lemmas it needs. -/

namespace Sys2Proof.Machine

/-! ## The invariant: the segment registers -/

section congr

variable {s t : State} (hm : t.mode = s.mode) (hc : t.cpl = s.cpl)
include hm hc

/-- Of the state, the test of a data segment register reads MODE and CPL. -/
theorem dataSegConsistent_congr {g : SegReg} : DataSegConsistent t g ↔ DataSegConsistent s g := by
  simp only [DataSegConsistent, State.checksSegments, hm, hc]

/-- Of the state, the test of SS reads MODE, CPL and SS. -/
theorem ssConsistent_congr (hr : t.ss = s.ss) (h : SsConsistent s) : SsConsistent t where
  usable := by simpa only [State.checksSegments, hm, hc, hr] using h.usable
  notNull := by simpa only [hm, hr] using h.notNull

/-- MODE, CPL and the configuration agree as long as they stay. -/
theorem modeConsistent_congr (hf : t.cfg = s.cfg) (h : ModeConsistent s) : ModeConsistent t where
  realCpl := by simpa only [hm, hc] using h.realCpl
  v86Cpl := by simpa only [hm, hc] using h.v86Cpl
  intel64 := by simpa only [hm, hf] using h.intel64

end congr

/-- What the tests of a data-segment load leave is what the invariant asks (R224, R225). -/
theorem loadData_dataSegConsistent {s : State} {sel : BitVec 16} {n : SegLoad} (h : s.loadData sel = .ok n) :
    DataSegConsistent s n.reg := by
  obtain ⟨d, -, htype, hpriv, hpresent, hl⟩ := loadData_eq_ok.1 h
  obtain ⟨hreg, -, -⟩ := loadDescriptor_eq_ok.1 hl
  obtain ⟨hdata, hcode, hw, hc, hp, hd⟩ := unpack_withAccessed d
  intro _ _
  rw [hreg, hdata, hcode, hw, hc, hp, hd]
  refine ⟨by simpa only [isReadableCode, Bool.and_eq_true] using htype, hpresent, fun hchecked => ?_⟩
  have hchecked' : (isData d || isNonconformingCode d) = true := by
    simpa only [isNonconformingCode, Bool.or_eq_true, Bool.and_eq_true, Bool.not_eq_true'] using hchecked
  rw [State.privilegeFails, hchecked'] at hpriv
  simp only [Bool.true_and, Bool.or_eq_false_iff, decide_eq_false_iff_not, BitVec.not_lt] at hpriv
  obtain ⟨hrpl, hcpl⟩ := hpriv
  exact ⟨hcpl, hrpl⟩

/-- What any load of DS, ES, FS or GS leaves is what the invariant asks. -/
theorem newSegment_dataSegConsistent {s : State} {g : Seg} {sel : BitVec 16} {n : SegLoad}
    (h : s.newSegment g sel = .ok n) (hg : g ≠ .ss) : DataSegConsistent s n.reg := by
  rcases newSegment_cases h with ⟨hm, -⟩ | ⟨-, -, -, rfl⟩ | ⟨-, -, hss, -⟩ | ⟨-, -, -, ⟨hss, -⟩ | ⟨-, hl⟩⟩
  · exact fun hs => absurd hm (not_real_of_checksSegments hs)
  · exact fun _ => nofun
  · exact absurd hss hg
  · exact absurd hss hg
  · exact loadData_dataSegConsistent hl

/-- What the tests of an SS load leave is what the invariant asks (R223, R227). -/
theorem loadSs_ssConsistent {s t : State} {sel : BitVec 16} {n : SegLoad} (h : s.loadSs sel = .ok n)
    (hc : t.cpl = s.cpl) (hr : t.ss = n.reg) : SsConsistent t := by
  obtain ⟨d, -, hrpl, hwritable, hdpl, hpresent, hl⟩ := loadSs_eq_ok.1 h
  obtain ⟨hreg, -, -⟩ := loadDescriptor_eq_ok.1 hl
  obtain ⟨hdata, -, hw, -, hp, hd⟩ := unpack_withAccessed d
  rw [isWritableData, Bool.and_eq_true] at hwritable
  obtain ⟨hisData, hbit⟩ := hwritable
  rw [hreg] at hr
  constructor
  · intro _ _
    rw [hr, hc]
    exact ⟨hdata.trans hisData, hw.trans hbit, hp.trans hpresent, hd.trans hdpl, hrpl⟩
  · intro _
    rw [hr]

/-- What any load of SS leaves is what the invariant asks; a NULL selector, only in 64-bit mode (R228). -/
theorem newSegment_ssConsistent {s t : State} {sel : BitVec 16} {n : SegLoad} (h : s.newSegment .ss sel = .ok n)
    (hm : t.mode = s.mode) (hc : t.cpl = s.cpl) (hr : t.ss = n.reg) : SsConsistent t := by
  rcases newSegment_cases h with ⟨hreal, -⟩ | ⟨-, -, hss, -⟩ | ⟨hlong, -, -, -, -, rfl⟩ | ⟨-, -, -, ⟨-, hl⟩ | ⟨hss, -⟩⟩
  · rw [← hm] at hreal
    exact ⟨fun hs => absurd hreal (not_real_of_checksSegments hs), by rcases hreal with h | h <;> simp [h]⟩
  · exact absurd rfl hss
  · exact ⟨fun _ hv => by simp [hr] at hv, by simp [hm, hlong]⟩
  · exact loadSs_ssConsistent hl hc hr
  · exact absurd rfl hss

/-- The accessed bit that a load sets is at an address of the address space. -/
theorem newSegment_accessed_lt {s : State} {g : Seg} {sel : BitVec 16} {n : SegLoad} (h : s.newSegment g sel = .ok n) :
    ∀ a, n.accessed = some a → a < 2 ^ 64 := by
  have ofDescriptor : ∀ {d}, s.loadDescriptor sel d = .ok n → ∀ a, n.accessed = some a → a < 2 ^ 64 := by
    intro d hl
    obtain ⟨-, hupdate, -⟩ := loadDescriptor_eq_ok.1 hl
    exact accessedUpdate_lt hupdate
  rcases newSegment_cases h with ⟨-, rfl⟩ | ⟨-, -, -, rfl⟩ | ⟨-, -, -, -, -, rfl⟩ | ⟨-, -, -, ⟨-, hl⟩ | ⟨-, hl⟩⟩
  · exact nofun
  · exact nofun
  · exact nofun
  · obtain ⟨d, -, -, -, -, -, hl⟩ := loadSs_eq_ok.1 hl
    exact ofDescriptor hl
  · obtain ⟨d, -, -, -, -, hl⟩ := loadData_eq_ok.1 hl
    exact ofDescriptor hl

section commit

variable {s : State} {g : Seg} {sel : BitVec 16} {n : SegLoad} (h : s.newSegment g sel = .ok n)
  (o : OpSize) (d : BitVec 4) (off : BitVec 64) (len : Nat)
include h

/-- The completion leaves every data segment register as the invariant asks. -/
theorem commit_dataSegConsistent {g' : Seg} (hg' : g' ≠ .ss) (hs : DataSegConsistent s (s.seg g')) :
    DataSegConsistent (s.commit g o d off n len) ((s.commit g o d off n len).seg g') := by
  rw [dataSegConsistent_congr (commit_mode ..) (commit_cpl ..), commit_seg]
  split
  · next hgg => exact newSegment_dataSegConsistent h (hgg ▸ hg')
  · exact hs

/-- The completion leaves SS as the invariant asks. -/
theorem commit_ssConsistent (hs : SsConsistent s) : SsConsistent (s.commit g o d off n len) := by
  by_cases hg : g = .ss
  · subst hg
    exact newSegment_ssConsistent h (commit_mode ..) (commit_cpl ..) (commit_seg_same s .ss ..)
  · exact ssConsistent_congr (commit_mode ..) (commit_cpl ..) (commit_seg_other _ _ _ _ _ _ _ .ss (Ne.symm hg)) hs

end commit

/-! ## The invariant: the general registers -/

/-- Outside 64-bit mode there is no 64-bit operand size (R176). -/
theorem opSize_ne_w64 {c : Ctx} (hm : c.mode ≠ .long64) (p : Pfx) : opSize c p ≠ .w64 := by
  unfold opSize
  cases hmode : c.mode with
  | real | v86 | prot | compat =>
    dsimp only
    split <;> nofun
  | long64 => exact absurd hmode hm

/-- A form has the operand size it is chosen for, unless that is 64 bits. -/
theorem osz_formOf {o : OpSize} (ho : o ≠ .w64) (m : Mnem) (e : Enc) : (formOf m o e).osz = o := by
  cases o with
  | w16 => cases m <;> rfl
  | w32 => cases m <;> rfl
  | w64 => exact absurd rfl ho

section wellFormed

variable {c : Ctx} {i : Instr} (hw : i.wellFormed c = true) (hm : c.mode ≠ .long64)
include hw hm

/-- Outside 64-bit mode no form has a 64-bit operand (R176, R187). -/
theorem osz_ne_w64 : i.osz ≠ .w64 := by
  simp only [Instr.wellFormed, Bool.and_eq_true, beq_iff_eq] at hw
  obtain ⟨-, hform⟩ := hw
  have hsize := opSize_ne_w64 hm i.enc.pfx
  rw [hform, osz_formOf hsize]
  exact hsize

/-- Outside 64-bit mode no form names a register from 8 on (R174, R175). -/
theorem dest_lt_eight : i.enc.dest.toNat < 8 := by
  simp only [Instr.wellFormed, Pfx.wellFormed, Bool.and_eq_true, Bool.or_eq_true, beq_iff_eq, hm, or_false,
    Option.isNone_iff_eq_none] at hw
  obtain ⟨⟨⟨-, hrex⟩, -⟩, -⟩ := hw
  have hdest : i.enc.dest = 0#1 ++ i.enc.reg := by rw [Enc.dest, Pfx.rexR, hrex]; rfl
  rw [hdest, BitVec.toNat_append, BitVec.toNat_ofNat, Nat.zero_mod, Nat.zero_shiftLeft, Nat.zero_or]
  exact i.enc.reg.isLt

end wellFormed

/-- Without `HAS_INTEL64`, a write keeps the upper half (R106, R122). -/
theorem narrowWrite_upper {s : State} (hi : s.cfg.hasIntel64 = false) (hm : s.mode ≠ .long64) {o : OpSize}
    (ho : o ≠ .w64) (g : Gpr) (v : BitVec 64) : (s.narrowWrite o g v).upper = g.upper := by
  cases o with
  | w16 => rfl
  | w32 => simp [State.narrowWrite, hi, hm]
  | w64 => exact absurd rfl ho

/-- The completion of an instruction writes no register that is not there (R120). -/
theorem commit_gprsExist {s : State} {i : Instr} (hexec : Executable i s) (hmode : ModeConsistent s) (h : GprsExist s)
    (g : Seg) (off : BitVec 64) (n : SegLoad) (len : Nat) :
    GprsExist (s.commit g i.osz i.enc.dest off n len) := by
  intro hi k
  rw [commit_cfg] at hi
  have hm : s.mode ≠ .long64 := fun hl => by simpa [hi] using hmode.intel64 (.inr hl)
  obtain ⟨hupper, hlower⟩ := h hi k
  by_cases hk : k = i.enc.dest
  · subst hk
    rw [commit_gpr_same, narrowWrite_upper hi hm (osz_ne_w64 hexec.form hm)]
    exact ⟨hupper, fun h8 => absurd (dest_lt_eight hexec.form hm) (Nat.not_lt.2 h8)⟩
  · rw [commit_gpr_other _ _ _ _ _ _ _ _ hk]
    exact ⟨hupper, hlower⟩

/-! ## The invariant -/

/-- Every instruction that completes keeps the invariant. -/
theorem exec_inv {i : Instr} {s t : State} (hs : Inv s) (h : exec i s = .next t) : Inv t := by
  obtain ⟨r, as, n, hready, hn, -, rfl⟩ := exec_eq_next.1 h
  exact
    { memory := by rw [commit_mem]; exact markAccessed_wf hs.memory _ (newSegment_accessed_lt hn)
      mode := modeConsistent_congr (commit_mode ..) (commit_cpl ..) (commit_cfg ..) hs.mode
      ss := commit_ssConsistent hn _ _ _ _ hs.ss
      ds := commit_dataSegConsistent hn _ _ _ _ (g' := .ds) nofun hs.ds
      es := commit_dataSegConsistent hn _ _ _ _ (g' := .es) nofun hs.es
      fs := commit_dataSegConsistent hn _ _ _ _ (g' := .fs) nofun hs.fs
      gs := commit_dataSegConsistent hn _ _ _ _ (g' := .gs) nofun hs.gs
      gprs := commit_gprsExist hready.executable hs.mode hs.gprs _ _ _ _ }

/-- Settles O45: a step that answers a next state executes an instruction, and that keeps each part of the
invariant. -/
theorem stepKeepsInvariant : Obligations.StepKeepsInvariant := by
  intro s t hs h
  obtain ⟨i, hi⟩ := exec_of_step_eq_next h
  exact exec_inv hs hi

/-! ## The NULL selectors and the state after reset -/

/-- Settles O32: the four values are those up to 3. -/
theorem nullSelectorValues : Obligations.NullSelectorValues := by
  intro sel
  rw [isNull_iff]
  simp only [← BitVec.toNat_inj, BitVec.toNat_ofNat]
  omega

/-- Settles O44: memory is empty, and in real-address mode no segment test applies. -/
theorem resetMeetsInvariant : Obligations.ResetMeetsInvariant :=
  have noTests : ¬ State.reset.checksSegments := fun h => not_real_of_checksSegments h (.inl rfl)
  { memory := reset_mem_wf
    mode := ⟨fun _ => rfl, nofun, nofun⟩
    ss := ⟨fun h => absurd h noTests, nofun⟩
    ds := fun h => absurd h noTests
    es := fun h => absurd h noTests
    fs := fun h => absurd h noTests
    gs := fun h => absurd h noTests
    gprs := nofun }

/-! ## The frame -/

/-- Settles O34: each field is left alone by the completion of an instruction. -/
theorem everyFormLeavesTheRest : Obligations.EveryFormLeavesTheRest := by
  intro i s t h
  obtain ⟨r, as, n, -, -, -, rfl⟩ := exec_eq_next.1 h
  exact
    { gprs := commit_gpr_other _ _ _ _ _ _ _
      segs := commit_seg_other _ _ _ _ _ _ _
      mode := commit_mode ..
      cpl := commit_cpl ..
      gdtr := commit_gdtr ..
      ldtr := commit_ldtr ..
      acEnabled := commit_acEnabled ..
      flags := commit_flags ..
      cfg := commit_cfg .. }

/-! ## Outcomes under a change of the state -/

/-- An outcome with a change made to its next state, if it has one. -/
def mapNext (f : State → State) : Host.Outcome State Fault Refusal → Host.Outcome State Fault Refusal
  | .next t => .next (f t)
  | .fault r => .fault r
  | .refused r => .refused r

theorem finish_map (f : State → State) (c : Check State) : finish (f <$> c) = mapNext f (finish c) := by
  rcases c with (_ | _) | _ <;> rfl

/-! ## The flags register does not enter -/

/-- The state with another flags register. -/
def State.withFlags (s : State) (v : BitVec 32) : State := { s with flags := v }

section withFlags

variable (s : State) (v : BitVec 32)

@[simp] theorem translateAll_withFlags (k : AccessKind) (p : Privilege) (las : List (BitVec 64)) :
    (s.withFlags v).translateAll k p las = s.translateAll k p las := by
  induction las with
  | nil => rfl
  | cons la las ih =>
    simp only [State.translateAll, ih]
    rfl

@[simp] theorem codeWindow_withFlags (n o : Nat) : (s.withFlags v).codeWindow n o = s.codeWindow n o := by
  induction n generalizing o with
  | zero => rfl
  | succ n ih =>
    simp only [State.codeWindow, ih]
    rfl

@[simp] theorem fetchWindow_withFlags : (s.withFlags v).fetchWindow = s.fetchWindow := codeWindow_withFlags ..

@[simp] theorem checkEncoding_withFlags (m : Mnem) (o : OpSize) (e : Enc) :
    (s.withFlags v).checkEncoding m o e = s.checkEncoding m o e := rfl

@[simp] theorem operandRef_withFlags (m : Mnem) (e : Enc) : (s.withFlags v).operandRef m e = s.operandRef m e := rfl

@[simp] theorem checkOperand_withFlags (r : MemRef) (o : OpSize) :
    (s.withFlags v).checkOperand r o = s.checkOperand r o := by
  have haccess : (s.withFlags v).checkAccess r o (o.bytes + 2) = s.checkAccess r o (o.bytes + 2) := by
    unfold State.checkAccess
    rw [translateAll_withFlags]
    rfl
  unfold State.checkOperand
  rw [haccess]
  rfl

@[simp] theorem readDescriptor_withFlags (sel : BitVec 16) :
    (s.withFlags v).readDescriptor sel = s.readDescriptor sel := by
  unfold State.readDescriptor
  rw [translateAll_withFlags]
  rfl

@[simp] theorem accessedByte_withFlags (sel : BitVec 16) :
    (s.withFlags v).accessedByte sel = s.accessedByte sel := by
  unfold State.accessedByte
  rw [translateAll_withFlags]
  rfl

@[simp] theorem loadDescriptor_withFlags (sel : BitVec 16) (d : BitVec 64) :
    (s.withFlags v).loadDescriptor sel d = s.loadDescriptor sel d := by
  unfold State.loadDescriptor
  rw [accessedByte_withFlags]
  rfl

@[simp] theorem loadSs_withFlags (sel : BitVec 16) : (s.withFlags v).loadSs sel = s.loadSs sel := by
  unfold State.loadSs
  simp only [readDescriptor_withFlags, loadDescriptor_withFlags]
  rfl

@[simp] theorem loadData_withFlags (sel : BitVec 16) : (s.withFlags v).loadData sel = s.loadData sel := by
  unfold State.loadData
  simp only [readDescriptor_withFlags, loadDescriptor_withFlags]
  rfl

theorem newSegment_withFlags (g : Seg) (sel : BitVec 16) :
    (s.withFlags v).newSegment g sel = s.newSegment g sel := by
  simp only [State.newSegment, State.newSegmentSsProt, State.newSegmentDataProt, State.newSegmentSsLong,
    State.newSegmentFsGsLong, loadSs_withFlags, loadData_withFlags]
  rfl

theorem commit_withFlags (g : Seg) (o : OpSize) (d : BitVec 4) (off : BitVec 64) (n : SegLoad) (len : Nat) :
    (s.withFlags v).commit g o d off n len = (s.commit g o d off n len).withFlags v := by
  obtain ⟨reg, _ | a, drawn⟩ := n <;> cases g <;> rfl

theorem loadFarPointer_withFlags (m : Mnem) (o : OpSize) (e : Enc) :
    (s.withFlags v).loadFarPointer m o e = (·.withFlags v) <$> s.loadFarPointer m o e := by
  simp only [State.loadFarPointer, map_bind, map_pure, checkEncoding_withFlags, operandRef_withFlags,
    checkOperand_withFlags, newSegment_withFlags, commit_withFlags]
  rfl

theorem exec_withFlags (i : Instr) : exec i (s.withFlags v) = mapNext (·.withFlags v) (exec i s) := by
  rw [exec_eq, exec_eq, loadFarPointer_withFlags, finish_map]

theorem step_withFlags : step (s.withFlags v) = mapNext (·.withFlags v) (step s) := by
  have hdecode : decode (s.withFlags v).ctx (s.withFlags v).fetchBytes = decode s.ctx s.fetchBytes := by
    rw [State.fetchBytes, fetchWindow_withFlags]
    rfl
  have hmod : ∀ len, (s.withFlags v).codeIsModified len = s.codeIsModified len := by
    intro len
    rw [State.codeIsModified, fetchWindow_withFlags]
    rfl
  unfold step
  rw [hdecode]
  cases decode s.ctx s.fetchBytes with
  | ok i rest =>
    simp only [hmod, exec_withFlags]
    split <;> rfl
  | truncated =>
    simp only [State.truncatedFetch, fetchWindow_withFlags]
    split <;> rfl
  | rejected r => rfl

end withFlags

/-- Settles O42: a step of the state with other flags is the step of the state, with the flags changed after it. -/
theorem flagsAreNotRead : Obligations.FlagsAreNotRead := by
  intro s v
  have h : step { s with flags := v } = mapNext (·.withFlags v) (step s) := step_withFlags s v
  exact ⟨fun t ht => by rw [h, ht]; rfl, fun f hf => by rw [h, hf]; rfl, fun x hx => by rw [h, hx]; rfl⟩

/-! ## Canonical memory -/

theorem wfFrom_cons {lo k : Nat} {b : Byte} {m : Memory} : Memory.wfFrom lo ((k, b) :: m) = true ↔
    lo ≤ k ∧ k < 2 ^ 64 ∧ b ≠ unlistedByte ∧ m.wfFrom (k + 1) = true := by
  simp only [Memory.wfFrom, Bool.and_eq_true, bne_iff_ne, decide_eq_true_eq, and_assoc]

/-- The lowest listed address does not read as it does in a memory that lists only higher ones. -/
theorem read_head_ne_read_above {lo k k' : Nat} {b : Byte} {m m' : Memory}
    (hw : Memory.wfFrom lo ((k, b) :: m) = true) (hw' : m'.wfFrom k' = true) (hlt : k < k') :
    Memory.read ((k, b) :: m) k ≠ m'.read k := by
  obtain ⟨-, -, hb, -⟩ := wfFrom_cons.1 hw
  rwa [read_below hw' hlt, Memory.read, if_pos rfl]

/-- Canonical memories that read alike are equal, by induction on both lists: were one head below the other, its byte
would be listed in one memory only. -/
theorem eq_of_read_eq {lo : Nat} {m m' : Memory} (hw : m.wfFrom lo = true) (hw' : m'.wfFrom lo = true)
    (h : ∀ a, m.read a = m'.read a) : m = m' := by
  induction m generalizing lo m' with
  | nil =>
    cases m' with
    | nil => rfl
    | cons c' m' =>
      exact absurd (h c'.1).symm (read_head_ne_read_above hw' (k' := c'.1 + 1) rfl (Nat.lt_succ_self _))
  | cons c m ih =>
    cases m' with
    | nil =>
      exact absurd (h c.1) (read_head_ne_read_above hw (k' := c.1 + 1) rfl (Nat.lt_succ_self _))
    | cons c' m' =>
      obtain ⟨k, b⟩ := c
      obtain ⟨k', b'⟩ := c'
      obtain ⟨-, hk, hb, hm⟩ := wfFrom_cons.1 hw
      obtain ⟨-, hk', hb', hm'⟩ := wfFrom_cons.1 hw'
      rcases Nat.lt_trichotomy k k' with hlt | rfl | hlt
      · have habove := wfFrom_cons.2 ⟨Nat.le_refl k', hk', hb', hm'⟩
        exact absurd (h k) (read_head_ne_read_above hw habove hlt)
      · have hbb : b = b' := by simpa [Memory.read] using h k
        have htail : ∀ a, Memory.read m a = Memory.read m' a := by
          intro a
          by_cases hka : k = a
          · subst hka
            rw [read_below hm (Nat.lt_succ_self _), read_below hm' (Nat.lt_succ_self _)]
          · simpa [Memory.read, hka] using h a
        rw [hbb, ih hm hm' htail]
      · have habove := wfFrom_cons.2 ⟨Nat.le_refl k, hk, hb, hm⟩
        exact absurd (h k').symm (read_head_ne_read_above hw' habove hlt)

/-- Settles O47. -/
theorem equalMemoriesAreEqualData : Obligations.EqualMemoriesAreEqualData :=
  fun _ _ hw hw' h => eq_of_read_eq hw hw' h

/-! ## The selector format -/

/-- The number a selector is, from its fields (R125). -/
theorem selector_toNat (index : BitVec 13) (ti : Bool) (p : BitVec 2) :
    (index ++ BitVec.ofBool ti ++ p).toNat = 8 * index.toNat + 4 * ti.toNat + p.toNat := by
  have hp := p.isLt
  have ht := ti.toNat_lt
  rw [BitVec.toNat_append, BitVec.toNat_append, ← Nat.shiftLeft_add_eq_or_of_lt hp,
    ← Nat.shiftLeft_add_eq_or_of_lt (BitVec.isLt _), BitVec.toNat_ofBool]
  omega

/-- The error code of a selector keeps its upper 14 bits and clears the RPL (R258). -/
theorem selectorCode_append (x : BitVec 14) (p : BitVec 2) : selectorCode (x ++ p) = x ++ 0#2 := by
  have hmask : 0xFFFC#16 = BitVec.allOnes 14 ++ 0#2 := rfl
  rw [selectorCode, hmask, BitVec.and_append, BitVec.and_allOnes, BitVec.and_zero]

/-- Settles O50: RPL, TI and the error code are parts of the selector; the index, and whether it is NULL, are read off
its number. -/
theorem selectorFormat : Obligations.SelectorFormat := by
  intro index ti p sel
  have hsel : sel.toNat = 8 * index.toNat + 4 * ti.toNat + p.toNat := selector_toNat index ti p
  have hp := p.isLt
  have hti := ti.toNat_lt
  refine ⟨BitVec.extractLsb'_append_eq_right, ?_, ?_, ?_, selectorCode_append _ p⟩
  · simp only [tableIndicator, sel, BitVec.getLsbD_append]
    simp
  · have hindex := index.isLt
    rw [selIndex, BitVec.extractLsb'_toNat, hsel, Nat.shiftRight_eq_div_pow]
    omega
  · rw [isNull_iff, hsel, ← BitVec.toNat_inj, BitVec.toNat_ofNat]
    cases ti with
    | false => simp; omega
    | true => simp; omega

/-! ## The descriptor format -/

section unpack

variable (d : BitVec 64)

/-- Bit `k` of the access byte is bit `40 + k` of the descriptor. -/
theorem unpack_access_getLsbD {k : Nat} (hk : k < 8) : (unpack d).access.getLsbD k = d.getLsbD (40 + k) := by
  simp [unpack, hk]

@[simp] theorem unpack_isData : (unpack d).isData = isData d := by
  simp [Hidden.isData, Hidden.isCodeOrData, isData, unpack_access_getLsbD, -BitVec.getLsbD_eq_getElem]

@[simp] theorem unpack_isCode : (unpack d).isCode = isCode d := by
  simp [Hidden.isCode, Hidden.isCodeOrData, isCode, unpack_access_getLsbD, -BitVec.getLsbD_eq_getElem]

@[simp] theorem unpack_writableOrReadable : (unpack d).writableOrReadable = d.getLsbD 41 :=
  unpack_access_getLsbD d (by decide)

@[simp] theorem unpack_expandDownOrConforming : (unpack d).expandDownOrConforming = d.getLsbD 42 :=
  unpack_access_getLsbD d (by decide)

@[simp] theorem unpack_present : (unpack d).present = isPresent d :=
  unpack_access_getLsbD d (by decide)

@[simp] theorem unpack_dpl : (unpack d).dpl = descDpl d := by
  ext i hi
  simp only [Hidden.dpl, descDpl, BitVec.getElem_extractLsb', unpack_access_getLsbD d (show 5 + i < 8 by omega)]
  rw [← Nat.add_assoc]

@[simp] theorem unpack_big : (unpack d).big = d.getLsbD 54 := by
  simp [Hidden.big, unpack]

end unpack

/-! ### A descriptor laid out from its fields -/

/-- The fields of a descriptor, from its highest bit down (R127). -/
structure DescFields where
  base31_24  : BitVec 8
  g          : Bool
  db         : Bool
  l          : Bool
  avl        : Bool
  limit19_16 : BitVec 4
  p          : Bool
  dpl        : BitVec 2
  s          : Bool
  code       : Bool
  ec         : Bool
  wr         : Bool
  a          : Bool
  base23_0   : BitVec 24
  limit15_0  : BitVec 16

namespace DescFields

/-- Bits 47 to 40 of the descriptor. -/
def access (f : DescFields) : BitVec 8 :=
  BitVec.ofBool f.p ++ f.dpl ++ BitVec.ofBool f.s ++ BitVec.ofBool f.code ++ BitVec.ofBool f.ec ++ BitVec.ofBool f.wr
    ++ BitVec.ofBool f.a

/-- Bits 55 to 52 of the descriptor. -/
def flags (f : DescFields) : BitVec 4 :=
  BitVec.ofBool f.g ++ BitVec.ofBool f.db ++ BitVec.ofBool f.l ++ BitVec.ofBool f.avl

/-- The descriptor with these fields. -/
def word (f : DescFields) : BitVec 64 :=
  f.base31_24 ++ BitVec.ofBool f.g ++ BitVec.ofBool f.db ++ BitVec.ofBool f.l ++ BitVec.ofBool f.avl ++ f.limit19_16
    ++ f.access ++ f.base23_0 ++ f.limit15_0

/-- Four bits laid after a byte one by one are laid after it together. -/
theorem append_nibble (x : BitVec 8) (b3 b2 b1 b0 : BitVec 1) :
    x ++ b3 ++ b2 ++ b1 ++ b0 = x ++ (b3 ++ b2 ++ b1 ++ b0) := by
  have h2 : x ++ (b3 ++ b2) = x ++ b3 ++ b2 := BitVec.append_assoc'
  have h1 : x ++ (b3 ++ b2 ++ b1) = x ++ (b3 ++ b2) ++ b1 := BitVec.append_assoc'
  have h0 : x ++ (b3 ++ b2 ++ b1 ++ b0) = x ++ (b3 ++ b2 ++ b1) ++ b0 := BitVec.append_assoc'
  rw [h0, h1, h2]

/-- The descriptor by its base, flag nibble, limit and access byte. -/
theorem word_eq (f : DescFields) :
    f.word = f.base31_24 ++ f.flags ++ f.limit19_16 ++ f.access ++ f.base23_0 ++ f.limit15_0 := by
  rw [word, append_nibble, flags]

variable (f : DescFields)

theorem access_word : (unpack f.word).access = f.access := by
  simp only [unpack, word_eq]
  repeat rw [BitVec.extractLsb'_append_eq_of_le (by decide)]
  exact BitVec.extractLsb'_append_eq_right

theorem flags_word : (unpack f.word).flags = f.flags := by
  simp only [unpack, word_eq]
  repeat rw [BitVec.extractLsb'_append_eq_of_le (by decide)]
  exact BitVec.extractLsb'_append_eq_right

/-- Bits 47 to 40 of the descriptor are the access byte. -/
theorem word_getLsbD_access {k : Nat} (hk : k < 8) : f.word.getLsbD (40 + k) = f.access.getLsbD k := by
  rw [← unpack_access_getLsbD _ hk, access_word]

/-- The single bits of the access byte. -/
theorem access_getLsbD :
    f.access.getLsbD 0 = f.a ∧ f.access.getLsbD 1 = f.wr ∧ f.access.getLsbD 2 = f.ec ∧
      f.access.getLsbD 3 = f.code ∧ f.access.getLsbD 4 = f.s ∧ f.access.getLsbD 7 = f.p := by
  simp only [access, BitVec.getLsbD_append]
  simp

/-- The single bits of the access byte, where they stand in the descriptor. -/
theorem word_accessBits :
    isAccessed f.word = f.a ∧ f.word.getLsbD 41 = f.wr ∧ f.word.getLsbD 42 = f.ec ∧ f.word.getLsbD 43 = f.code ∧
      f.word.getLsbD 44 = f.s ∧ isPresent f.word = f.p := by
  obtain ⟨ha, hwr, hec, hcode, hs, hp⟩ := f.access_getLsbD
  exact ⟨(f.word_getLsbD_access (by decide)).trans ha, (f.word_getLsbD_access (by decide)).trans hwr,
    (f.word_getLsbD_access (by decide)).trans hec, (f.word_getLsbD_access (by decide)).trans hcode,
    (f.word_getLsbD_access (by decide)).trans hs, (f.word_getLsbD_access (by decide)).trans hp⟩

theorem isData_word : isData f.word = (f.s && !f.code) := by
  obtain ⟨-, -, -, hcode, hs, -⟩ := f.word_accessBits
  rw [isData, hs, hcode]

theorem isCode_word : isCode f.word = (f.s && f.code) := by
  obtain ⟨-, -, -, hcode, hs, -⟩ := f.word_accessBits
  rw [isCode, hs, hcode]

theorem isWritableData_word : isWritableData f.word = (f.s && !f.code && f.wr) := by
  obtain ⟨-, hwr, -⟩ := f.word_accessBits
  rw [isWritableData, isData_word, hwr]

theorem isReadableCode_word : isReadableCode f.word = (f.s && f.code && f.wr) := by
  obtain ⟨-, hwr, -⟩ := f.word_accessBits
  rw [isReadableCode, isCode_word, hwr]

theorem isNonconformingCode_word : isNonconformingCode f.word = (f.s && f.code && !f.ec) := by
  obtain ⟨-, -, hec, -⟩ := f.word_accessBits
  rw [isNonconformingCode, isCode_word, hec]

theorem dpl_word : descDpl f.word = f.dpl := by
  rw [← unpack_dpl, Hidden.dpl, access_word, access]
  repeat rw [BitVec.extractLsb'_append_eq_of_le (by decide)]
  exact BitVec.extractLsb'_append_eq_right

theorem db_word : f.word.getLsbD 54 = f.db := by
  simp only [word, BitVec.getLsbD_append]
  simp

theorem g_word : f.word.getLsbD 55 = f.g := by
  simp only [word, BitVec.getLsbD_append]
  simp

theorem base_word : descBase f.word = (f.base31_24 ++ f.base23_0).setWidth 64 := by
  have hhi : f.word.extractLsb' 56 8 = f.base31_24 := by
    rw [word_eq]
    repeat rw [BitVec.extractLsb'_append_eq_of_le (by decide)]
    exact BitVec.extractLsb'_eq_self
  have hlo : f.word.extractLsb' 16 24 = f.base23_0 := by
    rw [word_eq]
    repeat rw [BitVec.extractLsb'_append_eq_of_le (by decide)]
    exact BitVec.extractLsb'_append_eq_right
  rw [descBase, hhi, hlo]

/-- The limit, counted in bytes or, when G is 1, in units of 4096 (R127). -/
theorem limit_word : (descLimit f.word).toNat =
    if f.g then (f.limit19_16 ++ f.limit15_0).toNat * 4096 + 4095 else (f.limit19_16 ++ f.limit15_0).toNat := by
  have hhi : f.word.extractLsb' 48 4 = f.limit19_16 := by
    rw [word_eq]
    repeat rw [BitVec.extractLsb'_append_eq_of_le (by decide)]
    exact BitVec.extractLsb'_append_eq_right
  have hlo : f.word.extractLsb' 0 16 = f.limit15_0 := BitVec.extractLsb'_append_eq_right
  rw [descLimit, hhi, hlo, g_word]
  split
  · rw [BitVec.toNat_append, ← Nat.shiftLeft_add_eq_or_of_lt (BitVec.isLt _), Nat.shiftLeft_eq]
    rfl
  · exact BitVec.toNat_setWidth_of_le (by decide)

theorem access_or_one : f.access ||| 1#8 = { f with a := true }.access := by
  have hone : 1#8 = 0#7 ++ 1#1 := rfl
  rw [hone, access, BitVec.or_append, BitVec.or_zero, access]
  cases f.a <;> rfl

/-- Setting the accessed bit changes no other field: the mask is 0 in every part but the access byte (R160). -/
theorem withAccessed_word : withAccessed f.word = { f with a := true }.word := by
  have hmask : 0x0000010000000000#64 = 0#8 ++ 0#4 ++ 0#4 ++ 1#8 ++ 0#24 ++ 0#16 := rfl
  rw [withAccessed, word_eq, word_eq, hmask, BitVec.or_append, BitVec.or_append, BitVec.or_append, BitVec.or_append,
    BitVec.or_append, access_or_one]
  simp only [BitVec.or_zero]
  rfl

end DescFields

/-- Settles O51: the descriptor is the one of its fields, so each part of it is the field it is laid out from. -/
theorem descriptorFormat : Obligations.DescriptorFormat := by
  intro base31_24 g db l avl limit19_16 p dpl sBit code ec wr a base23_0 limit15_0
  let f : DescFields := ⟨base31_24, g, db, l, avl, limit19_16, p, dpl, sBit, code, ec, wr, a, base23_0, limit15_0⟩
  obtain ⟨ha, hwr, hec, -, -, hp⟩ := f.word_accessBits
  exact ⟨f.isData_word, f.isWritableData_word, f.isCode_word, f.isReadableCode_word, f.isNonconformingCode_word,
    f.dpl_word, hp, ha, f.withAccessed_word, f.base_word, f.limit_word, f.access_word, f.flags_word,
    unpack_isData _, unpack_isCode _, (unpack_writableOrReadable _).trans hwr,
    (unpack_expandDownOrConforming _).trans hec, (unpack_dpl _).trans f.dpl_word, (unpack_present _).trans hp,
    (unpack_big _).trans f.db_word⟩

end Sys2Proof.Machine
end

section
/-! PROOFS. The statements of spec/20_memory.md: the operand's segment and linear addresses, the checks on it, what
the fetch reads and what a step executes, the descriptor's addresses and the one byte that a load writes, each after
the lemmas it needs. -/

namespace Sys2Proof.Machine

/-! ## Values and canonical addresses -/

theorem leValue_lt (bs : List Byte) : leValue bs < 256 ^ bs.length := by
  induction bs with
  | nil => simp [leValue]
  | cons b bs ih =>
    have hb := b.isLt
    rw [leValue, List.length_cons, Nat.pow_succ]
    omega

theorem leValue_byte (bs : List Byte) (k : Nat) (h : k < bs.length) : leValue bs / 256 ^ k % 256 = bs[k].toNat := by
  induction bs generalizing k with
  | nil => cases h
  | cons b bs ih =>
    have hb := b.isLt
    cases k with
    | zero =>
      simp only [leValue, Nat.pow_zero, Nat.div_one, List.getElem_cons_zero]
      omega
    | succ k =>
      have htail : leValue (b :: bs) / 256 = leValue bs := by rw [leValue]; omega
      rw [Nat.pow_succ', ← Nat.div_div_eq_div_mul, htail, List.getElem_cons_succ]
      exact ih k (Nat.lt_of_succ_lt_succ h)

/-- Settles O49: by induction on the list, whose first byte is the remainder of the value by 256. -/
theorem littleEndianValue : Obligations.LittleEndianValue :=
  fun bs k h => ⟨leValue_byte bs k h, leValue_lt bs⟩

/-- Bit `i` of an address shifted right by `n`, its sign drawn in, is bit `n + i`, or bit 63 above it. -/
theorem sshiftRight_getLsbD (a : BitVec 64) (n : Nat) {i : Nat} (hi : i < 64) :
    (a.sshiftRight n).getLsbD i = a.getLsbD (min (n + i) 63) := by
  rw [BitVec.getLsbD_sshiftRight]
  by_cases h : n + i < 64
  · simp [h, hi, show min (n + i) 63 = n + i by omega]
  · simp [h, hi, show min (n + i) 63 = 63 by omega, BitVec.msb_eq_getLsbD_last]

/-- An address is canonical when each of its upper bits is the sign. -/
theorem canonical_iff_msb {s : State} {a : BitVec 64} :
    s.canonical a = true ↔ ∀ j, s.cfg.linearBits - 1 ≤ j → j < 64 → a.getLsbD j = a.msb := by
  simp only [State.canonical, Bool.or_eq_true, beq_iff_eq]
  generalize s.cfg.linearBits - 1 = n
  have hsign : a.msb = a.getLsbD 63 := BitVec.msb_eq_getLsbD_last a
  have hshift : ∀ j, n ≤ j → j < 64 → a.getLsbD j = (a.sshiftRight n).getLsbD (j - n) := by
    intro j hj hlt
    rw [sshiftRight_getLsbD a n (by omega), show min (n + (j - n)) 63 = j by omega]
  constructor
  · intro h j hj hlt
    rw [← BitVec.msb_sshiftRight (x := a) (n := n), hshift j hj hlt]
    rcases h with h | h <;> rw [h]
    · rw [BitVec.getLsbD_zero, BitVec.msb_zero]
    · rw [BitVec.neg_one_eq_allOnes, BitVec.getLsbD_allOnes, BitVec.msb_allOnes (by decide)]
      exact decide_eq_true (by omega)
  · intro h
    have hbits : ∀ i, i < 64 → (a.sshiftRight n).getLsbD i = a.msb := by
      intro i hi
      rw [sshiftRight_getLsbD a n hi]
      by_cases hn : n ≤ min (n + i) 63
      · exact h _ hn (by omega)
      · rw [show min (n + i) 63 = 63 by omega, hsign]
    cases hmsb : a.msb with
    | false => exact .inl (BitVec.eq_of_getLsbD_eq fun i hi => by simp [hbits i hi, hmsb])
    | true =>
      refine .inr (BitVec.eq_of_getLsbD_eq fun i hi => ?_)
      rw [hbits i hi, hmsb, BitVec.neg_one_eq_allOnes, BitVec.getLsbD_allOnes, decide_eq_true hi]

/-- Settles O52: both sides say that each upper bit is the sign, bit 63. -/
theorem canonicalMeansEqualUpperBits : Obligations.CanonicalMeansEqualUpperBits := by
  intro s a
  rw [canonical_iff_msb]
  constructor
  · intro h j k hj hj64 hk hk64
    rw [h j hj hj64, h k hk hk64]
  · intro h j hj hj64
    rw [BitVec.msb_eq_getLsbD_last]
    exact h j 63 hj hj64 (by omega) (by omega)

/-! ## The operand's segment and linear addresses -/

theorem memRef_override {s : State} {e : Enc} {len : Nat} {r : MemRef} (h : s.memRef e len = some r) :
    r.override = e.pfx.override := by
  unfold State.memRef at h
  cases hrm : e.rm with
  | register rm => simp [hrm] at h
  | mem16 m => simp only [hrm, Option.some.injEq] at h; rw [← h]
  | mem32 m => simp only [hrm, Option.some.injEq] at h; rw [← h]

/-- What R184 leaves has one segment override at most. -/
theorem countP_isSeg_of_legacyProblem {ps : List LegacyPfx} (h : legacyProblem ps = none) :
    ps.countP LegacyPfx.isSeg ≤ 1 := by
  by_contra hc
  simp [legacyProblem, if_pos (Nat.lt_of_not_le hc)] at h

/-- Outside `Long64` a linear address is base plus offset, cut to 32 bits (R145). -/
theorem linear_of_not_long {s : State} (hm : s.mode ≠ .long64) (g : Seg) (o : BitVec 64) :
    s.linear g o = BitVec.ofNat 64 (((s.seg g).hid.base.toNat + o.toNat) % 2 ^ 32) := by
  rw [State.linear, if_neg hm]
  apply BitVec.eq_of_toNat_eq
  simp only [BitVec.toNat_setWidth, BitVec.toNat_add, BitVec.toNat_ofNat]
  omega

/-- In `Long64` FS and GS keep their base (R145). -/
theorem linear_of_fs_gs {s : State} (hm : s.mode = .long64) {g : Seg} (hg : g = .fs ∨ g = .gs) (o : BitVec 64) :
    s.linear g o = (s.seg g).hid.base + o := by
  rw [State.linear, if_pos hm, if_pos hg]

/-- In `Long64` the base of every other segment is 0 (R145, D30). -/
theorem linear_of_not_fs_gs {s : State} (hm : s.mode = .long64) {g : Seg} (hfs : g ≠ .fs) (hgs : g ≠ .gs)
    (o : BitVec 64) : s.linear g o = o := by
  rw [State.linear, if_pos hm, if_neg (not_or.2 ⟨hfs, hgs⟩), BitVec.zero_add]

theorem operandBytes_getElem? {s : State} {r : MemRef} {n k : Nat} (hk : k < n) :
    (s.operandBytes r n)[k]? = some (s.linear r.seg (r.ea + BitVec.ofNat 64 k)) := by
  simp [State.operandBytes, hk]

/-- Settles O48: the segment by the override, the linear addresses by mode and segment. -/
theorem operandSegmentAndLinearAddress : Obligations.OperandSegmentAndLinearAddress := by
  intro s e len r hr
  have hov := memRef_override hr
  refine ⟨fun g hp hg => ?_, fun hg => ?_, fun n k hk => ⟨fun hm => ?_, fun hm hg => ?_, fun hm hfs hgs => ?_⟩⟩
  · rw [MemRef.seg, hov, override_eq_some (countP_isSeg_of_legacyProblem hp) hg, Option.getD_some]
  · rw [MemRef.seg, hov, override_eq_none hg, Option.getD_none, MemRef.dflt]
  · rw [operandBytes_getElem? hk, linear_of_not_long hm, BitVec.toNat_add, BitVec.toNat_ofNat]
    congr 2
    omega
  · rw [operandBytes_getElem? hk, linear_of_fs_gs hm hg, BitVec.add_assoc]
  · rw [operandBytes_getElem? hk, linear_of_not_fs_gs hm hfs hgs]

/-! ## The checks on the operand -/

/-- Outside `Long64`, through a NULL segment (R147). -/
theorem checkSegment_null {s : State} {r : MemRef} (hm : s.mode ≠ .long64) (hnull : s.nullSegment r.seg = true)
    (n : Nat) : s.checkSegment r n = raise (.gp (some 0#16)) := by
  rw [State.checkSegment, if_neg hm, if_pos hnull]

/-- Outside `Long64`, outside the limit (R148). -/
theorem checkSegment_outside {s : State} {r : MemRef} {n : Nat} (hm : s.mode ≠ .long64)
    (hnull : s.nullSegment r.seg = false) (hout : s.insideLimit r.seg r.ea.toNat n = false) :
    s.checkSegment r n = raise (s.segmentFault r.seg) := by
  simp [State.checkSegment, hm, hnull, hout]

/-- Outside `Long64`, inside the limit of an execute-only CS (R149). -/
theorem checkSegment_executeOnly {s : State} {r : MemRef} {n : Nat} (hm : s.mode ≠ .long64)
    (hnull : s.nullSegment r.seg = false) (hin : s.insideLimit r.seg r.ea.toNat n = true)
    (hx : s.executeOnly r.seg = true) : s.checkSegment r n = raise (.gp (some 0#16)) := by
  simp [State.checkSegment, hm, hnull, hin, hx]

/-- In `Long64`, with the first or the last byte at a non-canonical address (R150). -/
theorem checkSegment_nonCanonical {s : State} {r : MemRef} {n : Nat} (hm : s.mode = .long64)
    (hc : s.canonical (s.operandLinear r) = false ∨
      s.canonical (s.operandLinear r + BitVec.ofNat 64 (n - 1)) = false) :
    s.checkSegment r n = raise (s.nonCanonicalFault r) := by
  rw [State.checkSegment, if_pos hm, if_neg]
  rcases hc with hc | hc <;> simp [hc]

theorem checkOperand_of_checkSegment_ok {s : State} {r : MemRef} {o : OpSize}
    (h : s.checkSegment r (o.bytes + 2) = .ok ()) :
    s.checkOperand r o =
      if s.wraps r (o.bytes + 2) then refuse .operandWraps else s.checkAccess r o (o.bytes + 2) := by
  rw [State.checkOperand, h]
  rfl

section operandChecks

variable {i : Instr} {s : State} {r : MemRef} (hi : Executable i s) (hr : s.memRef i.enc i.length = some r)
include hi hr

/-- A segment check that fails ends the instruction in its exception. -/
theorem exec_of_checkSegment_raise {f : Fault} (h : s.checkSegment r (i.osz.bytes + 2) = raise f) :
    exec i s = .fault f := by
  refine exec_of_checkOperand_error hi hr (e := .fault f) ?_
  rw [State.checkOperand, h]
  rfl

/-- An access check that fails, after the segment checks and with no wrap, ends the instruction in its exception. -/
theorem exec_of_checkAccess_error {f : Fault} (hseg : s.checkSegment r (i.osz.bytes + 2) = .ok ())
    (hw : s.wraps r (i.osz.bytes + 2) = false)
    (h : s.checkAccess r i.osz (i.osz.bytes + 2) = .error (.fault f)) : exec i s = .fault f := by
  refine exec_of_checkOperand_error hi hr (e := .fault f) ?_
  rw [checkOperand_of_checkSegment_ok hseg, if_neg (by simp [hw]), h]

end operandChecks

/-- Settles O19: the NULL check is the first. -/
theorem nullSegmentOperandRaisesGp : Obligations.NullSegmentOperandRaisesGp := by
  intro i s r hi hr hm hg hv
  have hlong : s.mode ≠ .long64 := by rcases hm with hm | hm <;> simp [hm]
  have hnull : s.nullSegment r.seg = true := by
    have hmode : (s.mode == .prot || s.mode == .compat) = true := by simpa using hm
    rw [State.nullSegment, hmode, hv]
    rcases hg with hg | hg | hg | hg <;> rw [hg] <;> rfl
  exact exec_of_checkSegment_raise hi hr (checkSegment_null hlong hnull _)

/-- Outside real-address mode the exception of an operand outside a segment other than SS is `#GP(0)`. -/
theorem segmentFault_of_ne_ss {s : State} (hm : s.mode ≠ .real) {g : Seg} (hg : g ≠ .ss) :
    s.segmentFault g = .gp (some 0#16) := by
  rw [State.segmentFault, if_neg hg, if_neg hm]

/-- Settles O21: outside the limit the limit check raises `#GP(0)`, inside it the type check does. -/
theorem executeOnlyCsRaisesGp : Obligations.ExecuteOnlyCsRaisesGp := by
  intro i s r hi hr hm hg hcode hread
  obtain ⟨hlong, hreal⟩ : s.mode ≠ .long64 ∧ s.mode ≠ .real := by rcases hm with hm | hm <;> simp [hm]
  have hnull : s.nullSegment r.seg = false := by simp [State.nullSegment, hg]
  refine exec_of_checkSegment_raise hi hr ?_
  cases hin : s.insideLimit r.seg r.ea.toNat (i.osz.bytes + 2) with
  | false => rw [checkSegment_outside hlong hnull hin, segmentFault_of_ne_ss hreal (by simp [hg])]
  | true =>
    have hx : s.executeOnly r.seg = true := by
      have hmode : (s.mode == .prot || s.mode == .compat) = true := by simpa using hm
      rw [State.executeOnly, hmode, hg, State.seg, hcode, hread]
      rfl
    exact checkSegment_executeOnly hlong hnull hin hx

/-- When the bytes of an operand lie outside the limit (R148, D35). -/
theorem insideLimit_eq_false {s : State} {g : Seg} {ea n : Nat} : s.insideLimit g ea n = false ↔
    (s.expandDown g = true ∧ (ea ≤ s.segLimit g ∨ (if (s.seg g).hid.big then 0xFFFFFFFF else 0xFFFF) < ea + n - 1)) ∨
    (s.expandDown g = false ∧ s.segLimit g < ea + n - 1) := by
  unfold State.insideLimit
  cases s.expandDown g with
  | false =>
    simp only [Bool.false_eq_true, if_false, decide_eq_false_iff_not, Nat.not_le, false_and, false_or, true_and]
  | true =>
    simp only [if_true, Bool.and_eq_false_iff, decide_eq_false_iff_not, Nat.not_lt, Nat.not_le, true_and, false_and,
      or_false, Bool.true_eq_false]

/-- Outside `Long64`, only protected and compatibility mode have expand-down segments (R148). -/
theorem expandDown_iff {s : State} (hm : s.mode ≠ .long64) {g : Seg} : s.expandDown g = true ↔
    (s.mode = .prot ∨ s.mode = .compat) ∧ (s.seg g).hid.isData = true ∧
      (s.seg g).hid.expandDownOrConforming = true := by
  unfold State.expandDown
  cases hmode : s.mode with
  | real | v86 => simp
  | prot | compat => simp
  | long64 => exact absurd hmode hm

/-- Settles O20: the limit check fails in each of the three cases, and nothing stops the instruction before it. -/
theorem operandOutsideLimitFaults : Obligations.OperandOutsideLimitFaults := by
  intro i s r hi hr hm hnull last lim down hcases
  have hdown : s.expandDown r.seg = true ↔ down := expandDown_iff hm
  have hout : s.insideLimit r.seg r.ea.toNat (i.osz.bytes + 2) = false := by
    rw [insideLimit_eq_false, ← Bool.not_eq_true, hdown, State.segLimit]
    rcases hcases with ⟨hv, hlast⟩ | ⟨hv, hnd, hlast⟩ | ⟨hd, houtside⟩
    · exact .inr ⟨fun hd => by simpa [hv] using hd.1, by rw [if_pos hv]; exact hlast⟩
    · exact .inr ⟨hnd, by rw [if_neg hv]; exact hlast⟩
    · have hv : s.mode ≠ .v86 := fun hv => by simpa [hv] using hd.1
      exact .inl ⟨hd, by rw [if_neg hv]; exact houtside⟩
  exact exec_of_checkSegment_raise hi hr (checkSegment_outside hm hnull hout)

/-- Settles O22: the canonical check raises the exception that R150 and D31 name for the override and the default. -/
theorem nonCanonicalOperandFaults : Obligations.NonCanonicalOperandFaults := by
  intro i s r hi hr hm hc
  have hexec : exec i s = .fault (s.nonCanonicalFault r) :=
    exec_of_checkSegment_raise hi hr (checkSegment_nonCanonical hm hc)
  rw [hexec, State.nonCanonicalFault]
  refine ⟨fun ho => ?_, fun hfs hgs hd => ?_, fun hfs hgs hss hd => ?_, fun hss hd => ?_⟩
  · rw [if_pos ho]
  · rw [if_neg (not_or.2 ⟨hfs, hgs⟩), if_pos hd]
  · simp [hfs, hgs, hss, hd]
  · cases Config.ssForOverride s.draws <;> simp [hss, hd]

/-- Settles O23: past the segment checks the wrap test comes next, and it is the one that the hypothesis says. -/
theorem wrappingOperandIsRefused : Obligations.WrappingOperandIsRefused := by
  intro i s r hi hr hseg hwrap
  have hw : s.wraps r (i.osz.bytes + 2) = true := by
    simp only [State.wraps, State.operandLinear, Bool.or_eq_true, Bool.and_eq_true, beq_iff_eq, decide_eq_true_eq]
    rcases hwrap with htop | ⟨hm, hlinear⟩
    · cases hasz : r.asz <;> rw [hasz] at htop <;> exact .inl htop
    · exact .inr ⟨hm, decide_eq_true (by omega)⟩
  refine exec_of_checkOperand_error hi hr (e := .refuse .operandWraps) ?_
  rw [checkOperand_of_checkSegment_ok hseg, if_pos hw]
  rfl

/-! ## Alignment and translation of the operand -/

/-- When `#AC(0)` is due (R153). -/
theorem alignmentDue_iff {s : State} {o : OpSize} {la : BitVec 64} : s.alignmentDue o la = true ↔
    s.mode ≠ .real ∧ s.acEnabled = true ∧ (s.mode ≠ .v86 → s.cpl = 3#2) ∧ la.toNat % s.acBoundary o ≠ 0 := by
  unfold State.alignmentDue State.unaligned
  cases s.mode <;> simp [and_assoc]

theorem checkAccess_of_translated {s : State} {r : MemRef} {o : OpSize} {n : Nat} {as : List (BitVec 64)}
    (hdue : s.alignmentDue o (s.operandLinear r) = true)
    (h : s.translateAll .read (.level s.cpl) (s.operandBytes r n) = .ok as) :
    s.checkAccess r o n = .error (.fault (.ac 0#16)) := by
  simp [State.checkAccess, h, hdue, raise]

theorem checkAccess_of_pageFault {s : State} {r : MemRef} {o : OpSize} {n : Nat} {e : Stop}
    (h : s.translateAll .read (.level s.cpl) (s.operandBytes r n) = .error e) :
    s.checkAccess r o n = .error
      (if s.alignmentDue o (s.operandLinear r) && Config.acBeforePf s.draws then .fault (.ac 0#16) else e) := by
  simp only [State.checkAccess, h]
  split <;> rfl

/-- Settles O24: the operand is past the segment checks and the wrap test, so the access check decides. -/
theorem alignmentAndPageFaults : Obligations.AlignmentAndPageFaults := by
  intro i s r hi hr hseg hw bound unaligned access
  have hbound : s.acBoundary i.osz = bound := by
    simp only [bound]
    cases i.osz <;> rfl
  have hdue : s.alignmentDue i.osz (s.operandLinear r) = true ↔
      s.mode ≠ .real ∧ s.acEnabled = true ∧ (s.mode ≠ .v86 → s.cpl = 3#2) ∧
        (s.linear r.seg r.ea).toNat % bound ≠ 0 := by
    rw [alignmentDue_iff, hbound]
    rfl
  have hdue_of (hu : unaligned) : s.alignmentDue i.osz (s.operandLinear r) = true :=
    hdue.2 ⟨hu.1, hu.2.1, fun _ => hu.2.2.1, hu.2.2.2⟩
  refine ⟨fun as hu ha => ?_, fun code la hu hv ha => ?_, fun code la hu ha => ?_⟩
  · exact exec_of_checkAccess_error hi hr hseg hw (checkAccess_of_translated (hdue_of hu) ha)
  · have hnot : s.alignmentDue i.osz (s.operandLinear r) = false := by
      rw [← Bool.not_eq_true, hdue]
      exact fun ⟨hreal, hen, hcpl, hmod⟩ => hu ⟨hreal, hen, (em (s.mode = .v86)).elim hv hcpl, hmod⟩
    refine exec_of_checkAccess_error hi hr hseg hw ?_
    rw [checkAccess_of_pageFault ha, hnot]
    rfl
  · have haccess := checkAccess_of_pageFault (o := i.osz) ha
    rw [hdue_of hu, Bool.true_and] at haccess
    cases hfirst : Config.acBeforePf s.draws with
    | true => exact .inl (exec_of_checkAccess_error hi hr hseg hw (by rw [haccess, hfirst]; rfl))
    | false => exact .inr (exec_of_checkAccess_error hi hr hseg hw (by rw [haccess, hfirst]; rfl))

/-! ## The fetch -/

theorem codeTop_eq (s : State) :
    s.codeTop = if s.mode = .long64 then 2 ^ 64 - 1 else if s.csD then 0xFFFFFFFF else 0xFFFF := by
  unfold State.codeTop
  cases s.mode <;> rfl

/-- In `Long64` a code offset at a canonical address is readable there: the base is 0 (R145, R282 (d)). -/
theorem codeLinear_of_long {s : State} {o : Nat} (hm : s.mode = .long64) (ho : o ≤ s.codeTop)
    (hc : s.canonical (BitVec.ofNat 64 o) = true) : s.codeLinear o = .ok (BitVec.ofNat 64 o) := by
  rw [State.codeLinear, if_neg (Nat.not_lt.2 ho), if_pos hm, if_pos hc,
    linear_of_not_fs_gs (g := .cs) hm (by decide) (by decide)]

/-- Outside `Long64` a code offset inside the CS limit is readable at CS base plus offset (R145, R282 (d)). -/
theorem codeLinear_of_not_long {s : State} {o : Nat} (hm : s.mode ≠ .long64) (ho : o ≤ s.codeTop)
    (hl : o ≤ s.segLimit .cs) :
    s.codeLinear o = .ok (BitVec.ofNat 64 ((s.cs.hid.base.toNat + o) % 2 ^ 32)) := by
  have ho64 : o < 2 ^ 64 := by
    rw [codeTop_eq, if_neg hm] at ho
    split at ho <;> omega
  rw [State.codeLinear, if_neg (Nat.not_lt.2 ho), if_neg hm, if_pos hl, linear_of_not_long hm, BitVec.toNat_ofNat,
    Nat.mod_eq_of_lt ho64, State.seg]

theorem codeByte_of_translate {s : State} {o : Nat} {la a : BitVec 64} (hl : s.codeLinear o = .ok la)
    (ht : s.translate .read (.level s.cpl) la = .ok a) (hs : s.hasSideEffect a = false) : s.codeByte o = .ok a := by
  simp [State.codeByte, hl, ht, hs]

/-- A window reaches its byte `k` when every byte up to it is readable. -/
theorem codeWindow_getElem? {s : State} {k n o : Nat} {pa : Nat → BitVec 64} (hk : k < n)
    (h : ∀ j, j ≤ k → s.codeByte (o + j) = .ok (pa j)) : (s.codeWindow n o).1[k]? = some (pa k) := by
  induction k generalizing n o pa with
  | zero =>
    obtain ⟨n, rfl⟩ := Nat.exists_eq_add_one.2 hk
    have h0 : s.codeByte o = .ok (pa 0) := h 0 le_rfl
    simp [State.codeWindow, h0]
  | succ k ih =>
    obtain ⟨n, rfl⟩ := Nat.exists_eq_add_one.2 (Nat.zero_lt_of_lt hk)
    have h0 : s.codeByte o = .ok (pa 0) := h 0 (Nat.zero_le _)
    have htail : (s.codeWindow n (o + 1)).1[k]? = some (pa (k + 1)) := by
      refine ih (pa := fun j => pa (j + 1)) (Nat.lt_of_succ_lt_succ hk) fun j hj => ?_
      rw [Nat.add_assoc, Nat.add_comm 1 j]
      exact h (j + 1) (Nat.succ_le_succ hj)
    simpa [State.codeWindow, h0] using htail

theorem fetchBytes_getElem? {s : State} {k : Nat} {pa : Nat → BitVec 64} (hk : k < 15)
    (h : ∀ j, j ≤ k → s.codeByte (s.pcOffset + j) = .ok (pa j)) :
    s.fetchBytes[k]? = some (s.byteAt (pa k).toNat) := by
  rw [State.fetchBytes, List.getElem?_map, State.fetchWindow, codeWindow_getElem? (n := maxLength) hk h, Option.map_some]

/-- Settles O53: each byte up to `k` is readable through CS and translates, so the fetch window reaches it. -/
theorem fetchReadsThroughCs : Obligations.FetchReadsThroughCs := by
  intro s k pa hk top offset la h
  have htop : s.codeTop = top := codeTop_eq s
  have hoffset : s.pcOffset = s.pc.toNat % (top + 1) := by rw [State.pcOffset, htop]
  refine fetchBytes_getElem? hk fun j hj => ?_
  obtain ⟨hrange, hcanonical, hv86, hlimit, htranslate, hplain⟩ := h j hj
  have hoj : s.pcOffset + j = offset j := by rw [hoffset]
  rw [hoj]
  refine codeByte_of_translate ?_ htranslate hplain
  by_cases hm : s.mode = .long64
  · simp only [la, if_pos hm] at hcanonical ⊢
    exact codeLinear_of_long hm (htop ▸ hrange) (hcanonical hm)
  · have hinside : offset j ≤ s.segLimit .cs := by
      unfold State.segLimit
      split
      · next hv => exact hv86 hv
      · next hv => exact hlimit hm hv
    simp only [la, if_neg hm]
    exact codeLinear_of_not_long hm (htop ▸ hrange) hinside

/-- Settles O12: the case of O53 in which translation is the identity and no memory has side effects. -/
theorem realModeFetchReadsThroughCs : Obligations.RealModeFetchReadsThroughCs := by
  intro s k hm hd hplain hk hrange hlimit
  have hlong : s.mode ≠ .long64 := by simp [hm]
  let pa (j : Nat) : BitVec 64 := BitVec.ofNat 64 ((s.cs.hid.base.toNat + (s.pc.toNat % 65536 + j)) % 2 ^ 32)
  have hpa : (pa k).toNat = (s.cs.hid.base.toNat + s.pc.toNat % 65536 + k) % 2 ^ 32 := by
    rw [BitVec.toNat_ofNat]
    omega
  rw [← hpa]
  refine fetchReadsThroughCs s k pa hk fun j hj => ?_
  simp only [hlong, hd, if_false, Bool.false_eq_true]
  refine ⟨by omega, nofun, by simp [hm], fun _ _ => by omega, ?_, ?_⟩
  · rw [State.translate, if_pos hm]
  · simp [State.hasSideEffect, hplain]

/-! ## The step -/

theorem step_of_decode_ok {s : State} {i : Instr} {rest : List Byte} (h : decode s.ctx s.fetchBytes = .ok i rest) :
    step s = if s.codeIsModified i.length then .refused .modifiedCode else exec i s := by
  rw [step, h]

/-- Settles O10: the step follows the decoder's answer, and then the record of written code. -/
theorem stepExecutesDecodedInstruction : Obligations.StepExecutesDecodedInstruction := by
  intro s
  refine ⟨fun i rest h hmod => ?_, fun i rest h hmod => ?_, fun x h => ?_⟩
  · rw [step_of_decode_ok h, hmod]
    rfl
  · rw [step_of_decode_ok h, if_pos hmod]
  · rw [step, h]

/-! ### The decoder reads back what the encoder writes -/

/-- No legacy byte stands at the REX byte or the opcode. -/
theorem legacyOf_head_rex_opcode (rx : Option Rex) (m : Mnem) (bs : List Byte) :
    ∀ b ∈ ((rx.map Rex.byte).toList ++ (m.opcode ++ bs)).head?, legacyOf b = none := by
  obtain ⟨b, os, hm, hlegacy, -, -⟩ := opcode_head m
  cases rx with
  | none => simpa [hm] using hlegacy
  | some x => simpa using legacyOf_rex _ (isRex_byte x)

/-- A REX byte is read back in `Long64`, and none is read where there is none. -/
theorem takeRex_append_opcode {c : Ctx} {rx : Option Rex} (h : rx = none ∨ c.mode = .long64) (m : Mnem)
    (bs : List Byte) : takeRex c ((rx.map Rex.byte).toList ++ (m.opcode ++ bs)) = (rx, m.opcode ++ bs) := by
  cases rx with
  | none =>
    obtain ⟨b, os, hm, -, -, hrex⟩ := opcode_head m
    simp [hm, takeRex, hrex]
  | some x =>
    have hl : c.mode = .long64 := h.resolve_left nofun
    simp [takeRex, hl]

theorem decodeOpcode_opcode (c : Ctx) (p : Pfx) (m : Mnem) (bs : List Byte) :
    decodeOpcode c p (m.opcode ++ bs) = decodeModRM c p m bs := by
  obtain ⟨b, os, hm, hlegacy, hrepeat, hrex⟩ := opcode_head m
  have hread := takeOpcode_opcode m bs
  rw [hm, List.cons_append] at hread ⊢
  simp [decodeOpcode, hrepeat, hlegacy, hrex, hread]

theorem decodeModRM_encode {c : Ctx} {p : Pfx} {o : Operand} (h : o.wellFormed (addrSize c p) = true) (m : Mnem)
    (reg : BitVec 3) (rest : List Byte) :
    decodeModRM c p m (o.encode reg ++ rest) = .ok (formOf m (opSize c p) { pfx := p, reg := reg, rm := o }) rest := by
  obtain ⟨b, bs, hbs, hreg, htake⟩ := takeOperand_encode reg rest h
  rw [hbs]
  simp only [decodeModRM, htake, hreg]

/-- A well-formed instruction is read back: legacy bytes, REX, opcode, operand, each by its own lemma. -/
theorem decode_encode {c : Ctx} {i : Instr} (h : i.wellFormed c = true) (rest : List Byte) :
    decode c (encode i ++ rest) = .ok i rest := by
  simp only [Instr.wellFormed, Pfx.wellFormed, Bool.and_eq_true, Bool.or_eq_true, Option.isNone_iff_eq_none,
    beq_iff_eq] at h
  obtain ⟨⟨⟨hlegacy, hrex⟩, hoperand⟩, hform⟩ := h
  have hscan := scanLegacy_append i.enc.pfx.legacy
    (legacyOf_head_rex_opcode i.enc.pfx.rex i.mnem (i.enc.rm.encode i.enc.reg ++ rest))
  have hbytes : encode i ++ rest = i.enc.pfx.legacy.map LegacyPfx.byte ++
      ((i.enc.pfx.rex.map Rex.byte).toList ++ (i.mnem.opcode ++ (i.enc.rm.encode i.enc.reg ++ rest))) := by
    simp only [encode, List.append_assoc]
  rw [decode, hbytes, hscan]
  simp only [hlegacy, takeRex_append_opcode hrex, decodeOpcode_opcode]
  rw [decodeModRM_encode hoperand, ← hform]

/-- Settles O11: the decoder reads the instruction back from its encoding. -/
theorem stepRunsTheEncodedInstruction : Obligations.StepRunsTheEncodedInstruction := by
  intro s i rest hw hbytes hmod
  have hdecode : decode s.ctx s.fetchBytes = .ok i rest := by rw [hbytes, decode_encode hw]
  exact (stepExecutesDecodedInstruction s).1 i rest hdecode hmod

/-! ## The descriptor's addresses -/

theorem selIndex_eq (sel : BitVec 16) : selIndex sel = sel.toNat / 8 := by
  have := sel.isLt
  rw [selIndex, BitVec.extractLsb'_toNat, Nat.shiftRight_eq_div_pow]
  omega

/-- A descriptor-table address a number of bytes above another: cut to 32 bits in protected mode (log entry 11). -/
theorem systemAddr_add (s : State) (a : BitVec 64) (n : Nat) : s.systemAddr (a + BitVec.ofNat 64 n) =
    if s.mode = .prot then BitVec.ofNat 64 ((a.toNat + n) % 2 ^ 32) else a + BitVec.ofNat 64 n := by
  unfold State.systemAddr
  split
  · apply BitVec.eq_of_toNat_eq
    simp only [BitVec.toNat_setWidth, BitVec.toNat_add, BitVec.toNat_ofNat]
    omega
  · rfl

theorem descBytes_getElem? (s : State) (sel : BitVec 16) {k : Nat} (hk : k < 8) :
    (s.descBytes sel)[k]? = some (s.systemAddr (s.descAddr sel + BitVec.ofNat 64 k)) := by
  simp [State.descBytes, hk]

/-- Settles O33: TI picks the table, and every address is a table address some bytes above another. -/
theorem descriptorLookup : Obligations.DescriptorLookup := by
  intro s sel index addr
  have haddr : s.descAddr sel = if s.mode = .prot then BitVec.ofNat 64 (((s.tableBase sel).toNat + 8 * index) % 2 ^ 32)
      else s.tableBase sel + BitVec.ofNat 64 (8 * index) := by
    rw [State.descAddr, selIndex_eq, systemAddr_add]
  refine ⟨fun hti => ⟨?_, ?_⟩, fun hti => ⟨?_, ?_⟩, by simp [State.descBytes], fun k hk => ?_⟩
  · rw [State.inTable, tableIndicator, hti, selIndex_eq, if_neg Bool.false_ne_true, decide_eq_true_iff]
  · rwa [State.tableBase, tableIndicator, hti] at haddr
  · rw [State.inTable, tableIndicator, hti, selIndex_eq, if_pos rfl, Bool.and_eq_true, decide_eq_true_iff]
  · rwa [State.tableBase, tableIndicator, hti] at haddr
  · rw [descBytes_getElem? s sel hk, systemAddr_add]

/-! ## The one byte that a load writes -/

/-- The byte that a load marks: none in real-address and virtual-8086 mode and for a NULL selector, and otherwise the
one that its descriptor calls for (R160, R222 to R228). -/
theorem newSegment_accessed {s : State} {g : Seg} {sel : BitVec 16} {n : SegLoad} (h : s.newSegment g sel = .ok n) :
    (n.accessed = none ∧ ¬ (s.checksSegments ∧ isNull sel = false)) ∨
    (s.checksSegments ∧ isNull sel = false ∧ ∃ d, DescriptorRead s sel d ∧ AccessedUpdate s sel d n.accessed) := by
  rcases newSegment_cases h with ⟨hm, rfl⟩ | ⟨-, hnull, -, rfl⟩ | ⟨-, hnull, -, -, -, rfl⟩ |
    ⟨hc, hnull, -, ⟨-, hl⟩ | ⟨-, hl⟩⟩
  · exact .inl ⟨rfl, fun hc => not_real_of_checksSegments hc.1 hm⟩
  · exact .inl ⟨rfl, by simp [hnull]⟩
  · exact .inl ⟨rfl, by simp [hnull]⟩
  · obtain ⟨d, hd, -, -, -, -, hl⟩ := loadSs_eq_ok.1 hl
    exact .inr ⟨hc, hnull, d, hd, (loadDescriptor_eq_ok.1 hl).2.1⟩
  · obtain ⟨d, hd, -, -, -, hl⟩ := loadData_eq_ok.1 hl
    exact .inr ⟨hc, hnull, d, hd, (loadDescriptor_eq_ok.1 hl).2.1⟩

/-- A load that completes reads the operand that the hypotheses of O35 and O54 name, and leaves memory and the record
of written code as the mark of one byte does. -/
theorem exec_memory {i : Instr} {s t : State} {r : MemRef} {as : List (BitVec 64)} (h : exec i s = .next t)
    (hr : s.memRef i.enc i.length = some r)
    (ha : s.translateAll .read (.level s.cpl) (s.operandBytes r (i.osz.bytes + 2)) = .ok as) :
    ∃ n, s.newSegment i.mnem.seg (s.readSelector i.osz as) = .ok n ∧
      t.mem = (s.markAccessed n.accessed).mem ∧ t.modifiedCode = (s.markAccessed n.accessed).modifiedCode := by
  obtain ⟨r', as', n, hready, hn, -, rfl⟩ := exec_eq_next.1 h
  obtain ⟨-, rfl⟩ := ready_unique hready hr ha
  exact ⟨n, hn, commit_mem .., commit_modifiedCode ..⟩

/-- With the descriptor read, the byte that a load marks. -/
theorem accessed_of_descriptorRead {s : State} {g : Seg} {sel : BitVec 16} {n : SegLoad}
    (h : s.newSegment g sel = .ok n) (hc : s.checksSegments) (hnull : isNull sel = false) {d : BitVec 64}
    (hd : DescriptorRead s sel d) : AccessedUpdate s sel d n.accessed := by
  rcases newSegment_accessed h with ⟨-, hnot⟩ | ⟨-, -, d', hd', hu⟩
  · exact absurd ⟨hc, hnull⟩ hnot
  · rwa [descriptorRead_unique hd hd']

/-- A descriptor with accessed bit 1, or `SET_ACCESSED` false, has no byte to mark. -/
theorem AccessedUpdate.eq_none {s : State} {sel : BitVec 16} {d : BitVec 64} {u : Option Nat}
    (h : AccessedUpdate s sel d u) (hd : isAccessed d = true ∨ s.cfg.setAccessed = false) : u = none := by
  rwa [AccessedUpdate, if_pos hd] at h

/-- Otherwise the byte to mark is the one that `accessedByte` computes. -/
theorem AccessedUpdate.eq_accessedByte {s : State} {sel : BitVec 16} {d : BitVec 64} {u : Option Nat}
    (h : AccessedUpdate s sel d u) (hd : isAccessed d = false) (hset : s.cfg.setAccessed = true) {a : Nat}
    (ha : s.accessedByte sel = .ok a) : u = some a := by
  rw [AccessedUpdate, if_neg (by simp [hd, hset])] at h
  obtain ⟨as, has, hplain, rfl⟩ := h
  rw [accessedByte_eq_ok.2 ⟨as, has, hplain, rfl⟩] at ha
  rw [Except.ok.inj ha]

/-- Settles O35: a load marks no byte or the one `accessedByte` computes, and the mark writes nothing else. -/
theorem onlyTheAccessedByteIsWritten : Obligations.OnlyTheAccessedByteIsWritten := by
  intro i s t r as h hwf hr ha sel unwritten
  obtain ⟨n, hn, hmem, hcode⟩ := exec_memory h hr ha
  have hbyte (b : Nat) : t.byteAt b = (s.markAccessed n.accessed).byteAt b := by rw [State.byteAt, hmem]; rfl
  have hunwritten (hnone : n.accessed = none) : unwritten := by
    rw [hnone, markAccessed_none] at hcode hbyte
    exact ⟨hbyte, hcode⟩
  constructor
  · intro hcase
    rcases newSegment_accessed hn with ⟨hnone, -⟩ | ⟨hc, hnull, -⟩
    · exact hunwritten hnone
    · rcases hcase with hm | hm | hnull'
      · exact absurd (.inl hm) (not_real_of_checksSegments hc)
      · exact absurd (.inr hm) (not_real_of_checksSegments hc)
      · exact absurd hnull' (by simp [sel, hnull])
  · intro hc hnull d hd
    have hupdate := accessed_of_descriptorRead hn hc hnull hd
    refine ⟨fun hkept => hunwritten (hupdate.eq_none hkept), fun hclear hset a hbyteAddr => ?_⟩
    have hmark := hupdate.eq_accessedByte hclear hset hbyteAddr
    simp only [hmark, markAccessed_byteAt hwf, markAccessed_some_modifiedCode, Option.some.injEq] at hbyte hcode
    refine ⟨?_, fun b hb => ?_, fun b => ?_⟩
    · rw [hbyte, if_pos rfl]
    · rw [hbyte, if_neg (Ne.symm hb)]
    · rw [hcode, List.mem_cons]

theorem mem_markAccessed_modifiedCode {s : State} {a : Nat} (h : a ∈ s.modifiedCode) (u : Option Nat) :
    a ∈ (s.markAccessed u).modifiedCode := by
  cases u with
  | none => exact h
  | some b => exact List.mem_cons_of_mem b h

/-- Settles O54: a load enters the byte it marks in the record, a step keeps the record, and the fetched bytes are
looked up in it. -/
theorem markedBytesAreNotExecuted : Obligations.MarkedBytesAreNotExecuted := by
  refine ⟨?_, ?_, ?_⟩
  · intro i s t r as d a h hr ha hc hnull hd hclear hset hbyteAddr
    obtain ⟨n, hn, -, hcode⟩ := exec_memory h hr ha
    have hmark := (accessed_of_descriptorRead hn hc hnull hd).eq_accessedByte hclear hset hbyteAddr
    rw [hcode, hmark, markAccessed_some_modifiedCode]
    exact List.mem_cons_self
  · intro s t a h hmem
    obtain ⟨i, hi⟩ := exec_of_step_eq_next h
    obtain ⟨r, as, n, -, -, -, rfl⟩ := exec_eq_next.1 hi
    rw [commit_modifiedCode]
    exact mem_markAccessed_modifiedCode hmem _
  · intro s i rest a hdecode hwindow hmem
    have hmod : s.codeIsModified i.length = true := List.any_eq_true.2 ⟨a, hwindow, by simpa using hmem⟩
    rw [step_of_decode_ok hdecode, if_pos hmod]

end Sys2Proof.Machine
end

section
/-! PROOFS. The statements of spec/30_encoding.md: that decode and encode are inverse, what follows for lengths, sizes
and registers, the refusals, and the tables of the addressing forms, each after the lemmas it needs. -/

namespace Sys2Proof.Machine

/-! ## Decode and encode are inverse -/

/-- Settles O2: the decoder reads each part of the encoding back. -/
theorem decodeOfEncodeIsTheInstruction : Obligations.DecodeOfEncodeIsTheInstruction :=
  fun _ _ rest hw => decode_encode hw rest

@[simp] theorem mnem_formOf (m : Mnem) (o : OpSize) (e : Enc) : (formOf m o e).mnem = m := by
  cases m <;> cases o <;> rfl

@[simp] theorem enc_formOf (m : Mnem) (o : OpSize) (e : Enc) : (formOf m o e).enc = e := by
  cases m <;> cases o <;> rfl

/-- An instruction is well formed when its prefixes, its operand and its form are. -/
theorem instr_wellFormed_iff {c : Ctx} {i : Instr} : i.wellFormed c = true ↔
    legacyProblem i.enc.pfx.legacy = none ∧ (i.enc.pfx.rex = none ∨ c.mode = .long64) ∧
      i.enc.rm.wellFormed (addrSize c i.enc.pfx) = true ∧ i = formOf i.mnem (opSize c i.enc.pfx) i.enc := by
  simp [Instr.wellFormed, Pfx.wellFormed, and_assoc]

/-- What was taken in front of the rest is the byte of the REX that was read, in `Long64` only (R175). -/
theorem takeRex_eq {c : Ctx} {bs bs' : List Byte} {rx : Option Rex} (h : takeRex c bs = (rx, bs')) :
    bs = (rx.map Rex.byte).toList ++ bs' ∧ (rx = none ∨ c.mode = .long64) := by
  cases bs with
  | nil =>
    cases h
    exact ⟨rfl, .inl rfl⟩
  | cons b bs =>
    by_cases hrex : c.mode = .long64 ∧ isRex b = true
    · obtain ⟨hmode, hb⟩ := hrex
      simp only [takeRex, hmode, hb, decide_true, Bool.and_self, if_true, Prod.mk.injEq] at h
      obtain ⟨rfl, rfl⟩ := h
      exact ⟨by simp [byte_rexOf b hb], .inr hmode⟩
    · rw [takeRex, if_neg (by simpa using hrex)] at h
      cases h
      exact ⟨rfl, .inl rfl⟩

theorem decodeOpcode_eq_ok {c : Ctx} {p : Pfx} {bs rest : List Byte} {i : Instr}
    (h : decodeOpcode c p bs = .ok i rest) :
    ∃ m bs', bs = m.opcode ++ bs' ∧ decodeModRM c p m bs' = .ok i rest := by
  cases bs with
  | nil => cases h
  | cons b bs =>
    rw [decodeOpcode] at h
    split at h
    · cases h
    split at h
    · cases h
    cases hop : takeOpcode (b :: bs) with
    | found m bs' =>
      rw [hop] at h
      exact ⟨m, bs', takeOpcode_eq_found hop, h⟩
    | more => simp [hop] at h
    | other => simp [hop] at h

theorem decodeModRM_eq_ok {c : Ctx} {p : Pfx} {m : Mnem} {bs rest : List Byte} {i : Instr}
    (h : decodeModRM c p m bs = .ok i rest) :
    ∃ reg o, o.wellFormed (addrSize c p) = true ∧ bs = o.encode reg ++ rest ∧
      i = formOf m (opSize c p) { pfx := p, reg := reg, rm := o } := by
  cases bs with
  | nil => cases h
  | cons b bs =>
    cases hop : takeOperand (addrSize c p) (hi2 b) (lo3 b) bs with
    | none => simp [decodeModRM, hop] at h
    | some res =>
      obtain ⟨o, bs'⟩ := res
      simp only [decodeModRM, hop, Decoded.ok.injEq] at h
      obtain ⟨rfl, rfl⟩ := h
      obtain ⟨hw, hbytes⟩ := takeOperand_eq_some hop
      exact ⟨mid3 b, o, hw, hbytes, rfl⟩

/-- Bytes that decode are read from the front: legacy bytes, REX, opcode, operand, each by its own lemma. -/
theorem encode_decode {c : Ctx} {bs rest : List Byte} {i : Instr} (h : decode c bs = .ok i rest) :
    i.wellFormed c = true ∧ bs = encode i ++ rest := by
  rw [decode] at h
  obtain ⟨hbs, -⟩ := scanLegacy_eq bs
  generalize scanLegacy bs = scan at h hbs
  obtain ⟨ps, bs₁⟩ := scan
  cases hlegacy : legacyProblem ps with
  | some x => simp [hlegacy] at h
  | none =>
    simp only [hlegacy] at h
    obtain ⟨hrexBytes, hrex⟩ := takeRex_eq (rx := (takeRex c bs₁).1) (bs' := (takeRex c bs₁).2) rfl
    generalize takeRex c bs₁ = taken at h hrexBytes hrex
    obtain ⟨rx, bs₂⟩ := taken
    obtain ⟨m, bs₃, hopcode, h⟩ := decodeOpcode_eq_ok h
    obtain ⟨reg, o, hoperand, hmodrm, rfl⟩ := decodeModRM_eq_ok h
    refine ⟨by simp [instr_wellFormed_iff, hlegacy, hrex, hoperand], ?_⟩
    simp only at hopcode hrexBytes hbs
    simp only [hbs, hrexBytes, hopcode, hmodrm, encode, mnem_formOf, enc_formOf, List.append_assoc]

/-- Settles O3. -/
theorem encodeOfDecodeIsTheBytes : Obligations.EncodeOfDecodeIsTheBytes :=
  fun _ _ _ _ => encode_decode

/-! ## Length, size and register of a decoded instruction -/

/-- An operand takes a ModRM byte and at most a SIB byte and four displacement bytes (R186). -/
theorem operand_length_bounds (o : Operand) : 1 ≤ o.length ∧ o.length ≤ 6 := by
  rcases o with _ | (_ | ⟨_, d⟩) | (⟨_, d⟩ | _ | ⟨_, _, _, d⟩ | _)
  · simp [Operand.length]
  · simp [Operand.length]
  · cases d <;> simp [Operand.length, Disp16.length]
  · cases d <;> simp [Operand.length, Disp32.length]
  · simp [Operand.length]
  · cases d <;> simp [Operand.length, Disp32.length]
  · simp [Operand.length]

theorem opcodeBytes_bounds (m : Mnem) : 1 ≤ m.opcodeBytes ∧ m.opcodeBytes ≤ 2 := by cases m <;> decide

/-- The bounds add up: four legacy prefixes, REX, two opcode bytes, six bytes of operand (R186). -/
theorem length_bounds_of_wellFormed {c : Ctx} {i : Instr} (h : i.wellFormed c = true) :
    2 ≤ i.length ∧ i.length ≤ 13 := by
  obtain ⟨hlegacy, -, -, -⟩ := instr_wellFormed_iff.1 h
  have hpfx := length_of_legacyProblem _ hlegacy
  have hrex : (if i.enc.pfx.rex.isSome then 1 else 0) ≤ 1 := by split <;> omega
  have hop := opcodeBytes_bounds i.mnem
  have hrm := operand_length_bounds i.enc.rm
  rw [Instr.length, Enc.length]
  omega

/-- Settles O4: the bytes taken are the encoding, whose length is bounded. -/
theorem decodedLengthIsAtMostThirteen : Obligations.DecodedLengthIsAtMostThirteen := by
  intro c bs rest i h
  obtain ⟨hw, hbs⟩ := encode_decode h
  exact ⟨by rw [hbs, List.length_append, length_encode], length_bounds_of_wellFormed hw⟩

theorem rexW_eq_true {p : Pfx} : p.rexW = true ↔ ∃ r, p.rex = some r ∧ r.w = true := by
  cases h : p.rex <;> simp [Pfx.rexW, h]

/-- The 64-bit operand size is that of `Long64` with REX.W (R176). -/
theorem opSize_eq_w64 {c : Ctx} {p : Pfx} (h : opSize c p = .w64) : c.mode = .long64 ∧ p.rexW = true := by
  have hm : c.mode = .long64 := by
    by_contra hm
    exact opSize_ne_w64 hm p h
  refine ⟨hm, ?_⟩
  by_contra hw
  simp only [opSize, hm, if_neg hw] at h
  split at h <;> cases h

/-- Settles O5: a 64-bit form is chosen by a 64-bit operand size. -/
theorem sixtyFourBitFormsNeedRexWInLong64 : Obligations.SixtyFourBitFormsNeedRexWInLong64 := by
  intro c bs rest i h hosz
  obtain ⟨-, -, -, hform⟩ := instr_wellFormed_iff.1 (encode_decode h).1
  have hsize : opSize c i.enc.pfx = .w64 := by
    by_contra hne
    exact hne (by rw [← osz_formOf hne i.mnem i.enc, ← hform, hosz])
  obtain ⟨hm, hw⟩ := opSize_eq_w64 hsize
  exact ⟨hm, rexW_eq_true.1 hw⟩

/-- Settles O6: the register number is that of the prefixes, and a well-formed instruction has REX in `Long64` only. -/
theorem destinationRegisterNumber : Obligations.DestinationRegisterNumber := by
  intro c bs rest i h
  obtain ⟨-, hrex, -, -⟩ := instr_wellFormed_iff.1 (encode_decode h).1
  refine ⟨fun r hr => ⟨hrex.resolve_left (by simp [hr]), ?_⟩, fun hnone => ?_⟩
  · rw [Enc.dest, Pfx.rexR, hr]
    rfl
  · rw [Enc.dest, Pfx.rexR, hnone]
    rfl

/-! ## The refused prefixes -/

/-- Past prefixes that R184 leaves, when no other legacy byte follows, the decoder reads REX and the opcode. -/
theorem decode_map_append {ps : List LegacyPfx} (hps : legacyProblem ps = none) {bs : List Byte}
    (h : ∀ b ∈ bs.head?, legacyOf b = none) (c : Ctx) :
    decode c (ps.map LegacyPfx.byte ++ bs) =
      decodeOpcode c { legacy := ps, rex := (takeRex c bs).1 } (takeRex c bs).2 := by
  rw [decode, scanLegacy_append ps h]
  simp only [hps]

/-- A REX byte after such prefixes is taken in `Long64`. -/
theorem decode_map_append_rex {c : Ctx} (hm : c.mode = .long64) {ps : List LegacyPfx} (hps : legacyProblem ps = none)
    (r : Rex) (bs : List Byte) :
    decode c (ps.map LegacyPfx.byte ++ r.byte :: bs) = decodeOpcode c { legacy := ps, rex := some r } bs := by
  rw [decode_map_append hps (by simpa using legacyOf_rex _ (isRex_byte r))]
  simp [takeRex, hm]

theorem decodeOpcode_repeat {b : Byte} (h : isRepeat b = true) (c : Ctx) (p : Pfx) (bs : List Byte) :
    decodeOpcode c p (b :: bs) = .rejected .repeatPfx := by
  rw [decodeOpcode, if_pos h]

/-- Between REX and the opcode neither a legacy byte nor another REX may stand (R184). -/
theorem decodeOpcode_misplaced {b : Byte} (hrep : isRepeat b = false) (h : (legacyOf b).isSome = true ∨ isRex b = true)
    (c : Ctx) (ps : List LegacyPfx) (r : Rex) (bs : List Byte) :
    decodeOpcode c { legacy := ps, rex := some r } (b :: bs) = .rejected .misplacedRex := by
  simp [decodeOpcode, hrep, h]

/-- The scan reads prefixes in front of any bytes. -/
theorem scanLegacy_map_append (ps : List LegacyPfx) (bs : List Byte) :
    (scanLegacy (ps.map LegacyPfx.byte ++ bs)).1 = ps ++ (scanLegacy bs).1 := by
  induction ps with
  | nil => rfl
  | cons p ps ih => simp [scanLegacy, ih]

/-- What is given twice is given twice with any further prefixes. -/
theorem legacyProblem_append {ps : List LegacyPfx}
    (h : 1 < ps.count .opSize ∨ 1 < ps.count .addrSize ∨ 1 < ps.countP LegacyPfx.isSeg) (qs : List LegacyPfx) :
    ∃ x, legacyProblem (ps ++ qs) = some x := by
  simp only [legacyProblem, List.count_append, List.countP_append]
  split
  · exact ⟨_, rfl⟩
  · next hseg =>
    refine ⟨.repeatedPfx, if_pos ?_⟩
    simp only [Bool.or_eq_true, decide_eq_true_eq]
    omega

/-- Settles O7: each clause is one test of the decoder, reached past the admitted prefixes. -/
theorem unsettledPrefixesAreRefused : Obligations.UnsettledPrefixesAreRefused := by
  refine ⟨fun c ps b rest hps hb => ?_, fun c ps rest hmany => ?_, fun c ps r p rest hm hps => ?_,
    fun c ps r b rest hm hps hb => ?_, fun c ps r r' rest hm hps => ?_⟩
  · have hrex : isRex b = false := by
      by_contra hrex
      simp [isRepeat_rex b (by simpa using hrex)] at hb
    rw [decode_map_append hps (by simpa using isRepeat_legacyOf b hb)]
    simp [takeRex, hrex, decodeOpcode_repeat hb]
  · obtain ⟨x, hx⟩ := legacyProblem_append hmany (scanLegacy rest).1
    exact ⟨x, by rw [decode, scanLegacy_map_append, hx]⟩
  · rw [decode_map_append_rex hm hps, decodeOpcode_misplaced (isRepeat_byte p) (by simp)]
  · rw [decode_map_append_rex hm hps, decodeOpcode_repeat hb]
  · rw [decode_map_append_rex hm hps, decodeOpcode_misplaced (isRepeat_rex _ (isRex_byte r')) (by simp)]

/-! ## Operand and address size -/

/-- Settles O8: row by row, by the mode and CS.D. -/
theorem operandSizeTable : Obligations.OperandSizeTable := by
  intro c p
  refine ⟨?_, ?_, ?_, fun hm hw => ?_, fun hm hw => ?_⟩
  · rintro (hm | hm) <;> simp [opSize, hm]
  · rintro (hm | hm) hd <;> simp [opSize, hm, hd]
  · rintro (hm | hm) hd <;> cases h : p.has66 <;> simp [opSize, hm, hd, h]
  · simp [opSize, hm, hw]
  · simp [opSize, hm, hw]

theorem addrSize_long {c : Ctx} (hm : c.mode = .long64) (p : Pfx) :
    addrSize c p = if p.has67 then .a32 else .a64 := by
  rw [addrSize, hm]

/-- Settles O9: row by row, by the mode and CS.D. -/
theorem addressSizeTable : Obligations.AddressSizeTable := by
  intro c p
  refine ⟨?_, ?_, ?_, fun hm => addrSize_long hm p⟩
  · rintro (hm | hm) <;> simp [addrSize, hm]
  · rintro (hm | hm) hd <;> simp [addrSize, hm, hd]
  · rintro (hm | hm) hd <;> cases h : p.has67 <;> simp [addrSize, hm, hd, h]

/-- Settles O1: the decoder runs on the six words. -/
theorem wordsDecodeAsWritten : Obligations.WordsDecodeAsWritten := ⟨rfl, rfl, rfl, rfl, rfl, rfl⟩

/-! ## Where the decoder runs out of bytes -/

theorem get8_eq_none {bs : List Byte} (h : get8 bs = none) : bs.length < 1 := by
  match bs, h with
  | [], _ => decide

theorem get16_eq_none {bs : List Byte} (h : get16 bs = none) : bs.length < 2 := by
  match bs, h with
  | [], _ => simp
  | [_], _ => simp

theorem get32_eq_none {bs : List Byte} (h : get32 bs = none) : bs.length < 4 := by
  match bs, h with
  | [], _ => simp
  | [_], _ => simp
  | [_, _], _ => simp
  | [_, _, _], _ => simp

theorem takeDisp16_eq_none {md : BitVec 2} {bs : List Byte} (h : takeDisp16 md bs = none) : bs.length < 2 := by
  unfold takeDisp16 at h
  split at h
  · cases h
  split at h
  · exact (get8_eq_none (Option.map_eq_none_iff.1 h)).trans (by decide)
  · exact get16_eq_none (Option.map_eq_none_iff.1 h)

theorem takeDisp32_eq_none {md : BitVec 2} {bs : List Byte} (h : takeDisp32 md bs = none) : bs.length < 4 := by
  unfold takeDisp32 at h
  split at h
  · cases h
  split at h
  · exact (get8_eq_none (Option.map_eq_none_iff.1 h)).trans (by decide)
  · exact get32_eq_none (Option.map_eq_none_iff.1 h)

theorem takeMem16_eq_none {md : BitVec 2} {rm : BitVec 3} {bs : List Byte} (h : takeMem16 md rm bs = none) :
    bs.length < 2 := by
  unfold takeMem16 at h
  split at h
  · exact get16_eq_none (Option.map_eq_none_iff.1 h)
  · exact takeDisp16_eq_none (Option.map_eq_none_iff.1 h)

theorem takeSib_eq_none {md : BitVec 2} {bs : List Byte} (h : takeSib md bs = none) : bs.length < 5 := by
  cases bs with
  | nil => decide
  | cons b bs =>
    refine Nat.succ_lt_succ ?_
    rw [takeSib] at h
    split at h
    · exact get32_eq_none (Option.map_eq_none_iff.1 h)
    · exact takeDisp32_eq_none (Option.map_eq_none_iff.1 h)

theorem takeMem32_eq_none {md : BitVec 2} {rm : BitVec 3} {bs : List Byte} (h : takeMem32 md rm bs = none) :
    bs.length < 5 := by
  unfold takeMem32 at h
  split at h
  · exact takeSib_eq_none h
  split at h
  · exact (get32_eq_none (Option.map_eq_none_iff.1 h)).trans (by decide)
  · exact (takeDisp32_eq_none (Option.map_eq_none_iff.1 h)).trans (by decide)

/-- After ModRM an operand takes five bytes at most: SIB and four of displacement. -/
theorem takeOperand_eq_none {a : AddrSize} {md : BitVec 2} {rm : BitVec 3} {bs : List Byte}
    (h : takeOperand a md rm bs = none) : bs.length < 5 := by
  unfold takeOperand at h
  split at h
  · cases h
  cases a with
  | a16 => exact (takeMem16_eq_none (Option.map_eq_none_iff.1 h)).trans (by decide)
  | a32 | a64 => exact takeMem32_eq_none (Option.map_eq_none_iff.1 h)

theorem decodeModRM_eq_truncated {c : Ctx} {p : Pfx} {m : Mnem} {bs : List Byte}
    (h : decodeModRM c p m bs = .truncated) : bs.length < 6 := by
  cases bs with
  | nil => decide
  | cons b bs =>
    cases hop : takeOperand (addrSize c p) (hi2 b) (lo3 b) bs with
    | none => exact Nat.succ_lt_succ (takeOperand_eq_none hop)
    | some res => simp [decodeModRM, hop] at h

theorem takeOpcode_eq_more {bs : List Byte} (h : takeOpcode bs = .more) : bs.length < 2 := by
  match bs with
  | [] => decide
  | [_] => simp
  | b :: b2 :: bs =>
    simp only [takeOpcode] at h
    repeat' split at h
    all_goals cases h

theorem decodeOpcode_eq_truncated {c : Ctx} {p : Pfx} {bs : List Byte} (h : decodeOpcode c p bs = .truncated) :
    bs.length < 8 := by
  cases bs with
  | nil => decide
  | cons b bs =>
    rw [decodeOpcode] at h
    split at h
    · cases h
    split at h
    · cases h
    cases hop : takeOpcode (b :: bs) with
    | found m bs' =>
      simp only [hop] at h
      have hlen := decodeModRM_eq_truncated h
      rw [takeOpcode_eq_found hop, List.length_append, Mnem.length_opcode]
      have := (opcodeBytes_bounds m).2
      omega
    | more => exact (takeOpcode_eq_more hop).trans (by decide)
    | other => simp [hop] at h

/-- REX is one byte at most. -/
theorem length_le_length_takeRex (c : Ctx) (bs : List Byte) : bs.length ≤ (takeRex c bs).2.length + 1 := by
  cases bs with
  | nil => simp
  | cons b bs =>
    rw [takeRex]
    split <;> simp

/-- Bytes that run out before the instruction does are fewer than 13: four legacy bytes, REX, and seven of those that
the opcode begins. -/
theorem decode_eq_truncated {c : Ctx} {bs : List Byte} (h : decode c bs = .truncated) : bs.length < 13 := by
  rw [decode] at h
  obtain ⟨hbs, -⟩ := scanLegacy_eq bs
  cases hlegacy : legacyProblem (scanLegacy bs).1 with
  | some x => simp [hlegacy] at h
  | none =>
    simp only [hlegacy] at h
    have hpfx := length_of_legacyProblem _ hlegacy
    have hop := decodeOpcode_eq_truncated h
    have hrex := length_le_length_takeRex c (scanLegacy bs).2
    rw [hbs, List.length_append, List.length_map]
    omega

/-! ## The fetch raises no exception -/

theorem codeLinear_error {s : State} {o : Nat} {e : Stop} (h : s.codeLinear o = .error e) : ∃ r, e = .refuse r := by
  unfold State.codeLinear at h
  repeat' split at h
  all_goals cases h
  all_goals exact ⟨_, rfl⟩

theorem codeByte_error {s : State} {o : Nat} {e : Stop} (h : s.codeByte o = .error e) : ∃ r, e = .refuse r := by
  unfold State.codeByte at h
  split at h
  · next hl =>
    cases h
    exact codeLinear_error hl
  · split at h
    · cases h
      exact ⟨_, rfl⟩
    · split at h <;> cases h
      exact ⟨_, rfl⟩

/-- The fetch window is whole, or a refusal ended it. -/
theorem codeWindow_whole_or_refused (s : State) (n o : Nat) :
    (s.codeWindow n o).2 = none ∧ (s.codeWindow n o).1.length = n ∨ ∃ r, (s.codeWindow n o).2 = some (.refuse r) := by
  induction n generalizing o with
  | zero => exact .inl ⟨rfl, rfl⟩
  | succ n ih =>
    rw [State.codeWindow]
    cases hb : s.codeByte o with
    | error e =>
      obtain ⟨r, rfl⟩ := codeByte_error hb
      exact .inr ⟨r, rfl⟩
    | ok a => simpa using ih (o + 1)

/-- Bytes that run out are fewer than the window holds when it is whole, so a refusal ended it. -/
theorem truncatedFetch_refused {s : State} (h : decode s.ctx s.fetchBytes = .truncated) :
    ∃ r, s.truncatedFetch = .refused r := by
  have hshort := decode_eq_truncated h
  rw [State.fetchBytes, List.length_map] at hshort
  rcases codeWindow_whole_or_refused s maxLength s.pcOffset with ⟨-, hlen⟩ | ⟨r, hr⟩
  · have hwhole : s.fetchWindow.1.length = 15 := hlen
    omega
  · have hwindow : s.fetchWindow.2 = some (.refuse r) := hr
    exact ⟨r, by rw [State.truncatedFetch, hwindow]⟩

/-- Settles O13: of the decoder's three answers only an instruction can end the step in a fault. -/
theorem stepFaultsOnlyByExec : Obligations.StepFaultsOnlyByExec := by
  intro s f h
  cases hd : decode s.ctx s.fetchBytes with
  | ok i rest =>
    rw [step_of_decode_ok hd] at h
    split at h
    · cases h
    · exact ⟨i, rest, rfl, h⟩
  | truncated =>
    obtain ⟨r, hr⟩ := truncatedFetch_refused hd
    rw [step, hd] at h
    cases hr.symm.trans h
  | rejected x =>
    rw [step, hd] at h
    cases h

/-! ## What an instruction can be refused for -/

@[simp] theorem raise_ne_refuse {α : Type} (f : Fault) (r : Refusal) : (raise f : Check α) ≠ .error (.refuse r) := by
  simp [raise]

@[simp] theorem refuse_eq_refuse {α : Type} {r r' : Refusal} : (refuse r : Check α) = .error (.refuse r') ↔ r = r' := by
  simp [refuse]

/-- A test that raises an exception adds no refusal. -/
@[simp] theorem ite_raise_eq_refuse {α : Type} {c : Prop} [Decidable c] {f : Fault} {x : Check α} {r : Refusal} :
    (if c then raise f else x) = .error (.refuse r) ↔ ¬c ∧ x = .error (.refuse r) := by
  split <;> simp [*]

theorem checkEncoding_refused {s : State} {m : Mnem} {o : OpSize} {e : Enc} {r : Refusal}
    (h : s.checkEncoding m o e = .error (.refuse r)) :
    r = .vexEncoding ∧ s.vexClaims m e = true ∨ r = .notEncodable := by
  unfold State.checkEncoding at h
  split at h
  · next hv => exact .inl ⟨(refuse_eq_refuse.1 h).symm, hv⟩
  · obtain ⟨-, h⟩ := ite_raise_eq_refuse.1 h
    split at h
    · cases h
    · exact .inr (refuse_eq_refuse.1 h).symm

theorem checkEncoding_of_vexClaims {s : State} {m : Mnem} {e : Enc} (h : s.vexClaims m e = true) (o : OpSize) :
    s.checkEncoding m o e = refuse .vexEncoding := by
  rw [State.checkEncoding, if_pos h]

theorem checkSegment_ne_refuse (s : State) (r : MemRef) (n : Nat) (x : Refusal) :
    s.checkSegment r n ≠ .error (.refuse x) := by
  unfold State.checkSegment
  split
  · split <;> simp
  · simp

theorem checkOperand_refused {s : State} {r : MemRef} {o : OpSize} {x : Refusal}
    (h : s.checkOperand r o = .error (.refuse x)) : x = .operandWraps ∨ x = .sideEffectMemory := by
  rcases bind_eq_error.1 h with h | ⟨_, -, h⟩
  · exact absurd h (checkSegment_ne_refuse _ _ _ _)
  · split at h
    · exact .inl (refuse_eq_refuse.1 h).symm
    · unfold State.checkAccess at h
      split at h
      · next e he =>
        obtain ⟨-, code, la, rfl⟩ := translateAll_error he
        simp at h
      · obtain ⟨-, h⟩ := ite_raise_eq_refuse.1 h
        exact .inr (Stop.refuse.inj (refuseSideEffect_error h))

/-- A descriptor read refuses memory with side effects alone (R155). -/
theorem readDescriptor_refused {s : State} {sel : BitVec 16} {r : Refusal}
    (h : s.readDescriptor sel = .error (.refuse r)) : r = .sideEffectMemory := by
  rcases readDescriptor_error h with ⟨-, code, la, hf⟩ | hr
  · cases hf
  · exact Stop.refuse.inj hr

theorem loadDescriptor_refused {s : State} {sel : BitVec 16} {d : BitVec 64} {r : Refusal}
    (h : s.loadDescriptor sel d = .error (.refuse r)) : r = .accessedBitFault ∨ r = .sideEffectMemory :=
  (loadDescriptor_error h).imp Stop.refuse.inj Stop.refuse.inj

theorem loadSs_refused {s : State} {sel : BitVec 16} {r : Refusal} (h : s.loadSs sel = .error (.refuse r)) :
    r = .accessedBitFault ∨ r = .sideEffectMemory := by
  unfold State.loadSs at h
  split at h
  · next e he =>
    obtain ⟨-, h⟩ := ite_raise_eq_refuse.1 h
    cases h
    exact .inr (readDescriptor_refused he)
  · obtain ⟨-, h⟩ := ite_raise_eq_refuse.1 h
    obtain ⟨-, h⟩ := ite_raise_eq_refuse.1 h
    exact loadDescriptor_refused h

theorem loadData_refused {s : State} {sel : BitVec 16} {r : Refusal} (h : s.loadData sel = .error (.refuse r)) :
    r = .accessedBitFault ∨ r = .sideEffectMemory := by
  unfold State.loadData at h
  split at h
  · next e he =>
    cases h
    exact .inr (readDescriptor_refused he)
  · obtain ⟨-, h⟩ := ite_raise_eq_refuse.1 h
    obtain ⟨-, h⟩ := ite_raise_eq_refuse.1 h
    exact loadDescriptor_refused h

/-- Before the descriptor is read, a segment load raises and refuses nothing. -/
theorem newSegment_refused_after_tests {s : State} {g : Seg} {sel : BitVec 16} {r : Refusal}
    (h : s.newSegment g sel = .error (.refuse r)) :
    s.loadSs sel = .error (.refuse r) ∨ s.loadData sel = .error (.refuse r) := by
  unfold State.newSegment at h
  cases hm : s.mode with
  | real | v86 => simp [hm] at h
  | prot | compat =>
    simp only [hm] at h
    split at h
    · simp only [State.newSegmentSsProt, ite_raise_eq_refuse] at h
      obtain ⟨-, -, h⟩ := h
      exact .inl h
    split at h
    · cases h
    · simp only [State.newSegmentDataProt, ite_raise_eq_refuse] at h
      obtain ⟨-, h⟩ := h
      exact .inr h
  | long64 =>
    simp only [hm] at h
    split at h
    · split at h
      · simp [State.newSegmentSsLongNull] at h
      · simp only [State.newSegmentSsLong, ite_raise_eq_refuse] at h
        obtain ⟨-, -, h⟩ := h
        exact .inl h
    split at h
    · cases h
    · simp only [State.newSegmentFsGsLong, ite_raise_eq_refuse] at h
      obtain ⟨-, -, h⟩ := h
      exact .inr h

theorem newSegment_refused {s : State} {g : Seg} {sel : BitVec 16} {r : Refusal}
    (h : s.newSegment g sel = .error (.refuse r)) : r = .accessedBitFault ∨ r = .sideEffectMemory :=
  (newSegment_refused_after_tests h).elim loadSs_refused loadData_refused

theorem checkNextPc_refused {s : State} {len : Nat} {r : Refusal} (h : s.checkNextPc len = .error (.refuse r)) :
    r = .pcPastTop := by
  unfold State.checkNextPc at h
  split at h
  · exact (refuse_eq_refuse.1 h).symm
  · cases h

theorem operandRef_ne_refuse (s : State) (m : Mnem) (e : Enc) (r : Refusal) :
    s.operandRef m e ≠ .error (.refuse r) := by
  unfold State.operandRef
  cases s.memRef e (e.length m) <;> simp

/-- Everything an instruction can be refused for, check by check. -/
theorem exec_refused {i : Instr} {s : State} {r : Refusal} (h : exec i s = .refused r) :
    r = .vexEncoding ∧ s.vexClaims i.mnem i.enc = true ∨
      r ∈ [.notEncodable, .operandWraps, .sideEffectMemory, .accessedBitFault, .pcPastTop] := by
  rw [exec_eq, finish_eq_refused, State.loadFarPointer] at h
  rcases bind_eq_error.1 h with h | ⟨_, -, h⟩
  · exact (checkEncoding_refused h).imp id (by simp +contextual)
  refine .inr ?_
  rcases bind_eq_error.1 h with h | ⟨_, -, h⟩
  · exact absurd h (operandRef_ne_refuse _ _ _ _)
  rcases bind_eq_error.1 h with h | ⟨_, -, h⟩
  · rcases checkOperand_refused h with rfl | rfl <;> decide
  rcases bind_eq_error.1 h with h | ⟨_, -, h⟩
  · rcases newSegment_refused h with rfl | rfl <;> decide
  rcases bind_eq_error.1 h with h | ⟨_, -, h⟩
  · rw [checkNextPc_refused h]
    decide
  · cases h

/-- The bytes of a vector instruction are refused as that, and nothing else is (R190). -/
theorem exec_refused_vexEncoding_iff {i : Instr} {s : State} :
    exec i s = .refused .vexEncoding ↔ s.vexClaims i.mnem i.enc = true := by
  constructor
  · intro h
    rcases exec_refused h with ⟨-, hv⟩ | hmem
    · exact hv
    · exact absurd hmem (by decide)
  · intro h
    rw [exec_eq, State.loadFarPointer, checkEncoding_of_vexClaims h]
    rfl

theorem isLdsLes_iff {m : Mnem} : m.isLdsLes = true ↔ m = .lds ∨ m = .les := by cases m <;> decide

theorem vexClaims_iff {s : State} {m : Mnem} {e : Enc} : s.vexClaims m e = true ↔
    s.cfg.vexCapable = true ∧ (m = .lds ∨ m = .les) ∧ (s.mode = .long64 ∨ e.rm.isRegister = true) := by
  simp [State.vexClaims, isLdsLes_iff, and_assoc]

/-- Settles O15: the three clauses are read off the test for the bytes of a vector instruction. -/
theorem vexCapableRefusesLdsLes : Obligations.VexCapableRefusesLdsLes := by
  intro i s
  simp only [ne_eq, exec_refused_vexEncoding_iff, vexClaims_iff]
  refine ⟨fun hv hm hr => ⟨hv, hm, hr⟩, ?_, fun hm hr => by simp [hm, hr]⟩
  rintro (hv | ⟨hlds, hles⟩)
  · simp [hv]
  · simp [hlds, hles]

/-! ## The addressing forms at `ASZ` 16 -/

/-- The forms at `ASZ` 16 that the bytes after ModRM name (R178). -/
theorem takeOperand_a16_rows (rm : BitVec 3) (b0 b1 : Byte) (bs : List Byte) :
    (rm ≠ 6#3 → takeOperand .a16 0#2 rm bs = some (.mem16 (.based (base16Of rm) .none), bs)) ∧
    takeOperand .a16 0#2 6#3 (b0 :: b1 :: bs) = some (.mem16 (.abs (b1 ++ b0)), bs) ∧
    takeOperand .a16 1#2 rm (b0 :: bs) = some (.mem16 (.based (base16Of rm) (.d8 b0)), bs) ∧
    takeOperand .a16 2#2 rm (b0 :: b1 :: bs) = some (.mem16 (.based (base16Of rm) (.d16 (b1 ++ b0))), bs) := by
  refine ⟨fun hrm => ?_, rfl, ?_, ?_⟩
  · simp [takeOperand, takeMem16, takeDisp16, hrm]
  · simp [takeOperand, takeMem16, takeDisp16, get8]
  · simp [takeOperand, takeMem16, takeDisp16, get16]

theorem disp16_value {d : Disp16} {v : BitVec 16}
    (h : d = .none ∧ v = 0#16 ∨ (∃ x, d = .d8 x ∧ v = x.signExtend 16) ∨ d = .d16 v) : d.value = v := by
  rcases h with ⟨rfl, rfl⟩ | ⟨x, rfl, rfl⟩ | rfl <;> rfl

theorem memRef_based16 (s : State) (p : Pfx) (reg : BitVec 3) (len : Nat) (b : Base16) {d : Disp16} {v : BitVec 16}
    (hv : d.value = v) :
    s.memRef { pfx := p, reg := reg, rm := .mem16 (.based b d) } len =
      some { ea := (s.sum16 b + v).setWidth 64, asz := .a16, ssDefault := b.usesBp, override := p.override } := by
  rw [← hv]
  rfl

/-- Settles O16: each row is the register sum of its form. -/
theorem sixteenBitAddressTable : Obligations.SixteenBitAddressTable := by
  intro s p reg len d v hd
  have href (b : Base16) := memRef_based16 s p reg len b (disp16_value hd)
  exact ⟨href .bxSi, href .bxDi, href .bpSi, href .bpDi, href .si, href .di, href .bp, href .bx, rfl,
    takeOperand_a16_rows, rfl, rfl, rfl, rfl, rfl, rfl, rfl, rfl⟩

/-! ## The addressing forms at `ASZ` 32 and 64 -/

/-- The forms with no SIB byte that the bytes after ModRM name (R179). -/
theorem takeOperand_a32_rows (rm : BitVec 3) (b0 b1 b2 b3 : Byte) (bs : List Byte) :
    (rm ≠ 4#3 → rm ≠ 5#3 → takeOperand .a32 0#2 rm bs = some (.mem32 (.base rm .none), bs)) ∧
    takeOperand .a32 0#2 5#3 (b0 :: b1 :: b2 :: b3 :: bs) = some (.mem32 (.disp32 (b3 ++ b2 ++ b1 ++ b0)), bs) ∧
    (rm ≠ 4#3 → takeOperand .a32 1#2 rm (b0 :: bs) = some (.mem32 (.base rm (.d8 b0)), bs)) ∧
    (rm ≠ 4#3 → takeOperand .a32 2#2 rm (b0 :: b1 :: b2 :: b3 :: bs) =
      some (.mem32 (.base rm (.d32 (b3 ++ b2 ++ b1 ++ b0))), bs)) := by
  refine ⟨fun h4 h5 => ?_, rfl, fun h4 => ?_, fun h4 => ?_⟩
  · simp [takeOperand, takeMem32, takeDisp32, h4, h5]
  · simp [takeOperand, takeMem32, takeDisp32, get8, h4]
  · simp [takeOperand, takeMem32, takeDisp32, get32, h4]

/-- The forms that a SIB byte and the bytes after it name (R179). -/
theorem takeOperand_sib_rows (sc : BitVec 2) (ix b : BitVec 3) (b0 b1 b2 b3 : Byte) (bs : List Byte) :
    (b ≠ 5#3 → takeOperand .a32 0#2 4#3 (byte233 sc ix b :: bs) = some (.mem32 (.sib sc ix b .none), bs)) ∧
    takeOperand .a32 0#2 4#3 (byte233 sc ix 5#3 :: b0 :: b1 :: b2 :: b3 :: bs) =
      some (.mem32 (.sibNoBase sc ix (b3 ++ b2 ++ b1 ++ b0)), bs) ∧
    takeOperand .a32 1#2 4#3 (byte233 sc ix b :: b0 :: bs) = some (.mem32 (.sib sc ix b (.d8 b0)), bs) ∧
    takeOperand .a32 2#2 4#3 (byte233 sc ix b :: b0 :: b1 :: b2 :: b3 :: bs) =
      some (.mem32 (.sib sc ix b (.d32 (b3 ++ b2 ++ b1 ++ b0))), bs) := by
  refine ⟨fun h5 => ?_, ?_, ?_, ?_⟩
  · simp [takeOperand, takeMem32, takeSib, takeDisp32, h5]
  · simp [takeOperand, takeMem32, takeSib, get32]
  · simp [takeOperand, takeMem32, takeSib, takeDisp32, get8]
  · simp [takeOperand, takeMem32, takeSib, takeDisp32, get32]

theorem indexTerm_of_ne {i : BitVec 4} (h : i ≠ 4#4) (s : State) (a : AddrSize) (sc : BitVec 2) :
    s.indexTerm a sc i = s.addrReg a i * (1#64 <<< sc.toNat) := by
  rw [State.indexTerm, if_neg h, BitVec.shiftLeft_eq_mul_twoPow, BitVec.twoPow_eq]

theorem indexTerm_of_eq {i : BitVec 4} (h : i = 4#4) (s : State) (a : AddrSize) (sc : BitVec 2) :
    s.indexTerm a sc i = 0#64 := by
  rw [State.indexTerm, if_pos h]

/-! ### Sums modulo 2^32 -/

/-- A sign-extended field cut again is the field sign-extended less far. -/
theorem setWidth_signExtend {n : Nat} (x : BitVec n) : (x.signExtend 64).setWidth 32 = x.signExtend 32 := by
  ext i hi
  simp [BitVec.getElem_signExtend, show i < 64 by omega]

theorem setWidth_disp32_value {d : Disp32} {v : BitVec 32}
    (h : d = .none ∧ v = 0#32 ∨ (∃ x, d = .d8 x ∧ v = x.signExtend 32) ∨ d = .d32 v) : d.value.setWidth 32 = v := by
  rcases h with ⟨rfl, rfl⟩ | ⟨x, rfl, rfl⟩ | rfl
  · rfl
  · exact setWidth_signExtend x
  · exact (setWidth_signExtend v).trans (BitVec.signExtend_eq v)

theorem setWidth_addrReg (s : State) (i : BitVec 4) : (s.addrReg .a32 i).setWidth 32 = s.x32 i := by
  simp [State.addrReg]

theorem setWidth_indexTerm_of_ne {i : BitVec 4} (h : i ≠ 4#4) (s : State) (sc : BitVec 2) :
    (s.indexTerm .a32 sc i).setWidth 32 = s.x32 i * (1#32 <<< sc.toNat) := by
  rw [indexTerm_of_ne h, BitVec.setWidth_mul _ _ (by decide), setWidth_addrReg,
    BitVec.setWidth_shiftLeft_of_le (by decide)]
  rfl

/-- At `ASZ` 32 the effective address is the low 32 bits of the sum (R179). -/
theorem memRef_a32 {s : State} {p : Pfx} (ha : addrSize s.ctx p = .a32) {m : Mem32} {len : Nat} {ea : BitVec 32}
    {ss : Bool} (hsum : (s.sum32 p .a32 (s.pc + BitVec.ofNat 64 len) m).setWidth 32 = ea) (hss : m.ssDefault p = ss)
    (reg : BitVec 3) :
    s.memRef { pfx := p, reg := reg, rm := .mem32 m } len =
      some { ea := ea.setWidth 64, asz := .a32, ssDefault := ss, override := p.override } := by
  simp only [State.memRef, ha, AddrSize.cut, hsum, hss]

/-! ### Register numbers without REX -/

theorem extReg_false (n : BitVec 3) : extReg false n = n.setWidth 4 := by revert n; decide

theorem setWidth_ne_four {n : BitVec 3} (h : n ≠ 4#3) : n.setWidth 4 ≠ 4#4 := by revert n; decide

theorem setWidth_eq_four_or_five (n : BitVec 3) :
    (n.setWidth 4 == 4#4 || n.setWidth 4 == 5#4) = (n == 4#3 || n == 5#3) := by revert n; decide

/-- Settles O17: the low 32 bits of each sum are the sum of the low 32 bits of its terms. -/
theorem thirtyTwoBitAddressForms : Obligations.ThirtyTwoBitAddressForms := by
  intro s p reg len d v hm hrex ha hd ref
  have hdisp := setWidth_disp32_value hd
  have hv : (v.signExtend 64).setWidth 32 = v := (setWidth_signExtend v).trans (BitVec.signExtend_eq v)
  have hbase (n : BitVec 3) : extReg p.rexB n = n.setWidth 4 := by rw [Pfx.rexB, hrex]; exact extReg_false n
  have hindex (n : BitVec 3) : extReg p.rexX n = n.setWidth 4 := by rw [Pfx.rexX, hrex]; exact extReg_false n
  have hadd (x y : BitVec 64) := BitVec.setWidth_add x y (show 32 ≤ 64 by decide)
  have hnone (sc : BitVec 2) : s.indexTerm .a32 sc (BitVec.setWidth 4 4#3) = 0#64 := indexTerm_of_eq rfl s .a32 sc
  refine ⟨fun rm => memRef_a32 ha ?_ ?_ reg, memRef_a32 ha ?_ rfl reg,
    fun sc ix b hix => ⟨memRef_a32 ha ?_ ?_ reg, memRef_a32 ha ?_ rfl reg⟩,
    fun sc b => memRef_a32 ha ?_ ?_ reg, fun sc => memRef_a32 ha ?_ rfl reg, takeOperand_a32_rows,
    takeOperand_sib_rows⟩
  · rw [State.sum32, hbase, hadd, setWidth_addrReg, hdisp]
  · rw [Mem32.ssDefault, hbase, setWidth_eq_four_or_five]
  · rw [State.sum32, if_neg hm, hv]
  · rw [State.sum32, hbase, hindex, hadd, hadd, setWidth_addrReg,
      setWidth_indexTerm_of_ne (setWidth_ne_four hix), hdisp]
  · rw [Mem32.ssDefault, hbase, setWidth_eq_four_or_five]
  · rw [State.sum32, hindex, hadd, setWidth_indexTerm_of_ne (setWidth_ne_four hix), hv]
  · rw [State.sum32, hbase, hindex, hnone, BitVec.add_zero, hadd, setWidth_addrReg, hdisp]
  · rw [Mem32.ssDefault, hbase, setWidth_eq_four_or_five]
  · rw [State.sum32, hindex, hnone, BitVec.zero_add, hv]

/-! ### In `Long64` -/

theorem disp32_value {d : Disp32} {v : BitVec 64}
    (h : d = .none ∧ v = 0#64 ∨ (∃ y, d = .d8 y ∧ v = y.signExtend 64) ∨ (∃ y, d = .d32 y ∧ v = y.signExtend 64)) :
    d.value = v := by
  rcases h with ⟨rfl, rfl⟩ | ⟨y, rfl, rfl⟩ | ⟨y, rfl, rfl⟩ <;> rfl

section rex

variable {p : Pfx} {x : Rex}
  (h : p.rex = some x ∨ p.rex = none ∧ x = { w := false, r := false, x := false, b := false })
include h

theorem rexB_eq : p.rexB = x.b := by
  rcases h with h | ⟨h, rfl⟩ <;> rw [Pfx.rexB, h] <;> rfl

theorem rexX_eq : p.rexX = x.x := by
  rcases h with h | ⟨h, rfl⟩ <;> rw [Pfx.rexX, h] <;> rfl

end rex

/-- In `Long64` the sum is cut to 32 bits by `67` and by nothing else (R180). -/
theorem memRef_long {s : State} {p : Pfx} (hm : s.mode = .long64) {m : Mem32} {len : Nat} {sum : BitVec 64}
    {ss : Bool} (hsum : s.sum32 p (addrSize s.ctx p) (s.pc + BitVec.ofNat 64 len) m = sum) (hss : m.ssDefault p = ss)
    (reg : BitVec 3) :
    s.memRef { pfx := p, reg := reg, rm := .mem32 m } len =
      some { ea := if p.has67 then (sum.setWidth 32).setWidth 64 else sum
             asz := if p.has67 then .a32 else .a64
             ssDefault := ss
             override := p.override } := by
  subst hsum hss
  simp only [State.memRef, addrSize_long (c := s.ctx) hm p]
  cases p.has67 <;> rfl

/-- In `Long64` an address takes its registers whole, or with `67` their low 32 bits (R180). -/
theorem addrReg_long {s : State} (hm : s.mode = .long64) (p : Pfx) (n : BitVec 4) :
    s.addrReg (addrSize s.ctx p) n = if p.has67 then (s.x32 n).setWidth 64 else s.x64 n := by
  rw [addrSize_long (c := s.ctx) hm p]
  cases p.has67 <;> rfl

/-- Settles O18: the terms of each sum, with the REX bits in the register numbers. -/
theorem longModeAddressForms : Obligations.LongModeAddressForms := by
  intro s p x reg len d v w hm hrex hd reg64 ref base4 index4
  have hdisp := disp32_value hd
  have hbase (n : BitVec 3) : extReg p.rexB n = base4 n := by rw [rexB_eq hrex]; rfl
  have hindex (n : BitVec 3) : extReg p.rexX n = index4 n := by rw [rexX_eq hrex]; rfl
  have hreg (n : BitVec 4) : s.addrReg (addrSize s.ctx p) n = reg64 n := addrReg_long hm p n
  refine ⟨fun rm => memRef_long hm ?_ ?_ reg, memRef_long hm ?_ rfl reg,
    fun sc ix b hix => ⟨memRef_long hm ?_ ?_ reg, memRef_long hm ?_ rfl reg⟩,
    fun sc ix b hix => ⟨memRef_long hm ?_ ?_ reg, memRef_long hm ?_ rfl reg⟩, ?_, fun md rm bs => rfl⟩
  · rw [State.sum32, hbase, hreg, hdisp]
  · rw [Mem32.ssDefault, hbase]
  · rw [State.sum32, if_pos hm]
  · rw [State.sum32, hbase, hindex, indexTerm_of_ne hix, hreg, hreg, hdisp]
  · rw [Mem32.ssDefault, hbase]
  · rw [State.sum32, hindex, indexTerm_of_ne hix, hreg]
  · rw [State.sum32, hbase, hindex, indexTerm_of_eq hix, BitVec.add_zero, hreg, hdisp]
  · rw [Mem32.ssDefault, hbase]
  · rw [State.sum32, hindex, indexTerm_of_eq hix, BitVec.zero_add]
  · rw [addrSize_long (c := s.ctx) hm p]
    split <;> decide

end Sys2Proof.Machine
end

section
/-! PROOFS. The statements of spec/40_load_far_pointer.md: the encoding check, what each load of a segment register
answers in each mode, where the offset and the selector go, `pc`, and that the tables do not enter a step in
real-address and virtual-8086 mode, each after the lemmas it needs. -/

namespace Sys2Proof.Machine

/-! ## The load by mode, segment register and selector -/

theorem seg_eq_ss_iff {m : Mnem} : m.seg = .ss ↔ m = .lss := by cases m <;> decide

/-- A selector above 3 is not NULL (R126). -/
theorem isNull_eq_false {sel : BitVec 16} (h : 3 < sel.toNat) : isNull sel = false := by
  rw [← Bool.not_eq_true, isNull_iff]
  omega

section newSegment

variable {s : State} {g : Seg} {sel : BitVec 16}

theorem newSegment_of_real_v86 (hm : s.mode = .real ∨ s.mode = .v86) :
    s.newSegment g sel = .ok (s.newSegmentReal g sel) := by
  rcases hm with hm | hm <;> simp only [State.newSegment, hm]

theorem newSegment_of_null (hc : s.checksSegments) (hg : g ≠ .ss) (hnull : isNull sel = true) :
    s.newSegment g sel = .ok (s.newSegmentNull sel) := by
  rcases hc with hm | hm | hm <;> simp only [State.newSegment, hm, if_neg hg, if_pos hnull]

theorem newSegment_ss_of_prot (hm : s.mode = .prot ∨ s.mode = .compat) :
    s.newSegment .ss sel = s.newSegmentSsProt sel := by
  rcases hm with hm | hm <;> simp only [State.newSegment, hm, if_true]

theorem newSegment_data_of_prot (hm : s.mode = .prot ∨ s.mode = .compat) (hg : g ≠ .ss) (hnull : isNull sel = false) :
    s.newSegment g sel = s.newSegmentDataProt sel := by
  rcases hm with hm | hm <;> simp [State.newSegment, hm, hg, hnull]

theorem newSegment_fsGs_of_long (hm : s.mode = .long64) (hg : g ≠ .ss) (hnull : isNull sel = false) :
    s.newSegment g sel = s.newSegmentFsGsLong sel := by
  simp [State.newSegment, hm, hg, hnull]

theorem newSegment_ss_of_long (hm : s.mode = .long64) (hnull : isNull sel = false) :
    s.newSegment .ss sel = s.newSegmentSsLong sel := by
  simp [State.newSegment, hm, hnull]

theorem newSegment_ss_of_long_null (hm : s.mode = .long64) (hnull : isNull sel = true) :
    s.newSegment .ss sel = s.newSegmentSsLongNull sel := by
  simp only [State.newSegment, hm, hnull, if_true]

end newSegment

/-! ## The tests on the descriptor -/

section descriptor

variable {s : State} {sel : BitVec 16}

/-- A page fault on the entry ends the descriptor read (R158). -/
theorem readDescriptor_of_pageFault {e : Stop}
    (h : s.translateAll .read .supervisor (s.descBytes sel) = .error e) : s.readDescriptor sel = .error e := by
  rw [State.readDescriptor, h]
  rfl

variable {d : BitVec 64}

/-- The load of descriptor `d`, with the accessed bit to set at `u`. -/
def descriptorLoad (sel : BitVec 16) (d : BitVec 64) (u : Option Nat) : SegLoad :=
  { reg := { sel := sel, valid := true, hid := unpack (withAccessed d) }, accessed := u, drawn := false }

theorem loadDescriptor_of_update {u : Option Nat} (h : AccessedUpdate s sel d u) :
    s.loadDescriptor sel d = .ok (descriptorLoad sel d u) :=
  loadDescriptor_eq_ok.2 ⟨rfl, h, rfl⟩

/-- The privilege test passes (R224, C2). -/
theorem privilegeFails_eq_false : s.privilegeFails sel d = false ↔
    (isData d = true ∨ isNonconformingCode d = true → rpl sel ≤ descDpl d ∧ s.cpl ≤ descDpl d) := by
  rw [State.privilegeFails, Bool.and_eq_false_imp]
  simp only [Bool.or_eq_true, Bool.or_eq_false_iff, decide_eq_false_iff_not, BitVec.not_lt]

/-! ### SS (R223, R227) -/

/-- With the RPL that CPL asks for, the page fault is reported. -/
theorem loadSs_of_pageFault (hrpl : rpl sel = s.cpl) {f : Fault} (h : s.readDescriptor sel = .error (.fault f)) :
    s.loadSs sel = raise f := by
  simp [State.loadSs, h, hrpl, raise]

/-- Whatever the RPL, either its test or the page fault is reported (D16). -/
theorem loadSs_gp_or_pageFault {code : BitVec 32} {la : BitVec 64}
    (h : s.readDescriptor sel = .error (.fault (.pf code la))) :
    s.loadSs sel = raise (.gp (some (selectorCode sel))) ∨ s.loadSs sel = raise (.pf code la) := by
  simp only [State.loadSs, h]
  split
  · exact .inl rfl
  · exact .inr rfl

variable (hd : DescriptorRead s sel d)
include hd

theorem loadSs_rejected (h : rpl sel ≠ s.cpl ∨ isWritableData d = false ∨ descDpl d ≠ s.cpl) :
    s.loadSs sel = raise (.gp (some (selectorCode sel))) := by
  have htest : (rpl sel != s.cpl || !isWritableData d || descDpl d != s.cpl) = true := by
    simpa only [Bool.or_eq_true, bne_iff_ne, Bool.not_eq_true', or_assoc] using h
  simp only [State.loadSs, readDescriptor_eq_ok.2 hd, if_pos htest]

theorem loadSs_notPresent (hrpl : rpl sel = s.cpl) (hwritable : isWritableData d = true) (hdpl : descDpl d = s.cpl)
    (hpresent : isPresent d = false) : s.loadSs sel = raise (.ss (some (selectorCode sel))) := by
  simp [State.loadSs, readDescriptor_eq_ok.2 hd, hrpl, hwritable, hdpl, hpresent]

/-! ### DS, ES, FS and GS (R224, R225) -/

theorem loadData_rejected
    (h : ¬ (isData d = true ∨ isReadableCode d = true) ∨ s.privilegeFails sel d = true) :
    s.loadData sel = raise (.gp (some (selectorCode sel))) := by
  have htest : (!(isData d || isReadableCode d) || s.privilegeFails sel d) = true := by
    simpa only [Bool.or_eq_true, Bool.not_eq_true', ← Bool.not_eq_true] using h
  simp only [State.loadData, readDescriptor_eq_ok.2 hd, if_pos htest]

theorem loadData_notPresent (htype : isData d = true ∨ isReadableCode d = true)
    (hpriv : s.privilegeFails sel d = false) (hpresent : isPresent d = false) :
    s.loadData sel = raise (.np (selectorCode sel)) := by
  have hkind : (isData d || isReadableCode d) = true := Bool.or_eq_true_iff.2 htype
  simp [State.loadData, readDescriptor_eq_ok.2 hd, hkind, hpriv, hpresent]

end descriptor

/-! ## The instruction, once the load is known -/

section exec

variable {i : Instr} {s : State} {r : MemRef} {as : List (BitVec 64)} (h : Ready i s r as)
include h

/-- A load that answers, with `pc + L` in range, completes the instruction with the effect of its form. -/
theorem exec_loaded {n : SegLoad} (hn : s.newSegment i.mnem.seg (s.readSelector i.osz as) = .ok n)
    (hp : NextPcInRange s i.length) (hw : s.mem.wf = true ∨ n.accessed = none) :
    ∃ t, exec i s = .next t ∧ Loaded i s t as n.reg n.accessed :=
  ⟨_, exec_next_of_newSegment h hn hp, loaded_commit hw⟩

/-- What an instruction does once only the tests of `loadSs` are left, test by test. -/
theorem exec_of_loadSs (hw : s.mem.wf = true)
    (hn : s.newSegment i.mnem.seg (s.readSelector i.osz as) = s.loadSs (s.readSelector i.osz as)) :
    let sel := s.readSelector i.osz as
    (∀ code la, s.translateAll .read .supervisor (s.descBytes sel) = .error (.fault (.pf code la)) →
      (rpl sel = s.cpl → exec i s = .fault (.pf code la)) ∧
      (rpl sel ≠ s.cpl → exec i s = .fault (.gp (some (selectorCode sel))) ∨ exec i s = .fault (.pf code la))) ∧
    (∀ d, DescriptorRead s sel d →
      ((rpl sel ≠ s.cpl ∨ isWritableData d = false ∨ descDpl d ≠ s.cpl) →
        exec i s = .fault (.gp (some (selectorCode sel)))) ∧
      (rpl sel = s.cpl → isWritableData d = true → descDpl d = s.cpl →
        (isPresent d = false → exec i s = .fault (.ss (some (selectorCode sel)))) ∧
        (isPresent d = true → ∀ u, AccessedUpdate s sel d u → NextPcInRange s i.length →
          ∃ t, exec i s = .next t ∧
            Loaded i s t as { sel := sel, valid := true, hid := unpack (withAccessed d) } u))) := by
  intro sel
  have hfault {f : Fault} (hf : s.loadSs sel = raise f) : exec i s = .fault f :=
    exec_fault_of_newSegment h (hn.trans hf)
  constructor
  · intro code la hpf
    have hread := readDescriptor_of_pageFault hpf
    exact ⟨fun hrpl => hfault (loadSs_of_pageFault hrpl hread),
      fun _ => (loadSs_gp_or_pageFault hread).imp hfault hfault⟩
  · intro d hd
    refine ⟨fun hreject => hfault (loadSs_rejected hd hreject), fun hrpl hwritable hdpl => ⟨?_, ?_⟩⟩
    · exact fun hpresent => hfault (loadSs_notPresent hd hrpl hwritable hdpl hpresent)
    · intro hpresent u hu hp
      have hload := loadSs_eq_ok.2 ⟨d, hd, hrpl, hwritable, hdpl, hpresent, loadDescriptor_of_update hu⟩
      exact exec_loaded h (hn.trans hload) hp (.inl hw)

/-- What an instruction does once only the tests of `loadData` are left, test by test. -/
theorem exec_of_loadData (hw : s.mem.wf = true)
    (hn : s.newSegment i.mnem.seg (s.readSelector i.osz as) = s.loadData (s.readSelector i.osz as)) :
    let sel := s.readSelector i.osz as
    (∀ code la, s.translateAll .read .supervisor (s.descBytes sel) = .error (.fault (.pf code la)) →
      exec i s = .fault (.pf code la)) ∧
    (∀ d, DescriptorRead s sel d →
      let typeOk := isData d = true ∨ isReadableCode d = true
      let privilegeOk := isData d = true ∨ isNonconformingCode d = true → rpl sel ≤ descDpl d ∧ s.cpl ≤ descDpl d
      (¬typeOk ∨ ¬privilegeOk → exec i s = .fault (.gp (some (selectorCode sel)))) ∧
      (typeOk → privilegeOk →
        (isPresent d = false → exec i s = .fault (.np (selectorCode sel))) ∧
        (isPresent d = true → ∀ u, AccessedUpdate s sel d u → NextPcInRange s i.length →
          ∃ t, exec i s = .next t ∧
            Loaded i s t as { sel := sel, valid := true, hid := unpack (withAccessed d) } u))) := by
  intro sel
  have hfault {f : Fault} (hf : s.loadData sel = raise f) : exec i s = .fault f :=
    exec_fault_of_newSegment h (hn.trans hf)
  constructor
  · intro code la hpf
    apply hfault
    rw [State.loadData, readDescriptor_of_pageFault hpf]
    rfl
  · intro d hd typeOk privilegeOk
    have hpriv : s.privilegeFails sel d = false ↔ privilegeOk := privilegeFails_eq_false
    refine ⟨fun hreject => hfault (loadData_rejected hd ?_), fun htype hprivilege => ⟨?_, ?_⟩⟩
    · rwa [← hpriv, Bool.not_eq_false] at hreject
    · exact fun hpresent => hfault (loadData_notPresent hd htype (hpriv.2 hprivilege) hpresent)
    · intro hpresent u hu hp
      have hload := loadData_eq_ok.2 ⟨d, hd, htype, hpriv.2 hprivilege, hpresent, loadDescriptor_of_update hu⟩
      exact exec_loaded h (hn.trans hload) hp (.inl hw)

end exec

/-! ## Real-address and virtual-8086 mode -/

theorem setWidth_shiftLeft_four (sel : BitVec 16) : sel.setWidth 64 <<< 4 = BitVec.ofNat 64 (16 * sel.toNat) := by
  bv_omega

/-- Settles O25: the load answers with no test, and the frame is that of every form. -/
theorem realAndV86LoadCompletes : Obligations.RealAndV86LoadCompletes := by
  intro i s r as h hp hm
  obtain ⟨t, ht, hloaded⟩ := exec_loaded h (newSegment_of_real_v86 hm) hp (.inr rfl)
  rw [State.newSegmentReal, setWidth_shiftLeft_four] at hloaded
  exact ⟨t, ht, hloaded, everyFormLeavesTheRest i s t ht⟩

/-! ## NULL selectors -/

/-- Settles O26: a NULL selector is loaded before any test is made. -/
theorem nullDataSelectorLoads : Obligations.NullDataSelectorLoads := by
  intro i s r as h hp hc hm hnull
  have hn := newSegment_of_null hc (mt seg_eq_ss_iff.1 hm) ((isNull_iff _).2 hnull)
  obtain ⟨t, ht, hloaded⟩ := exec_loaded h hn hp (.inr rfl)
  exact ⟨t, _, ht, hloaded⟩

/-- Settles O31: the two clauses are the branches of the test for a permitted NULL load. -/
theorem long64NullSsLoad : Obligations.Long64NullSsLoad := by
  intro i s r as h hm hlss hnull sel
  have hn : s.newSegment i.mnem.seg sel = s.newSegmentSsLongNull sel := by
    rw [seg_eq_ss_iff.2 hlss]
    exact newSegment_ss_of_long_null hm ((isNull_iff _).2 hnull)
  constructor
  · intro hforbidden
    have htest : (s.cpl == 3#2 || rpl sel != s.cpl) = true := by simpa using hforbidden
    rw [State.newSegmentSsLongNull, if_pos htest] at hn
    exact exec_fault_of_newSegment h hn
  · intro hcpl hrpl hp
    have htest : ¬ (s.cpl == 3#2 || rpl sel != s.cpl) = true := by simp [hcpl, hrpl]
    rw [State.newSegmentSsLongNull, if_neg htest] at hn
    obtain ⟨t, ht, hloaded⟩ := exec_loaded h hn hp (.inr rfl)
    exact ⟨t, _, ht, hloaded, (everyFormLeavesTheRest i s t ht).cpl⟩

/-! ## Selectors that name a descriptor -/

/-- Settles O27: NULL, the table limit, then the tests on the descriptor. -/
theorem protectedSsLoad : Obligations.ProtectedSsLoad := by
  intro i s r as h hw hm hlss sel gpSel access
  have hn : s.newSegment i.mnem.seg sel = s.newSegmentSsProt sel := by
    rw [seg_eq_ss_iff.2 hlss]
    exact newSegment_ss_of_prot hm
  refine ⟨fun hnull => ?_, fun hsel hout => ?_, fun hsel hin => ?_⟩
  · have hreject : s.newSegmentSsProt sel = raise (.gp (some 0#16)) := by
      rw [State.newSegmentSsProt, if_pos ((isNull_iff _).2 hnull)]
    exact exec_fault_of_newSegment h (hn.trans hreject)
  · have hreject : s.newSegmentSsProt sel = raise (.gp (some (selectorCode sel))) := by
      simp [State.newSegmentSsProt, isNull_eq_false hsel, hout]
    exact exec_fault_of_newSegment h (hn.trans hreject)
  · have hpass : s.newSegmentSsProt sel = s.loadSs sel := by
      simp [State.newSegmentSsProt, isNull_eq_false hsel, hin]
    exact exec_of_loadSs h hw (hn.trans hpass)

/-- Settles O28: the table limit, then the tests on the descriptor. -/
theorem protectedDataSegmentLoad : Obligations.ProtectedDataSegmentLoad := by
  intro i s r as h hw hm hne hsel sel gpSel
  have hn : s.newSegment i.mnem.seg sel = s.newSegmentDataProt sel :=
    newSegment_data_of_prot hm (mt seg_eq_ss_iff.1 hne) (isNull_eq_false hsel)
  constructor
  · intro hout
    have hreject : s.newSegmentDataProt sel = raise (.gp (some (selectorCode sel))) := by
      simp [State.newSegmentDataProt, hout]
    exact exec_fault_of_newSegment h (hn.trans hreject)
  · intro hin
    have hpass : s.newSegmentDataProt sel = s.loadData sel := by simp [State.newSegmentDataProt, hin]
    exact exec_of_loadData h hw (hn.trans hpass)

section longEntry

variable {s : State} {sel : BitVec 16}

theorem descCanonical_iff : s.descCanonical sel = true ↔
    s.canonical (s.descAddr sel) = true ∧ s.canonical (s.descAddr sel + 7#64) = true :=
  Bool.and_eq_true_iff

/-- In 64-bit mode an entry outside the table or at a non-canonical address is rejected, in either order of the two
tests (R159, R225, R227). -/
theorem newSegmentLong_rejected (h : s.inTable sel = false ∨ s.descCanonical sel = false) :
    s.newSegmentFsGsLong sel = raise (.gp (some (selectorCode sel))) ∧
    s.newSegmentSsLong sel = raise (.gp (some (selectorCode sel))) := by
  rcases h with h | h <;> simp [State.newSegmentFsGsLong, State.newSegmentSsLong, h]

/-- An entry that passes both tests is loaded by what its descriptor says. -/
theorem newSegmentLong_passed (hin : s.inTable sel = true) (hcanonical : s.descCanonical sel = true) :
    s.newSegmentFsGsLong sel = s.loadData sel ∧ s.newSegmentSsLong sel = s.loadSs sel := by
  simp [State.newSegmentFsGsLong, State.newSegmentSsLong, hin, hcanonical]

end longEntry

/-- Settles O29: the two tests on the entry's address, then those on the descriptor. -/
theorem long64FsGsLoad : Obligations.Long64FsGsLoad := by
  intro i s r as h hw hm hmnem hsel sel gpSel canonicalEntry
  have hne : i.mnem ≠ .lss := by rcases hmnem with hmnem | hmnem <;> rw [hmnem] <;> nofun
  have hn : s.newSegment i.mnem.seg sel = s.newSegmentFsGsLong sel :=
    newSegment_fsGs_of_long hm (mt seg_eq_ss_iff.1 hne) (isNull_eq_false hsel)
  have hentry : s.descCanonical sel = true ↔ canonicalEntry := descCanonical_iff
  constructor
  · intro hreject
    rw [← hentry, Bool.not_eq_true] at hreject
    exact exec_fault_of_newSegment h (hn.trans (newSegmentLong_rejected hreject).1)
  · intro hin hcanonical
    exact exec_of_loadData h hw (hn.trans (newSegmentLong_passed hin (hentry.2 hcanonical)).1)

/-- Settles O30: the two tests on the entry's address, then those on the descriptor. -/
theorem long64SsLoad : Obligations.Long64SsLoad := by
  intro i s r as h hw hm hlss hsel sel gpSel canonicalEntry
  have hn : s.newSegment i.mnem.seg sel = s.newSegmentSsLong sel := by
    rw [seg_eq_ss_iff.2 hlss]
    exact newSegment_ss_of_long hm (isNull_eq_false hsel)
  have hentry : s.descCanonical sel = true ↔ canonicalEntry := descCanonical_iff
  constructor
  · intro hreject
    rw [← hentry, Bool.not_eq_true] at hreject
    exact exec_fault_of_newSegment h (hn.trans (newSegmentLong_rejected hreject).2)
  · intro hin hcanonical
    exact exec_of_loadSs h hw (hn.trans (newSegmentLong_passed hin (hentry.2 hcanonical)).2)

/-! ## What every form that completes leaves -/

/-- Settles O36: the operand's bytes are determined, the write of the destination is that of R122, and every load
stores the selector it was given. -/
theorem offsetAndSelectorGoWhereTheyBelong : Obligations.OffsetAndSelectorGoWhereTheyBelong := by
  intro i s t r as h hr ha
  obtain ⟨r', as', n, hready, hn, -, rfl⟩ := exec_eq_next.1 h
  obtain ⟨-, rfl⟩ := ready_unique hready hr ha
  refine ⟨destWritten_commit .., ?_⟩
  rw [commit_seg_same]
  exact newSegment_sel hn

/-- Settles O37: the length added to `pc` is the length of the encoding. -/
theorem pcAdvancesByTheLength : Obligations.PcAdvancesByTheLength := by
  intro i s t h
  obtain ⟨r, as, n, -, -, -, rfl⟩ := exec_eq_next.1 h
  rw [commit_pc, length_encode]

/-! ## The encoding check -/

theorem checkEncoding_of_undefinedOpcode {s : State} {m : Mnem} {e : Enc} (hvex : s.vexClaims m e = false)
    (h : s.undefinedOpcode m e = true) (o : OpSize) : s.checkEncoding m o e = raise .ud := by
  rw [State.checkEncoding, hvex, if_neg Bool.false_ne_true, if_pos h]

theorem undefinedOpcode_iff {s : State} {m : Mnem} {e : Enc} : s.undefinedOpcode m e = true ↔
    e.pfx.hasLock = true ∨ e.rm.isRegister = true ∨ (s.mode = .long64 ∧ (m = .lds ∨ m = .les)) := by
  simp [State.undefinedOpcode, isLdsLes_iff, or_assoc]

/-- Settles O14: the encoding check is the first thing that an instruction does. -/
theorem badEncodingRaisesUd : Obligations.BadEncodingRaisesUd := by
  intro i s hvex hbad
  rw [isLdsLes_iff, ← vexClaims_iff, Bool.not_eq_true] at hvex
  rw [exec_eq, State.loadFarPointer, checkEncoding_of_undefinedOpcode hvex (undefinedOpcode_iff.2 hbad)]
  rfl

/-! ## GDTR and LDTR do not enter in real-address and virtual-8086 mode -/

/-- The state with other descriptor-table registers. -/
def State.withTables (s : State) (g : Gdtr) (l : Ldtr) : State := { s with gdtr := g, ldtr := l }

section withTables

variable (s : State) (g : Gdtr) (l : Ldtr)

@[simp] theorem translateAll_withTables (k : AccessKind) (p : Privilege) (las : List (BitVec 64)) :
    (s.withTables g l).translateAll k p las = s.translateAll k p las := by
  induction las with
  | nil => rfl
  | cons la las ih =>
    simp only [State.translateAll, ih]
    rfl

@[simp] theorem fetchWindow_withTables : (s.withTables g l).fetchWindow = s.fetchWindow := by
  have hwindow : ∀ n o, (s.withTables g l).codeWindow n o = s.codeWindow n o := by
    intro n
    induction n with
    | zero => exact fun _ => rfl
    | succ n ih =>
      intro o
      simp only [State.codeWindow, ih]
      rfl
  exact hwindow ..

@[simp] theorem checkEncoding_withTables (m : Mnem) (o : OpSize) (e : Enc) :
    (s.withTables g l).checkEncoding m o e = s.checkEncoding m o e := rfl

@[simp] theorem operandRef_withTables (m : Mnem) (e : Enc) : (s.withTables g l).operandRef m e = s.operandRef m e := rfl

@[simp] theorem checkOperand_withTables (r : MemRef) (o : OpSize) :
    (s.withTables g l).checkOperand r o = s.checkOperand r o := by
  have haccess : (s.withTables g l).checkAccess r o (o.bytes + 2) = s.checkAccess r o (o.bytes + 2) := by
    unfold State.checkAccess
    rw [translateAll_withTables]
    rfl
  unfold State.checkOperand
  rw [haccess]
  rfl

theorem commit_withTables (seg : Seg) (o : OpSize) (d : BitVec 4) (off : BitVec 64) (n : SegLoad) (len : Nat) :
    (s.withTables g l).commit seg o d off n len = (s.commit seg o d off n len).withTables g l := by
  obtain ⟨reg, _ | a, drawn⟩ := n <;> cases seg <;> rfl

variable {s} (hm : s.mode = .real ∨ s.mode = .v86)
include hm

/-- The one place where the tables enter is the load, which makes no use of them in these modes (R222). -/
theorem newSegment_withTables (seg : Seg) (sel : BitVec 16) :
    (s.withTables g l).newSegment seg sel = s.newSegment seg sel := by
  rw [newSegment_of_real_v86 hm, newSegment_of_real_v86 (s := s.withTables g l) hm]
  cases seg <;> rfl

theorem exec_withTables (i : Instr) : exec i (s.withTables g l) = mapNext (·.withTables g l) (exec i s) := by
  have hload : (s.withTables g l).loadFarPointer i.mnem i.osz i.enc =
      (·.withTables g l) <$> s.loadFarPointer i.mnem i.osz i.enc := by
    simp only [State.loadFarPointer, map_bind, map_pure, checkEncoding_withTables, operandRef_withTables,
      checkOperand_withTables, newSegment_withTables g l hm, commit_withTables]
    rfl
  rw [exec_eq, exec_eq, hload, finish_map]

theorem step_withTables : step (s.withTables g l) = mapNext (·.withTables g l) (step s) := by
  have hdecode : decode (s.withTables g l).ctx (s.withTables g l).fetchBytes = decode s.ctx s.fetchBytes := by
    rw [State.fetchBytes, fetchWindow_withTables]
    rfl
  have hmod : ∀ len, (s.withTables g l).codeIsModified len = s.codeIsModified len := by
    intro len
    rw [State.codeIsModified, fetchWindow_withTables]
    rfl
  unfold step
  rw [hdecode]
  cases decode s.ctx s.fetchBytes with
  | ok i rest =>
    simp only [hmod, exec_withTables g l hm]
    split <;> rfl
  | truncated =>
    simp only [State.truncatedFetch, fetchWindow_withTables]
    split <;> rfl
  | rejected r => rfl

end withTables

/-- Settles O43: a step of the state with other tables is the step of the state, with the tables changed after it. -/
theorem realAndV86ReadNoTable : Obligations.RealAndV86ReadNoTable := by
  intro s g l hm
  have h : step { s with gdtr := g, ldtr := l } = mapNext (·.withTables g l) (step s) := step_withTables g l hm
  exact ⟨fun t ht => by rw [h, ht]; rfl, fun f hf => by rw [h, hf]; rfl, fun x hx => by rw [h, hx]; rfl⟩

end Sys2Proof.Machine
end

section
/-! PROOFS. The statements of spec/60_exceptions.md: which exceptions the operand checks, a segment load and a whole
instruction can raise, and from these the closed list of exceptions of each group of modes. -/

namespace Sys2Proof.Machine

/-! ## Raising and refusing -/

@[simp] theorem raise_eq_fault {α : Type} {f f' : Fault} : (raise f : Check α) = .error (.fault f') ↔ f = f' := by
  simp [raise]

@[simp] theorem refuse_ne_fault {α : Type} (r : Refusal) (f : Fault) :
    (refuse r : Check α) ≠ .error (.fault f) := by
  simp [refuse]

theorem ite_raise_eq_fault {α : Type} {c : Prop} [Decidable c] {f f' : Fault} {x : Check α} :
    (if c then raise f else x) = .error (.fault f') ↔ c ∧ f = f' ∨ ¬c ∧ x = .error (.fault f') := by
  split <;> simp [*]

/-! ## The exceptions of the operand -/

/-- The error code of an exception that concerns no selector: none in real-address mode (R257), 0 elsewhere (R256). -/
def State.zeroCode (s : State) : Option (BitVec 16) := if s.mode = .real then none else some 0#16

theorem zeroCode_of_real {s : State} (hm : s.mode = .real) : s.zeroCode = none := if_pos hm

theorem zeroCode_of_ne_real {s : State} (hm : s.mode ≠ .real) : s.zeroCode = some 0#16 := if_neg hm

/-- The exceptions that the checks on the memory operand raise (R146). -/
inductive OperandFault (s : State) : Fault → Prop where
  | gp : OperandFault s (.gp s.zeroCode)
  | ss : OperandFault s (.ss s.zeroCode)
  | pf (hm : s.mode ≠ .real) (code : BitVec 32) (la : BitVec 64) : OperandFault s (.pf code la)
  | ac (hm : s.mode ≠ .real) (henabled : s.acEnabled = true) (hcpl : s.mode ≠ .v86 → s.cpl = 3#2) :
    OperandFault s (.ac 0#16)

theorem OperandFault.gp_zero {s : State} (hm : s.mode ≠ .real) : OperandFault s (.gp (some 0#16)) :=
  zeroCode_of_ne_real hm ▸ .gp

theorem OperandFault.ss_zero {s : State} (hm : s.mode ≠ .real) : OperandFault s (.ss (some 0#16)) :=
  zeroCode_of_ne_real hm ▸ .ss

theorem segmentFault_eq (s : State) (g : Seg) :
    s.segmentFault g = if g = .ss then .ss s.zeroCode else .gp s.zeroCode := rfl

theorem segmentFault_operandFault (s : State) (g : Seg) : OperandFault s (s.segmentFault g) := by
  rw [segmentFault_eq]
  split
  · exact .ss
  · exact .gp

theorem nonCanonicalFault_operandFault {s : State} (hm : s.mode ≠ .real) (r : MemRef) :
    OperandFault s (s.nonCanonicalFault r) := by
  have hgp := OperandFault.gp_zero hm
  have hss := OperandFault.ss_zero hm
  unfold State.nonCanonicalFault
  split_ifs <;> assumption

/-- No register holds a NULL selector in real-address mode (R147). -/
theorem not_real_of_nullSegment {s : State} {g : Seg} (h : s.nullSegment g = true) : s.mode ≠ .real := by
  intro hm
  simp [State.nullSegment, hm] at h

/-- No segment is execute-only in real-address mode (R149). -/
theorem not_real_of_executeOnly {s : State} {g : Seg} (h : s.executeOnly g = true) : s.mode ≠ .real := by
  intro hm
  simp [State.executeOnly, hm] at h

theorem checkSegment_fault {s : State} {r : MemRef} {n : Nat} {f : Fault}
    (h : s.checkSegment r n = .error (.fault f)) : OperandFault s f := by
  unfold State.checkSegment at h
  split at h
  · next hlong =>
    split at h
    · cases h
    · cases h
      exact nonCanonicalFault_operandFault (by simp [hlong]) r
  · rcases ite_raise_eq_fault.1 h with ⟨hnull, rfl⟩ | ⟨-, h⟩
    · exact .gp_zero (not_real_of_nullSegment hnull)
    rcases ite_raise_eq_fault.1 h with ⟨-, rfl⟩ | ⟨-, h⟩
    · exact segmentFault_operandFault s r.seg
    rcases ite_raise_eq_fault.1 h with ⟨hx, rfl⟩ | ⟨-, h⟩
    · exact .gp_zero (not_real_of_executeOnly hx)
    · cases h

theorem alignmentDue_operandFault {s : State} {o : OpSize} {la : BitVec 64} (h : s.alignmentDue o la = true) :
    OperandFault s (.ac 0#16) := by
  obtain ⟨hm, henabled, hcpl, -⟩ := alignmentDue_iff.1 h
  exact .ac hm henabled hcpl

theorem checkAccess_fault {s : State} {r : MemRef} {o : OpSize} {n : Nat} {f : Fault}
    (h : s.checkAccess r o n = .error (.fault f)) : OperandFault s f := by
  unfold State.checkAccess at h
  split at h
  · next e he =>
    rcases ite_raise_eq_fault.1 h with ⟨hdue, rfl⟩ | ⟨-, h⟩
    · exact alignmentDue_operandFault (Bool.and_eq_true_iff.1 hdue).1
    · obtain ⟨hm, code, la, rfl⟩ := translateAll_error he
      cases h
      exact .pf hm code la
  · rcases ite_raise_eq_fault.1 h with ⟨hdue, rfl⟩ | ⟨-, h⟩
    · exact alignmentDue_operandFault hdue
    · cases refuseSideEffect_error h

theorem checkOperand_fault {s : State} {r : MemRef} {o : OpSize} {f : Fault}
    (h : s.checkOperand r o = .error (.fault f)) : OperandFault s f := by
  rcases bind_eq_error.1 h with h | ⟨_, -, h⟩
  · exact checkSegment_fault h
  · split at h
    · cases h
    · exact checkAccess_fault h

/-! ## The exceptions of the segment load -/

/-- Bits 1 and 0 of a selector's error code are 0 (R258, D17). -/
theorem selectorCode_and_three (sel : BitVec 16) : selectorCode sel &&& 3#16 = 0#16 := by
  rw [selectorCode, BitVec.and_assoc]
  exact BitVec.and_zero

/-- The error code of a NULL selector is 0, so `#GP(0)` for one is `#GP(selector)` (R126, R258). -/
theorem selectorCode_of_isNull {sel : BitVec 16} (h : isNull sel = true) : selectorCode sel = 0#16 := by
  have hsplit : sel = sel.extractLsb' 2 14 ++ rpl sel := by
    rw [rpl, BitVec.extractLsb'_append_extractLsb'_eq_extractLsb' (by rfl), BitVec.extractLsb'_eq_self]
  rw [hsplit, selectorCode_append, beq_iff_eq.1 h]
  rfl

/-- The exceptions that a load of segment register `g` raises for a selector (R223 to R228): `#SS` for SS and `#NP`
for the others when the segment is not present. -/
inductive SegmentLoadFault (g : Seg) (sel : BitVec 16) : Fault → Prop where
  | gp : SegmentLoadFault g sel (.gp (some (selectorCode sel)))
  | ss (hg : g = .ss) : SegmentLoadFault g sel (.ss (some (selectorCode sel)))
  | np (hg : g ≠ .ss) : SegmentLoadFault g sel (.np (selectorCode sel))
  | pf (code : BitVec 32) (la : BitVec 64) : SegmentLoadFault g sel (.pf code la)

theorem SegmentLoadFault.gp_zero {g : Seg} {sel : BitVec 16} (h : isNull sel = true) :
    SegmentLoadFault g sel (.gp (some 0#16)) :=
  selectorCode_of_isNull h ▸ .gp

/-- The five modes are those with segment tests and the two without (R128, R129). -/
theorem checksSegments_of_not_real {s : State} (h : ¬(s.mode = .real ∨ s.mode = .v86)) : s.checksSegments := by
  revert h
  unfold State.checksSegments
  cases s.mode <;> simp

section load

variable {s : State} {g : Seg} {sel : BitVec 16} {f : Fault}

theorem readDescriptor_fault (h : s.readDescriptor sel = .error (.fault f)) : ∃ code la, f = .pf code la := by
  rcases readDescriptor_error h with ⟨-, code, la, hf⟩ | hr
  · exact ⟨code, la, Stop.fault.inj hf⟩
  · cases hr

theorem loadDescriptor_ne_fault (s : State) (sel : BitVec 16) (d : BitVec 64) (f : Fault) :
    s.loadDescriptor sel d ≠ .error (.fault f) := by
  intro h
  rcases loadDescriptor_error h with h | h <;> cases h

theorem loadSs_fault (h : s.loadSs sel = .error (.fault f)) : SegmentLoadFault .ss sel f := by
  unfold State.loadSs at h
  split at h
  · next e he =>
    rcases ite_raise_eq_fault.1 h with ⟨-, rfl⟩ | ⟨-, h⟩
    · exact .gp
    · cases h
      obtain ⟨code, la, rfl⟩ := readDescriptor_fault he
      exact .pf code la
  · rcases ite_raise_eq_fault.1 h with ⟨-, rfl⟩ | ⟨-, h⟩
    · exact .gp
    rcases ite_raise_eq_fault.1 h with ⟨-, rfl⟩ | ⟨-, h⟩
    · exact .ss rfl
    · exact absurd h (loadDescriptor_ne_fault _ _ _ _)

theorem loadData_fault (hg : g ≠ .ss) (h : s.loadData sel = .error (.fault f)) : SegmentLoadFault g sel f := by
  unfold State.loadData at h
  split at h
  · next e he =>
    cases h
    obtain ⟨code, la, rfl⟩ := readDescriptor_fault he
    exact .pf code la
  · rcases ite_raise_eq_fault.1 h with ⟨-, rfl⟩ | ⟨-, h⟩
    · exact .gp
    rcases ite_raise_eq_fault.1 h with ⟨-, rfl⟩ | ⟨-, h⟩
    · exact .np hg
    · exact absurd h (loadDescriptor_ne_fault _ _ _ _)

/-- SS in protected or compatibility mode (R223). -/
theorem newSegmentSsProt_fault (h : s.newSegmentSsProt sel = .error (.fault f)) : SegmentLoadFault .ss sel f := by
  rcases ite_raise_eq_fault.1 h with ⟨hnull, rfl⟩ | ⟨-, h⟩
  · exact .gp_zero hnull
  rcases ite_raise_eq_fault.1 h with ⟨-, rfl⟩ | ⟨-, h⟩
  · exact .gp
  · exact loadSs_fault h

/-- DS, ES, FS or GS in protected or compatibility mode (R224). -/
theorem newSegmentDataProt_fault (hg : g ≠ .ss) (h : s.newSegmentDataProt sel = .error (.fault f)) :
    SegmentLoadFault g sel f := by
  rcases ite_raise_eq_fault.1 h with ⟨-, rfl⟩ | ⟨-, h⟩
  · exact .gp
  · exact loadData_fault hg h

/-- FS or GS in 64-bit mode (R225). -/
theorem newSegmentFsGsLong_fault (hg : g ≠ .ss) (h : s.newSegmentFsGsLong sel = .error (.fault f)) :
    SegmentLoadFault g sel f := by
  rcases ite_raise_eq_fault.1 h with ⟨-, rfl⟩ | ⟨-, h⟩
  · exact .gp
  rcases ite_raise_eq_fault.1 h with ⟨-, rfl⟩ | ⟨-, h⟩
  · exact .gp
  · exact loadData_fault hg h

/-- SS with a selector that is not NULL in 64-bit mode (R227). -/
theorem newSegmentSsLong_fault (h : s.newSegmentSsLong sel = .error (.fault f)) : SegmentLoadFault .ss sel f := by
  rcases ite_raise_eq_fault.1 h with ⟨-, rfl⟩ | ⟨-, h⟩
  · exact .gp
  rcases ite_raise_eq_fault.1 h with ⟨-, rfl⟩ | ⟨-, h⟩
  · exact .gp
  · exact loadSs_fault h

/-- SS with a NULL selector in 64-bit mode (R228). -/
theorem newSegmentSsLongNull_fault (hnull : isNull sel = true)
    (h : s.newSegmentSsLongNull sel = .error (.fault f)) : SegmentLoadFault .ss sel f := by
  rcases ite_raise_eq_fault.1 h with ⟨-, rfl⟩ | ⟨-, h⟩
  · exact .gp_zero hnull
  · cases h

/-- A load of SS (R223, R227, R228). -/
theorem newSegment_ss_fault (hc : s.checksSegments) (h : s.newSegment .ss sel = .error (.fault f)) :
    SegmentLoadFault .ss sel f := by
  rcases or_assoc.2 hc with hm | hm
  · rw [newSegment_ss_of_prot hm] at h
    exact newSegmentSsProt_fault h
  cases hnull : isNull sel with
  | true =>
    rw [newSegment_ss_of_long_null hm hnull] at h
    exact newSegmentSsLongNull_fault hnull h
  | false =>
    rw [newSegment_ss_of_long hm hnull] at h
    exact newSegmentSsLong_fault h

/-- A load of DS, ES, FS or GS: a NULL selector raises nothing (R224 to R226). -/
theorem newSegment_data_fault (hc : s.checksSegments) (hg : g ≠ .ss) (h : s.newSegment g sel = .error (.fault f)) :
    SegmentLoadFault g sel f := by
  cases hnull : isNull sel with
  | true =>
    rw [newSegment_of_null hc hg hnull] at h
    cases h
  | false =>
    rcases or_assoc.2 hc with hm | hm
    · rw [newSegment_data_of_prot hm hg hnull] at h
      exact newSegmentDataProt_fault hg h
    · rw [newSegment_fsGs_of_long hm hg hnull] at h
      exact newSegmentFsGsLong_fault hg h

/-- A segment load raises an exception only where segment tests apply (R222 to R228). -/
theorem newSegment_fault (h : s.newSegment g sel = .error (.fault f)) :
    s.checksSegments ∧ SegmentLoadFault g sel f := by
  by_cases hmode : s.mode = .real ∨ s.mode = .v86
  · rw [newSegment_of_real_v86 hmode] at h
    cases h
  have hchecks := checksSegments_of_not_real hmode
  refine ⟨hchecks, ?_⟩
  by_cases hg : g = .ss
  · subst hg
    exact newSegment_ss_fault hchecks h
  · exact newSegment_data_fault hchecks hg h

end load

/-! ## The exceptions of an instruction -/

theorem checkEncoding_fault {s : State} {m : Mnem} {o : OpSize} {e : Enc} {f : Fault}
    (h : s.checkEncoding m o e = .error (.fault f)) : f = .ud := by
  unfold State.checkEncoding at h
  split at h
  · cases h
  rcases ite_raise_eq_fault.1 h with ⟨-, rfl⟩ | ⟨-, h⟩
  · rfl
  · split at h <;> cases h

theorem operandRef_fault {s : State} {m : Mnem} {e : Enc} {f : Fault}
    (h : s.operandRef m e = .error (.fault f)) : f = .ud := by
  unfold State.operandRef at h
  split at h <;> cases h
  rfl

theorem checkNextPc_ne_fault (s : State) (len : Nat) (f : Fault) : s.checkNextPc len ≠ .error (.fault f) := by
  unfold State.checkNextPc
  split <;> simp

/-- Every exception an instruction can raise, check by check (R200, R251). -/
theorem exec_fault {i : Instr} {s : State} {f : Fault} (h : exec i s = .fault f) :
    f = .ud ∨ OperandFault s f ∨ s.checksSegments ∧ ∃ sel, SegmentLoadFault i.mnem.seg sel f := by
  rw [exec_eq, finish_eq_fault, State.loadFarPointer] at h
  rcases bind_eq_error.1 h with h | ⟨_, -, h⟩
  · exact .inl (checkEncoding_fault h)
  rcases bind_eq_error.1 h with h | ⟨_, -, h⟩
  · exact .inl (operandRef_fault h)
  rcases bind_eq_error.1 h with h | ⟨_, -, h⟩
  · exact .inr (.inl (checkOperand_fault h))
  rcases bind_eq_error.1 h with h | ⟨_, -, h⟩
  · obtain ⟨hchecks, hload⟩ := newSegment_fault h
    exact .inr (.inr ⟨hchecks, _, hload⟩)
  rcases bind_eq_error.1 h with h | ⟨_, -, h⟩
  · exact absurd h (checkNextPc_ne_fault _ _ _)
  · cases h

/-- Settles O39: no segment load raises an exception in real-address mode, and of the operand's exceptions the page
fault and the alignment check are not raised there. -/
theorem realModeExceptions : Obligations.RealModeExceptions := by
  intro i s f hm h
  rcases exec_fault h with hud | hop | ⟨hchecks, -⟩
  · exact .inl hud
  · cases hop with
    | gp => exact .inr (.inl (by rw [zeroCode_of_real hm]))
    | ss => exact .inr (.inr (by rw [zeroCode_of_real hm]))
    | pf hreal | ac hreal => exact absurd hm hreal
  · exact absurd (.inl hm) (not_real_of_checksSegments hchecks)

/-- Settles O40: no segment load raises an exception in virtual-8086 mode, so the exceptions are the operand's. -/
theorem v86ModeExceptions : Obligations.V86ModeExceptions := by
  intro i s f hm h
  have hcode : s.zeroCode = some 0#16 := zeroCode_of_ne_real (by simp [hm])
  rcases exec_fault h with hud | hop | ⟨hchecks, -⟩
  · exact .inl hud
  · cases hop with
    | gp => exact .inr (.inl (by rw [hcode]))
    | ss => exact .inr (.inr (.inl (by rw [hcode])))
    | pf _ code la => exact .inr (.inr (.inr (.inl ⟨code, la, rfl⟩)))
    | ac _ henabled => exact .inr (.inr (.inr (.inr ⟨henabled, rfl⟩)))
  · exact absurd (.inr hm) (not_real_of_checksSegments hchecks)

/-- Settles O41: the operand's exceptions carry code 0, those of the segment load the selector's code, whose low two
bits are 0; which of `#SS` and `#NP` the load raises depends on whether it loads SS. -/
theorem protectedModeExceptions : Obligations.ProtectedModeExceptions := by
  intro i s f hchecks h
  obtain ⟨hreal, hv86⟩ := not_or.1 (not_real_of_checksSegments hchecks)
  have hcode := zeroCode_of_ne_real hreal
  rcases exec_fault h with hud | hop | ⟨-, sel, hload⟩
  · exact .inl hud
  · cases hop with
    | gp => exact .inr (.inl ⟨0#16, by rw [hcode], rfl⟩)
    | ss => exact .inr (.inr (.inl ⟨0#16, by rw [hcode], rfl, fun _ => rfl⟩))
    | pf _ code la => exact .inr (.inr (.inr (.inr (.inl ⟨code, la, rfl⟩))))
    | ac _ henabled hcpl => exact .inr (.inr (.inr (.inr (.inr ⟨rfl, henabled, hcpl hv86⟩))))
  · have hbits := selectorCode_and_three sel
    cases hload with
    | gp => exact .inr (.inl ⟨_, rfl, hbits⟩)
    | ss hg => exact .inr (.inr (.inl ⟨_, rfl, hbits, fun hlss => absurd (seg_eq_ss_iff.1 hg) hlss⟩))
    | np hg => exact .inr (.inr (.inr (.inl ⟨_, rfl, hbits, fun hlss => hg (seg_eq_ss_iff.2 hlss)⟩)))
    | pf code la => exact .inr (.inr (.inr (.inr (.inl ⟨code, la, rfl⟩))))

end Sys2Proof.Machine
end

section
/-! PROOFS. The statements of spec/70_reset_and_hazards.md: what every run leaves as it was, that a run ends and in
which ways, where listed bytes come to stand, and the load of SS together with the stack pointer, each after the lemmas
it needs. -/

namespace Sys2Proof.Machine

/-! ## What every run keeps -/

/-- No mnemonic loads CS (R171). -/
theorem cs_ne_seg (m : Mnem) : Seg.cs ≠ m.seg := by cases m <;> decide

theorem exec_cs {i : Instr} {s t : State} (h : exec i s = .next t) : t.cs = s.cs :=
  (everyFormLeavesTheRest i s t h).segs .cs (cs_ne_seg i.mnem)

/-- An instruction that completes leaves each byte of memory alone or sets its bit 0 (R160). -/
theorem exec_byteAt {i : Instr} {s t : State} (hw : s.mem.wf = true) (h : exec i s = .next t) (a : Nat) :
    t.byteAt a = s.byteAt a ∨ t.byteAt a = s.byteAt a ||| 1#8 := by
  obtain ⟨r, as, n, -, -, -, rfl⟩ := exec_eq_next.1 h
  have hmarked := (loaded_commit (i := i) (as := as) (n := n) (.inl hw)).memory a
  split at hmarked
  · exact .inr hmarked
  · exact .inl hmarked

/-- What no run changes, and that a byte of memory only gains its bit 0. -/
structure SystemKept (s t : State) : Prop where
  cs        : t.cs = s.cs
  mode      : t.mode = s.mode
  cpl       : t.cpl = s.cpl
  gdtr      : t.gdtr = s.gdtr
  ldtr      : t.ldtr = s.ldtr
  acEnabled : t.acEnabled = s.acEnabled
  flags     : t.flags = s.flags
  cfg       : t.cfg = s.cfg
  bytes     : ∀ a, t.byteAt a = s.byteAt a ∨ t.byteAt a = s.byteAt a ||| 1#8

theorem SystemKept.refl (s : State) : SystemKept s s :=
  ⟨rfl, rfl, rfl, rfl, rfl, rfl, rfl, rfl, fun _ => .inl rfl⟩

/-- Setting bit 0 again changes nothing, so the bytes compose as the fields do. -/
theorem SystemKept.trans {s t u : State} (h : SystemKept s t) (h' : SystemKept t u) : SystemKept s u where
  cs := h'.cs.trans h.cs
  mode := h'.mode.trans h.mode
  cpl := h'.cpl.trans h.cpl
  gdtr := h'.gdtr.trans h.gdtr
  ldtr := h'.ldtr.trans h.ldtr
  acEnabled := h'.acEnabled.trans h.acEnabled
  flags := h'.flags.trans h.flags
  cfg := h'.cfg.trans h.cfg
  bytes a := by
    rcases h'.bytes a with hu | hu <;> rcases h.bytes a with ht | ht
    · exact .inl (hu.trans ht)
    · exact .inr (hu.trans ht)
    · exact .inr (by rw [hu, ht])
    · exact .inr (by rw [hu, ht, BitVec.or_assoc, BitVec.or_self])

theorem exec_systemKept {i : Instr} {s t : State} (hw : s.mem.wf = true) (h : exec i s = .next t) : SystemKept s t :=
  have hrest := everyFormLeavesTheRest i s t h
  { hrest with cs := exec_cs h, bytes := exec_byteAt hw h }

/-- The invariant and `SystemKept` hold along every run: canonical memory, part of the invariant, is what a step's
frame of memory needs. -/
theorem reaches_inv_systemKept {s t : State} (hs : Inv s) (h : Reaches s t) : Inv t ∧ SystemKept s t := by
  induction h with
  | refl => exact ⟨hs, .refl s⟩
  | tail _ hstep ih =>
    obtain ⟨hinv, hkept⟩ := ih
    obtain ⟨i, hi⟩ := exec_of_step_eq_next hstep
    exact ⟨exec_inv hinv hi, hkept.trans (exec_systemKept hinv.memory hi)⟩

/-- Settles O46, by induction on the run. -/
theorem runsKeepSystemState : Obligations.RunsKeepSystemState := by
  intro s t hs h
  obtain ⟨hinv, hkept⟩ := reaches_inv_systemKept hs h
  exact ⟨hinv, hkept.cs, hkept.mode, hkept.cpl, hkept.gdtr, hkept.ldtr, hkept.acEnabled, hkept.flags, hkept.cfg,
    hkept.bytes⟩

/-! ## How a run ends -/

/-- The state a run ended in. -/
def RunEnd.state : RunEnd → State
  | .completed t | .faulted _ t | .refused _ t => t

/-- The end is one of the three of R289: `pc` at the offset past the listed bytes, or not there and the outcome of the
state's step. -/
def RunEnd.Justified (stop : Nat) : RunEnd → Prop
  | .completed t => t.pcOffset = stop
  | .faulted f t => t.pcOffset ≠ stop ∧ step t = .fault f
  | .refused r t => t.pcOffset ≠ stop ∧ step t = .refused r

theorem runTo_reaches_justified {stop n : Nat} {s : State} {e : RunEnd} (h : runTo stop n s = some e) :
    Reaches s e.state ∧ e.Justified stop := by
  induction n generalizing s with
  | zero =>
    rw [runTo] at h
    split at h
    · next hs =>
      cases h
      exact ⟨.refl s, hs⟩
    · cases h
  | succ n ih =>
    by_cases hs : s.pcOffset = stop
    · rw [runTo_at_stop hs] at h
      cases h
      exact ⟨.refl s, hs⟩
    · rw [runTo_succ hs] at h
      cases hstep : step s with
      | next t =>
        rw [hstep] at h
        obtain ⟨hreaches, hjustified⟩ := ih h
        exact ⟨reaches_head hstep hreaches, hjustified⟩
      | fault f =>
        rw [hstep] at h
        cases h
        exact ⟨.refl s, hs, hstep⟩
      | refused r =>
        rw [hstep] at h
        cases h
        exact ⟨.refl s, hs, hstep⟩

/-- Runs from one state that have ended, after however many steps, have ended alike. -/
theorem runTo_unique {stop n m : Nat} {s : State} {e e' : RunEnd} (h : runTo stop n s = some e)
    (h' : runTo stop m s = some e') : e = e' := by
  have hlong := runTo_mono h m
  rw [Nat.add_comm, runTo_mono h' n] at hlong
  exact (Option.some.inj hlong).symm

/-- Settles O55: every end of a run is justified by the state it ended in, and more steps do not change it. -/
theorem runEndsInOneOfThreeWays : Obligations.RunEndsInOneOfThreeWays := by
  intro s stop n
  exact ⟨fun hs => runTo_at_stop hs n, fun _ h => runTo_reaches_justified h, fun _ _ h => runTo_reaches_justified h,
    fun _ _ h => runTo_reaches_justified h, fun _ _ _ h h' => runTo_unique h h'⟩

/-! ## Every run ends -/

theorem exec_codeTop {i : Instr} {s t : State} (h : exec i s = .next t) : t.codeTop = s.codeTop := by
  have hmode := (everyFormLeavesTheRest i s t h).mode
  have hcsD : t.csD = s.csD := congrArg (·.hid.flags.getLsbD 2) (exec_cs h)
  rw [codeTop_eq, codeTop_eq, hmode, hcsD]

/-- A completed instruction moves the code offset up by its length, which stays in the range (R133, R235). -/
theorem exec_pcOffset {i : Instr} {s t : State} (h : exec i s = .next t) : t.pcOffset = s.pcOffset + i.length := by
  have htop := exec_codeTop h
  obtain ⟨r, as, n, -, -, hrange, rfl⟩ := exec_eq_next.1 h
  rw [State.pcOffset, htop, commit_pc, BitVec.toNat_add, BitVec.toNat_ofNat, Nat.add_mod_mod,
    Nat.mod_mod_of_dvd _ (codeTop_succ_dvd s), ← Nat.mod_add_mod]
  exact Nat.mod_eq_of_lt (Nat.lt_succ_of_le hrange)

theorem exec_length_pos {i : Instr} {s t : State} (h : exec i s = .next t) : 0 < i.length := by
  obtain ⟨r, as, n, hready, -, -, -⟩ := exec_eq_next.1 h
  have := length_bounds_of_wellFormed hready.executable.form
  omega

/-- A run with at least as many steps as there are code offsets left ends: each step leaves fewer offsets. -/
theorem runTo_ends {stop n : Nat} {s : State} (hn : s.codeTop + 1 - s.pcOffset ≤ n) :
    ∃ e, runTo stop n s = some e := by
  induction n generalizing s with
  | zero =>
    have := pcOffset_le_codeTop s
    omega
  | succ n ih =>
    by_cases hs : s.pcOffset = stop
    · exact ⟨_, runTo_at_stop hs _⟩
    · rw [runTo_succ hs]
      cases hstep : step s with
      | next t =>
        obtain ⟨i, hi⟩ := exec_of_step_eq_next hstep
        have htop := exec_codeTop hi
        have hpc := exec_pcOffset hi
        have hlen := exec_length_pos hi
        exact ih (by omega)
      | fault f => exact ⟨_, rfl⟩
      | refused r => exact ⟨_, rfl⟩

/-- Settles O56, by induction on the number of code offsets left. -/
theorem everyRunEnds : Obligations.EveryRunEnds := fun _ _ => runTo_ends le_rfl

/-! ## Listed bytes -/

section storeCode

variable (s : State) (as : List (BitVec 64)) (bs : List Byte)

@[simp] theorem storeCode_pcOffset : (s.storeCode as bs).pcOffset = s.pcOffset :=
  storeCode_keeps (·.pcOffset) (fun _ _ _ => rfl) s as bs

@[simp] theorem storeCode_gpr (k : BitVec 4) : (s.storeCode as bs).gpr k = s.gpr k :=
  storeCode_keeps (·.gpr k) (fun _ _ _ => rfl) s as bs

@[simp] theorem storeCode_seg (g : Seg) : (s.storeCode as bs).seg g = s.seg g :=
  storeCode_keeps (·.seg g) (fun _ _ _ => by cases g <;> rfl) s as bs

@[simp] theorem storeCode_codeByte (o : Nat) : (s.storeCode as bs).codeByte o = s.codeByte o :=
  storeCode_keeps (·.codeByte o) (fun _ _ _ => rfl) s as bs

/-- Where code is read from does not depend on what is stored there. -/
@[simp] theorem storeCode_codeWindow (n o : Nat) : (s.storeCode as bs).codeWindow n o = s.codeWindow n o := by
  induction n generalizing o with
  | zero => rfl
  | succ n ih =>
    simp only [State.codeWindow, storeCode_codeByte, ih]

end storeCode

/-- Bytes stored at addresses of their own are read back in order. -/
theorem storeCode_map_byteAt {s : State} (hw : s.mem.wf = true) {as : List (BitVec 64)} (hdistinct : as.Nodup)
    {bs : List Byte} (hlen : as.length = bs.length) : (as.map fun a => (s.storeCode as bs).byteAt a.toNat) = bs := by
  induction as generalizing s bs with
  | nil => exact (List.length_eq_zero_iff.1 hlen.symm).symm
  | cons a as ih =>
    cases bs with
    | nil => cases hlen
    | cons b bs =>
      obtain ⟨hfresh, hdistinct⟩ := List.nodup_cons.1 hdistinct
      have hw' : (s.mem.write a.toNat b).wf = true := wf_write hw b a.isLt
      have hother (x : BitVec 64) (hx : x ∈ as) : x.toNat ≠ a.toNat :=
        fun e => hfresh (BitVec.eq_of_toNat_eq e ▸ hx)
      rw [List.map_cons, State.storeCode, ih hw' hdistinct (Nat.succ.inj hlen), storeCode_byteAt_other hw' bs hother]
      congr 1
      exact (read_write hw ..).trans (if_pos rfl)

/-- Settles O57: placing stores the bytes at the addresses of the window, which storing does not move. -/
theorem listedBytesStandAtPc : Obligations.ListedBytesStandAtPc := by
  intro s pc bs as hw hwindow hdistinct t
  have ht : t = ({ s with pc := pc } : State).storeCode as bs := by
    simp only [t, State.placeCode, hwindow]
  rw [ht]
  have hw' : ({ s with pc := pc } : State).mem.wf = true := hw
  refine ⟨storeCode_pc .., ?_, storeCode_map_byteAt hw' hdistinct (codeWindow_length hwindow),
    fun x hx => storeCode_byteAt_other hw' bs hx, storeCode_wf hw' as bs, storeCode_gpr _ as bs, ?_,
    storeCode_mode .., storeCode_cpl .., storeCode_gdtr .., storeCode_ldtr .., storeCode_acEnabled ..,
    storeCode_flags .., storeCode_cfg ..⟩
  · rw [storeCode_codeWindow, storeCode_pcOffset, hwindow]
  · intro g
    rw [storeCode_seg]
    cases g <;> rfl

/-! ## The stack -/

/-- Settles O38: what every form writes, with SS as the segment register and register 4 as the destination. -/
theorem lssReplacesStackSegmentAndPointer : Obligations.LssReplacesStackSegmentAndPointer := by
  intro i s t r as hm hdest h hr ha
  obtain ⟨hoffset, hsel⟩ := offsetAndSelectorGoWhereTheyBelong i s t r as h hr ha
  rw [hdest] at hoffset
  rw [hm] at hsel
  exact ⟨hsel, hoffset⟩

end Sys2Proof.Machine
end
